-- ==== Sys2Proof/Word.lean ====
section
/-! DEFINITION. The widths of rule R18 of 00_scope.md: a byte, a `u16` and a `u32`. -/

namespace Sys2Proof

/-- A byte: an unsigned 8-bit value (R18). -/
abbrev Byte := BitVec 8

/-- A `u16` (R18). -/
abbrev Word16 := BitVec 16

/-- A `u32` (R18). -/
abbrev Word32 := BitVec 32

end Sys2Proof
end

