-- ==== Sys2Proof/Config.lean ====
section
/-! DEFINITION. Fixed values (R11, R12), the open parameters a model takes as arguments (R13), the kinds of
event the agents of R8 bring about, and the free values. A constant without a body is free: nothing can be
proved of its value. -/

namespace Sys2Proof

/-- What can happen next: the steps of the agents of R8 and the resets of R264. One event is one atomic step
(R58). -/
inductive Event where
  /-- A host delivers one whole request message to an engine's queue (R14, R179). -/
  | deliver (engine host : Nat) (message : List Byte)
  /-- The line environment appends one byte to a line's receive queue (R16). -/
  | arrive (line : Nat) (b : Byte)
  /-- An engine's chunk timer expires (R141). -/
  | expire (engine : Nat)
  /-- An engine takes one step (R58, R179). -/
  | engine (engine : Nat)
  /-- An engine is reset, without its line and its lock (R260, R264). -/
  | resetEngine (engine : Nat)
deriving DecidableEq, Repr, Inhabited

/-- `ENGINE_LINE` and `LOCK_SCOPE` of one engine (R13): the numbers of its line and of its lock. -/
structure Wiring where
  line : Nat
  lock : Nat
deriving DecidableEq, Repr, Inhabited

/-- The open parameters of R13 that a rule of the machine reads. `wiring` lists the engines of the platform. -/
structure Platform where
  resetBaudIdx : BitVec 3
  resetTimeoutUs : Word32
  rxqDepth : Nat
  nHosts : Nat
  wiring : List Wiring
deriving DecidableEq, Repr, Inhabited

/-- As many lines as the highest number a wire names asks for (R13). -/
def Platform.nLines (p : Platform) : Nat := (p.wiring.map Wiring.line).foldr max 0 + 1

/-- As many locks as the highest number a wire names asks for (R13). -/
def Platform.nLocks (p : Platform) : Nat := (p.wiring.map Wiring.lock).foldr max 0 + 1

namespace Config

/-- `CRC_POLY` (R11). -/
def crcPoly : Word16 := 0x1021#16
/-- `CRC_SEED` (R11); the label "CRC-16/CCITT" does not make it 0xFFFF (R4, C7). -/
def crcSeed : Word16 := 0x0000#16
/-- `TABLE_ENTRIES` (R11). -/
abbrev tableEntries : Nat := 256
/-- `SYNC0` and `SYNC1` (R11). -/
def sync : Byte := 0xFE#8
/-- `HDR_LEN` (R11). -/
abbrev hdrLen : Nat := 6
/-- `FRAME_OVERHEAD` (R11). -/
abbrev frameOverhead : Nat := 8
/-- `ID_MAX` (R11). -/
abbrev idMax : Nat := 239
/-- `ID_BCAST` (R11). -/
def idBcast : Byte := 0xFF#8
/-- `MAX_PARAMS` (R12, C2). -/
abbrev maxParams : Nat := 247
/-- `MAX_FRAME` (R12). -/
abbrev maxFrame : Nat := 255
/-- `MIN_FRAME` (R12, C4). -/
abbrev minFrame : Nat := 8

/-- `BAUD_SET` (R11), ascending; index i selects the i-th rate, counting from 0 (R12, D11). The engine stores
indices only. -/
def baudSet : List Nat := [57600, 115200, 625000, 1000000, 1250000, 1500000, 2000000, 3000000]

/-- The rate of a baud index (R12, R214). -/
def baudOf (i : BitVec 3) : Nat := baudSet.getD i.toNat 0

/-- `RESET_BAUD_IDX`, 0 to 7, an OPEN parameter (R13, D17). Free; log 3. -/
opaque resetBaudIdx : BitVec 3

/-- `RESET_TIMEOUT_US`, an OPEN parameter (R13, D17). Free; log 3. -/
opaque resetTimeoutUs : Word32

/-- How far `RXQ_DEPTH` lies above 255, an OPEN parameter (R13, D18). Free; log 4. -/
opaque moreRxqDepth : Nat

/-- `RXQ_DEPTH`: at least 255 (R13). -/
def rxqDepth : Nat := moreRxqDepth + 255

/-- How many hosts there are beyond the first (R13). Free; log 5. -/
opaque moreHosts : Nat

/-- `N_HOSTS`: at least 1 (R13). -/
def nHosts : Nat := moreHosts + 1

/-- The wires of the engines beyond engine 0 (`ENGINE_LINE`, `LOCK_SCOPE`; R13, D32). Free; log 6. -/
opaque otherEngines : List Wiring

/-- The platform: engine 0's line and lock carry the number 0. DESIGN CHOICE of numbering; log 6. -/
def platform : Platform where
  resetBaudIdx := resetBaudIdx
  resetTimeoutUs := resetTimeoutUs
  rxqDepth := rxqDepth
  nHosts := nHosts
  wiring := ⟨0, 0⟩ :: otherEngines

/-- `PARITY_OF_INDEX` for the parity indices 0 to 2 (R13, D28, N4): a parity code the spec gives no meaning.
No engine reads it. Free; log 7. -/
opaque parityOfIndex : Fin 3 → Nat

/-- `LAST_STATUS` of an engine (first argument) that is reset when the machine has taken so many steps (second
argument): any byte (R25, U1). Free; log 2. -/
opaque freeStatus : Nat → Nat → Byte

/-- Some schedule that gives every timer and every engine a turn again and again; it shows that there is one. -/
def rotation (n : Nat) : Event :=
  if n.unpair.2 % 2 = 0 then .expire n.unpair.1 else .engine n.unpair.1

theorem rotation_timer (e n : Nat) : ∃ m, n ≤ m ∧ rotation m = .expire e :=
  ⟨Nat.pair e (2 * n), by have := Nat.right_le_pair e (2 * n); omega, by simp [rotation]⟩

theorem rotation_engine (e n : Nat) : ∃ m, n ≤ m ∧ rotation m = .engine e :=
  ⟨Nat.pair e (2 * n + 1), by have := Nat.right_le_pair e (2 * n + 1); omega, by simp [rotation]⟩

/-- A choice of the event after so many steps, under the weak fairness the spec assumes: again and again every
timer gets its turn (R142, D44) and every engine gets its turn (R278). A turn whose event is not enabled passes
(log 10), so the two conditions are no more than weak fairness; log 22. -/
structure Schedule where
  event : Nat → Event := rotation
  timer : ∀ e n : Nat, ∃ m, n ≤ m ∧ event m = .expire e := by exact rotation_timer
  engine : ∀ e n : Nat, ∃ m, n ≤ m ∧ event m = .engine e := by exact rotation_engine
deriving Inhabited

/-- The schedule of the machine, where the state has chosen no event: which agent moves, what a host sends, which
byte arrives, when a timer expires (R62, U2, U5, U15). Free but for its fairness; log 1, log 22. -/
opaque schedule : Schedule

end Config
end Sys2Proof
end

