-- ==== Sys2Proof/Machine/Operands.lean ====
section
/-! DEFINITION. The operand forms of R18: halves of a `u16`, bytes of a `u32`, little-endian assembly (R50 to
R53), extension, and byte access in a sequence. -/

namespace Sys2Proof.Machine

/-- `lo8(v) = v[7:0]` (R18). -/
def lo8 (v : Word16) : Byte := v.extractLsb' 0 8

/-- `hi8(v) = v[15:8]` (R18). -/
def hi8 (v : Word16) : Byte := v.extractLsb' 8 8

/-- `LE16(lo, hi)` (R18). -/
def le16 (lo hi : Byte) : Word16 := lo.zeroExtend 16 ||| (hi.zeroExtend 16 <<< 8)

/-- `LE32(b0, b1, b2, b3)` (R18). -/
def le32 (b0 b1 b2 b3 : Byte) : Word32 :=
  b0.zeroExtend 32 ||| (b1.zeroExtend 32 <<< 8) ||| (b2.zeroExtend 32 <<< 16) ||| (b3.zeroExtend 32 <<< 24)

/-- The four bytes of a `u32`, least significant first (R52). -/
def bytes32 (v : Word32) : List Byte :=
  [v.extractLsb' 0 8, v.extractLsb' 8 8, v.extractLsb' 16 8, v.extractLsb' 24 8]

/-- The two bytes of a `u16`, least significant first (R51, R52). -/
def bytes16 (v : Word16) : List Byte := [lo8 v, hi8 v]

/-- A count as one byte. -/
def byteOf (n : Nat) : Byte := BitVec.ofNat 8 n

/-- A count as a `u16`. -/
def wordOf (n : Nat) : Word16 := BitVec.ofNat 16 n

/-- `s[i]`, byte i of a sequence, counting from 0 (R18). Only positions inside the sequence are asked for. -/
def byteAt (s : List Byte) (i : Nat) : Byte := s.getD i 0

/-- A signed field of `w` bits as `sext_32` gives it (R18, R200). -/
def sext32 {w : Nat} (v : BitVec w) : Word32 := v.signExtend 32

/-- An unsigned field of `w` bits as `zext_32` gives it (R18, R200). -/
def zext32 {w : Nat} (v : BitVec w) : Word32 := v.setWidth 32

end Sys2Proof.Machine
end

