-- ==== Sys2Proof/Machine/Checksum.lean ====
section
/-! DEFINITION. The CRC-16 of 40_crc.md: the table construction (R100), the per-byte update (R102), the
checksum (R103) and the bit-serial form it equals (R106). -/

namespace Sys2Proof.Machine

/-- One shift-and-conditional-XOR round, most significant bit first (R100). -/
def crcRound (c : Word16) : Word16 :=
  if c.getLsbD 15 then (c <<< 1) ^^^ Config.crcPoly else c <<< 1

/-- So many rounds (R100). -/
def crcRounds : Nat → Word16 → Word16
  | 0, c => c
  | n + 1, c => crcRounds n (crcRound c)

/-- What the construction of R100 puts into entry `i`: the byte in the top 8 bits, then 8 rounds. -/
def tableEntry (i : Byte) : Word16 := crcRounds 8 (i.zeroExtend 16 <<< 8)

/-- The contents of `TABLE` (R100, R101). -/
def crcTable : List Word16 := (List.range Config.tableEntries).map fun i => tableEntry (byteOf i)

/-- `TABLE[i]` (R19). -/
def tableAt (table : List Word16) (i : Byte) : Word16 := table.getD i.toNat 0

/-- `Update(crc, b)` over a given table (R102). -/
def crcUpdate (table : List Word16) (crc : Word16) (b : Byte) : Word16 :=
  (crc <<< 8) ^^^ tableAt table (((crc >>> 8) ^^^ b.zeroExtend 16).setWidth 8)

/-- `Checksum(s)` over a given table: the update folded from the seed (R103). -/
def checksumWith (table : List Word16) (s : List Byte) : Word16 :=
  s.foldl (crcUpdate table) Config.crcSeed

/-- `Checksum(s)` (R103) over the contents of R100. -/
def checksum (s : List Byte) : Word16 := checksumWith crcTable s

/-- `Bitwise(s)`, the bit-serial CRC (R106). -/
def bitwiseChecksum (s : List Byte) : Word16 :=
  s.foldl (fun (c : Word16) (b : Byte) => crcRounds 8 (c ^^^ (b.zeroExtend 16 <<< 8))) 0x0000#16

end Sys2Proof.Machine
end

