-- ==== Sys2Proof/Machine/Frame.lean ====
section
/-! DEFINITION. The wire frame of 30_encoding.md: its layout (R70 to R79), the frame the framer builds (R120)
and the predicate `WellFormed` (R90). -/

namespace Sys2Proof.Machine

/-- The bytes a frame's checksum covers: sync, id, length, command, option, params (R70, R73, R120). -/
def frameHead (id cmd opt : Byte) (params : List Byte) : List Byte :=
  [Config.sync, Config.sync, id, byteOf (Config.frameOverhead + params.length), cmd, opt] ++ params

/-- The frame built over a given table: the head and its checksum, low byte first (R51, R78, R120). -/
def frameWith (table : List Word16) (id cmd opt : Byte) (params : List Byte) : List Byte :=
  frameHead id cmd opt params ++ bytes16 (checksumWith table (frameHead id cmd opt params))

/-- The frame built over the table contents of R100. -/
def frameOf (id cmd opt : Byte) (params : List Byte) : List Byte := frameWith crcTable id cmd opt params

/-- The declared length, byte 3 (R73, R79). -/
def declaredLength (f : List Byte) : Nat := (byteAt f 3).toNat

/-- Sync bytes as R71 gives them. -/
def syncOk (f : List Byte) : Bool := byteAt f 0 == Config.sync && byteAt f 1 == Config.sync

/-- The trailing checksum equals the one recomputed over every byte before it (R78). -/
def trailerOk (table : List Word16) (f : List Byte) : Bool :=
  le16 (byteAt f (f.length - 2)) (byteAt f (f.length - 1)) == checksumWith table (f.take (f.length - 2))

/-- `WellFormed(f)` over a given table (R90). -/
def frameWellFormedWith (table : List Word16) (f : List Byte) : Bool :=
  decide (Config.minFrame ≤ f.length) && syncOk f && declaredLength f == f.length && trailerOk table f

/-- `WellFormed(f)` (R90). -/
def frameWellFormed (f : List Byte) : Bool := frameWellFormedWith crcTable f

/-- The id, byte 2 (R72). -/
def frameId (f : List Byte) : Byte := byteAt f 2

/-- The command, byte 4 (R74). -/
def frameCmd (f : List Byte) : Byte := byteAt f 4

/-- The option of a request, the status byte of a response, byte 5 (R75, R76). -/
def frameOpt (f : List Byte) : Byte := byteAt f 5

/-- The params, bytes 6 to L-3 (R77). -/
def frameParams (f : List Byte) : List Byte := (f.drop 6).take (f.length - Config.frameOverhead)

/-- The ids TX sends to: 0 to 239 and the broadcast id (R72, R120). -/
def legalId (id : Byte) : Bool := decide (id.toNat ≤ Config.idMax) || id == Config.idBcast

end Sys2Proof.Machine
end

