-- ==== Sys2Proof/Syntax.lean ====
section
/-! DEFINITION. The instructions: one constructor for each row of spec/opcode_table.json, the twelve host
requests, the eleven wire request codes and the ten acknowledgement codes. -/

namespace Sys2Proof

/-- One row of the opcode table with its operands. A count operand (`n` of R81) is the length of the list it
counts. A wire row is a frame with that command byte: device id (byte 2), option or status byte (byte 5), params
(R70, R200 to R212). -/
inductive Instr where
  /-- CRC, R104. -/
  | crc (data : List Byte)
  /-- TX, R120. -/
  | tx (id cmd opt : Byte) (params : List Byte)
  /-- RX, R140. -/
  | rx
  /-- SETBAUD, R170. -/
  | setBaud (idx : Byte)
  /-- SETTMO, R171. -/
  | setTmo (t : Word32)
  /-- GETBAUD, R172. -/
  | getBaud
  /-- GETTMO, R173. -/
  | getTmo
  /-- GETSTAT, R174. -/
  | getStat
  /-- LOCKTRY, R175. -/
  | lockTry
  /-- UNLOCK, R176. -/
  | unlock
  /-- RXAVAIL, R177. -/
  | rxAvail
  /-- TBLRD, R105. -/
  | tblRd (i : Byte)
  /-- MemRead 0xA0, R200. -/
  | memRead (id opt : Byte) (params : List Byte)
  /-- MemWrite 0xA1, R201. -/
  | memWrite (id opt : Byte) (params : List Byte)
  /-- Load 0xA2, R202. -/
  | load (id opt : Byte) (params : List Byte)
  /-- Save 0xA3, R203. -/
  | save (id opt : Byte) (params : List Byte)
  /-- MotorRead 0xA4, R204. -/
  | motorRead (id opt : Byte) (params : List Byte)
  /-- MotorWrite 0xA5, R205. -/
  | motorWrite (id opt : Byte) (params : List Byte)
  /-- SystemRead 0xBB, R206. -/
  | systemRead (id opt : Byte) (params : List Byte)
  /-- SystemWrite 0xBC, R207. -/
  | systemWrite (id opt : Byte) (params : List Byte)
  /-- Reboot 0xBD, R208. -/
  | reboot (id opt : Byte) (params : List Byte)
  /-- FactoryReset 0xBE, R209. -/
  | factoryReset (id opt : Byte) (params : List Byte)
  /-- SystemInit 0xBF, R210. -/
  | systemInit (id opt : Byte) (params : List Byte)
  /-- MemReadAck 0x20, R211, R212. -/
  | memReadAck (id status : Byte) (params : List Byte)
  /-- MemWriteAck 0x21, R211, R212. -/
  | memWriteAck (id status : Byte) (params : List Byte)
  /-- LoadAck 0x22, R211, R212. -/
  | loadAck (id status : Byte) (params : List Byte)
  /-- SaveAck 0x23, R211, R212. -/
  | saveAck (id status : Byte) (params : List Byte)
  /-- MotorReadAck 0x24, R211, R212. -/
  | motorReadAck (id status : Byte) (params : List Byte)
  /-- MotorWriteAck 0x25, R211, R212. -/
  | motorWriteAck (id status : Byte) (params : List Byte)
  /-- SystemReadAck 0x3B, R211, R212. -/
  | systemReadAck (id status : Byte) (params : List Byte)
  /-- SystemWriteAck 0x3C, R211, R212. -/
  | systemWriteAck (id status : Byte) (params : List Byte)
  /-- RebootAck 0x3D, R211, R212. -/
  | rebootAck (id status : Byte) (params : List Byte)
  /-- FactoryResetAck 0x3E, R211, R212. -/
  | factoryResetAck (id status : Byte) (params : List Byte)
deriving DecidableEq, Repr

end Sys2Proof
end

