-- ==== Sys2Proof/WellFormed.lean ====
section
/-! DEFINITION. Which instructions have an encoding: the count operands fit the fields that carry them (R73,
R81). A value outside an operand's legal range is no ill-formed instruction: it is a legal request that fails
(R84). -/

namespace Sys2Proof

/-- The params of a frame leave its length in one byte: at most 247 (R73, C2). -/
def frameParamsFit (params : List Byte) : Bool := params.length ≤ Config.maxParams

/-- The instruction has an encoding: CRC's count fits a `u16`, TX's count fits a byte (R81), a frame's length
fits its byte 3 (R73). -/
def Instr.wellFormed : Instr → Bool
  | .crc data => data.length ≤ 65535
  | .tx _ _ _ params => params.length ≤ 255
  | .rx => true
  | .setBaud _ => true
  | .setTmo _ => true
  | .getBaud => true
  | .getTmo => true
  | .getStat => true
  | .lockTry => true
  | .unlock => true
  | .rxAvail => true
  | .tblRd _ => true
  | .memRead _ _ params => frameParamsFit params
  | .memWrite _ _ params => frameParamsFit params
  | .load _ _ params => frameParamsFit params
  | .save _ _ params => frameParamsFit params
  | .motorRead _ _ params => frameParamsFit params
  | .motorWrite _ _ params => frameParamsFit params
  | .systemRead _ _ params => frameParamsFit params
  | .systemWrite _ _ params => frameParamsFit params
  | .reboot _ _ params => frameParamsFit params
  | .factoryReset _ _ params => frameParamsFit params
  | .systemInit _ _ params => frameParamsFit params
  | .memReadAck _ _ params => frameParamsFit params
  | .memWriteAck _ _ params => frameParamsFit params
  | .loadAck _ _ params => frameParamsFit params
  | .saveAck _ _ params => frameParamsFit params
  | .motorReadAck _ _ params => frameParamsFit params
  | .motorWriteAck _ _ params => frameParamsFit params
  | .systemReadAck _ _ params => frameParamsFit params
  | .systemWriteAck _ _ params => frameParamsFit params
  | .rebootAck _ _ params => frameParamsFit params
  | .factoryResetAck _ _ params => frameParamsFit params

end Sys2Proof
end

