-- ==== Sys2Proof/Decode.lean ====
section
/-! DEFINITION. The decoder, total on any bytes and rejecting by name, for the two encodings of 30_encoding.md:
host request messages (R80 to R84) and wire frames (R70 to R79, R85, R90); the encoder; and the reading of a word
of spec/opcode_table.json. A frame begins with 0xFE, which is a reserved opcode, so no byte sequence is both. -/

namespace Sys2Proof

/-- Why bytes are no instruction. -/
inductive DecodeError where
  /-- A message of no byte at all has no opcode (R80). -/
  | emptyMessage
  /-- Opcodes 0x00 and 0x0D to 0xFF (R83). -/
  | reservedOpcode (op : Byte)
  /-- The length differs from the one the opcode and count give (R82). -/
  | wrongLength (op : Byte)
  /-- Fewer than 8 bytes (R90). -/
  | shortFrame
  /-- The first two bytes are not 0xFE 0xFE (R71). -/
  | badSync
  /-- Byte 3 is not the frame's length (R73). -/
  | badLength
  /-- The trailing checksum is not the recomputed one (R78). -/
  | badChecksum
  /-- The source assigns this command byte to nothing (R85); the framer still carries the frame (R74). -/
  | unassignedCommand (cmd : Byte)
deriving DecidableEq, Repr

/-- The length R81 gives a request, by its opcode and, for CRC and TX, its count; none for a reserved opcode. -/
def requestLength (bs : List Byte) : Option Nat :=
  match (Machine.byteAt bs 0).toNat with
  | 0x01 => some (3 + (Machine.le16 (Machine.byteAt bs 1) (Machine.byteAt bs 2)).toNat)
  | 0x02 => some (5 + (Machine.byteAt bs 4).toNat)
  | 0x03 => some 1
  | 0x04 => some 2
  | 0x05 => some 5
  | 0x06 => some 1
  | 0x07 => some 1
  | 0x08 => some 1
  | 0x09 => some 1
  | 0x0A => some 1
  | 0x0B => some 1
  | 0x0C => some 2
  | _ => none

/-- The operands of a request that has the length of R81. -/
def requestInstr (bs : List Byte) : Option Instr :=
  match (Machine.byteAt bs 0).toNat with
  | 0x01 => some (.crc (bs.drop 3))
  | 0x02 => some (.tx (Machine.byteAt bs 1) (Machine.byteAt bs 2) (Machine.byteAt bs 3) (bs.drop 5))
  | 0x03 => some .rx
  | 0x04 => some (.setBaud (Machine.byteAt bs 1))
  | 0x05 => some (.setTmo (Machine.le32 (Machine.byteAt bs 1) (Machine.byteAt bs 2) (Machine.byteAt bs 3) (Machine.byteAt bs 4)))
  | 0x06 => some .getBaud
  | 0x07 => some .getTmo
  | 0x08 => some .getStat
  | 0x09 => some .lockTry
  | 0x0A => some .unlock
  | 0x0B => some .rxAvail
  | 0x0C => some (.tblRd (Machine.byteAt bs 1))
  | _ => none

/-- The instruction of a host request message (R81 to R83). -/
def decodeRequest (bs : List Byte) : Except DecodeError Instr :=
  match bs with
  | [] => .error .emptyMessage
  | op :: _ =>
    match requestLength bs, requestInstr bs with
    | some n, some i => if bs.length = n then .ok i else .error (.wrongLength op)
    | _, _ => .error (.reservedOpcode op)

/-- The wire row of a command byte, with its operands (R85, R211); none for an unassigned command byte. -/
def wireInstr (cmd id opt : Byte) (params : List Byte) : Option Instr :=
  match cmd.toNat with
  | 0xA0 => some (.memRead id opt params)
  | 0xA1 => some (.memWrite id opt params)
  | 0xA2 => some (.load id opt params)
  | 0xA3 => some (.save id opt params)
  | 0xA4 => some (.motorRead id opt params)
  | 0xA5 => some (.motorWrite id opt params)
  | 0xBB => some (.systemRead id opt params)
  | 0xBC => some (.systemWrite id opt params)
  | 0xBD => some (.reboot id opt params)
  | 0xBE => some (.factoryReset id opt params)
  | 0xBF => some (.systemInit id opt params)
  | 0x20 => some (.memReadAck id opt params)
  | 0x21 => some (.memWriteAck id opt params)
  | 0x22 => some (.loadAck id opt params)
  | 0x23 => some (.saveAck id opt params)
  | 0x24 => some (.motorReadAck id opt params)
  | 0x25 => some (.motorWriteAck id opt params)
  | 0x3B => some (.systemReadAck id opt params)
  | 0x3C => some (.systemWriteAck id opt params)
  | 0x3D => some (.rebootAck id opt params)
  | 0x3E => some (.factoryResetAck id opt params)
  | _ => none

/-- The instruction of a whole wire frame (R70, R85, R90). -/
def decodeFrame (f : List Byte) : Except DecodeError Instr :=
  if f.length < Config.minFrame then .error .shortFrame
  else if Machine.syncOk f = false then .error .badSync
  else if Machine.declaredLength f ≠ f.length then .error .badLength
  else if Machine.trailerOk Machine.crcTable f = false then .error .badChecksum
  else match wireInstr (Machine.frameCmd f) (Machine.frameId f) (Machine.frameOpt f) (Machine.frameParams f) with
    | some i => .ok i
    | none => .error (.unassignedCommand (Machine.frameCmd f))

/-- The instruction of any bytes: a frame where they begin as one, else a host request. -/
def decode (bs : List Byte) : Except DecodeError Instr :=
  match bs with
  | b :: _ => if b = Config.sync then decodeFrame bs else decodeRequest bs
  | [] => decodeRequest bs

/-- The row that names what a request carries: a TX whose command byte the source assigns (R85) carries that wire
row's frame; every other instruction is its own row. -/
def Instr.carried : Instr → Instr
  | .tx id cmd opt params =>
    if frameParamsFit params then (wireInstr cmd id opt params).getD (.tx id cmd opt params)
    else .tx id cmd opt params
  | i => i

/-- The bytes of an instruction: a host request's message (R81), a wire row's whole frame (R70). -/
def encode : Instr → List Byte
  | .crc data => [0x01#8] ++ Machine.bytes16 (Machine.wordOf data.length) ++ data
  | .tx id cmd opt params => [0x02#8, id, cmd, opt, Machine.byteOf params.length] ++ params
  | .rx => [0x03#8]
  | .setBaud idx => [0x04#8, idx]
  | .setTmo t => [0x05#8] ++ Machine.bytes32 t
  | .getBaud => [0x06#8]
  | .getTmo => [0x07#8]
  | .getStat => [0x08#8]
  | .lockTry => [0x09#8]
  | .unlock => [0x0A#8]
  | .rxAvail => [0x0B#8]
  | .tblRd i => [0x0C#8, i]
  | .memRead id opt params => Machine.frameOf id 0xA0#8 opt params
  | .memWrite id opt params => Machine.frameOf id 0xA1#8 opt params
  | .load id opt params => Machine.frameOf id 0xA2#8 opt params
  | .save id opt params => Machine.frameOf id 0xA3#8 opt params
  | .motorRead id opt params => Machine.frameOf id 0xA4#8 opt params
  | .motorWrite id opt params => Machine.frameOf id 0xA5#8 opt params
  | .systemRead id opt params => Machine.frameOf id 0xBB#8 opt params
  | .systemWrite id opt params => Machine.frameOf id 0xBC#8 opt params
  | .reboot id opt params => Machine.frameOf id 0xBD#8 opt params
  | .factoryReset id opt params => Machine.frameOf id 0xBE#8 opt params
  | .systemInit id opt params => Machine.frameOf id 0xBF#8 opt params
  | .memReadAck id status params => Machine.frameOf id 0x20#8 status params
  | .memWriteAck id status params => Machine.frameOf id 0x21#8 status params
  | .loadAck id status params => Machine.frameOf id 0x22#8 status params
  | .saveAck id status params => Machine.frameOf id 0x23#8 status params
  | .motorReadAck id status params => Machine.frameOf id 0x24#8 status params
  | .motorWriteAck id status params => Machine.frameOf id 0x25#8 status params
  | .systemReadAck id status params => Machine.frameOf id 0x3B#8 status params
  | .systemWriteAck id status params => Machine.frameOf id 0x3C#8 status params
  | .rebootAck id status params => Machine.frameOf id 0x3D#8 status params
  | .factoryResetAck id status params => Machine.frameOf id 0x3E#8 status params

/-! ### Words of the opcode table -/

/-- The bytes of a table word, the first in bits 7 to 0. -/
def wordBytes (nbits w : Nat) : List Byte :=
  (List.range (nbits / 8)).map fun k => BitVec.ofNat 8 (w >>> (8 * k))

/-- Whether a byte is one of the table's wire codes (match byte 4 of a frame). -/
def isWireCode (c : Byte) : Bool := (wireInstr c 0#8 0#8 []).isSome

/-- A host request whose first bytes are given and whose other bytes, up to the length of R81, are zero. -/
def tableRequest (bs : List Byte) : List Byte :=
  bs ++ List.replicate ((requestLength bs).getD 0 - bs.length) 0#8

/-- A frame whose bytes from the command on are given: a table word of a wire row is byte 4 of a frame, the
bytes after it are option and params, the id is zero, and sync, length and checksum are what the layout of R70
makes them. Log 15. -/
def tableFrame (bs : List Byte) : List Byte :=
  Machine.frameOf 0#8 (Machine.byteAt bs 0) (Machine.byteAt bs 1) (bs.drop 2)

/-- The bytes a table word stands for: the frame for a wire code, else the host request. -/
def tableBytes (nbits w : Nat) : List Byte :=
  let bs := wordBytes nbits w
  if isWireCode (Machine.byteAt bs 0) then tableFrame bs else tableRequest bs

/-- The instruction the decoder reads from a table word. -/
def decodeTableWord (nbits w : Nat) : Option Instr := (decode (tableBytes nbits w)).toOption

end Sys2Proof
end

