-- ==== Sys2Proof/Machine/State.lean ====
section
/-! DEFINITION. The state of the machine (10_state.md), the reasons it can stop, and its reset (R260). -/

namespace Sys2Proof.Machine

/-- Why the machine stops with a fault. The spec has no trap and no fault (R231, R234). -/
inductive Fault where
  /-- Raised by `step` alone, when the engine that is to move has a wire to a line or lock the state does not
  hold. `ENGINE_LINE` and `LOCK_SCOPE` are functions onto existing lines and locks (R13), so no machine of the
  spec is in such a state. Safe: nothing can be proved of a step that stops. Log 18. -/
  | unwired
deriving DecidableEq, Repr

/-- Why the model gives an instruction no meaning. -/
inductive Refusal where
  /-- Raised by an arm of `exec` whose instruction has no meaning yet. Safe. No arm raises it. -/
  | notModelled (mnemonic : String)
deriving DecidableEq, Repr

/-- `PHASE` (R21). -/
inductive Phase where
  | idle
  | rxHdr
  | rxBody
deriving DecidableEq, Repr, Inhabited

/-- `TIMER` (R27). -/
inductive Timer where
  | stopped
  | running
  | expired
deriving DecidableEq, Repr, Inhabited

/-- The cause of a failure, a model-only annotation no host sees (R230). -/
inductive Cause where
  | validation
  | silence
  | framing
  | integrity
  | lockBusy
  | lockFree
  | illegalRequest
deriving DecidableEq, Repr

/-- The code R230 numbers a cause with. -/
def Cause.code : Cause → Nat
  | .validation => 1
  | .silence => 2
  | .framing => 3
  | .integrity => 4
  | .lockBusy => 5
  | .lockFree => 6
  | .illegalRequest => 7

/-- A request in `REQQ` or `CUR`: its message and the host that issued it (R26). -/
structure Request where
  host : Nat
  message : List Byte
deriving DecidableEq, Repr, Inhabited

/-- A response message (R80) with the engine that gave it, the host it goes to, and the cause of a failure. -/
structure Response where
  engine : Nat
  host : Nat
  message : List Byte
  cause : Option Cause
deriving DecidableEq, Repr

/-- `Sent(line, baud_idx, frame)` (R15, R30). -/
structure Sent where
  line : Nat
  baudIdx : BitVec 3
  frame : List Byte
deriving DecidableEq, Repr

/-- What each engine owns (R22 to R27). -/
structure Engine where
  /-- `TABLE` (R22). -/
  table : List Word16
  /-- `CFG_BAUD_IDX` (R23). -/
  cfgBaudIdx : Byte
  /-- `CFG_TIMEOUT` (R24). -/
  cfgTimeout : Word32
  /-- `LAST_STATUS` (R25). -/
  lastStatus : Byte
  /-- `REQQ`, oldest first (R26). -/
  reqq : List Request
  /-- `CUR` (R26). -/
  cur : Option Request
  /-- `PHASE` (R21). -/
  phase : Phase
  /-- `ACC` (R27). -/
  acc : List Byte
  /-- `WANT` (R27). -/
  want : Nat
  /-- `TIMER` (R27). -/
  timer : Timer
  /-- The `LINE_TIMEOUT` the current chunk read when it started (R142, R171, R238). Log 12. -/
  timerLoad : Word32
deriving DecidableEq, Repr, Inhabited

/-- What each line holds (R28 to R30). -/
structure Line where
  /-- `LINE_BAUD_IDX` (R28). -/
  baudIdx : BitVec 3
  /-- `LINE_TIMEOUT` (R28). -/
  timeout : Word32
  /-- `RXQ`, oldest first (R29). -/
  rxq : List Byte
  /-- `OUT`, oldest first (R30). -/
  out : List Sent
deriving DecidableEq, Repr, Inhabited

/-- The whole machine: every engine, line and lock of a platform, and the model's own fields. -/
structure State where
  /-- The open parameters (R13). -/
  platform : Platform
  engines : List Engine
  lines : List Line
  /-- `LOCK_HELD` of each lock (R31). -/
  locks : List Bool
  /-- The engine the step in progress is about. The model's own; log 20. -/
  active : Nat
  /-- The response messages given so far, oldest first (R19). The model's own history; log 11. -/
  responses : List Response
  /-- Events chosen for the coming steps, the next one first. The model's own; log 1. -/
  agenda : List Event
  /-- Steps taken. The model's own; log 1, log 2. -/
  tick : Nat
deriving DecidableEq, Repr

/-- Reset of one engine (R260): its number and the step count choose the unspecified `LAST_STATUS` (R25, U1). -/
def Engine.reset (p : Platform) (number tick : Nat) : Engine where
  table := crcTable
  cfgBaudIdx := p.resetBaudIdx.setWidth 8
  cfgTimeout := p.resetTimeoutUs
  lastStatus := Config.freeStatus number tick
  reqq := []
  cur := none
  phase := .idle
  acc := []
  want := 0
  timer := .stopped
  timerLoad := 0

/-- Reset of one line (R260). -/
def Line.reset (p : Platform) : Line where
  baudIdx := p.resetBaudIdx
  timeout := p.resetTimeoutUs
  rxq := []
  out := []

/-- A platform right after reset: every engine, line and lock at its reset value (R260, R264). -/
def State.resetOn (p : Platform) : State where
  platform := p
  engines := p.wiring.zipIdx.map fun w => Engine.reset p w.2 0
  lines := List.replicate p.nLines (Line.reset p)
  locks := List.replicate p.nLocks false
  active := 0
  responses := []
  agenda := []
  tick := 0

/-- The machine right after reset, on the platform the open parameters of R13 describe. -/
def State.reset : State := State.resetOn Config.platform

end Sys2Proof.Machine
end

