-- ==== Sys2Proof/Machine/Flags.lean ====
section
/-! DEFINITION. The result flag (R32): every response message begins with a result byte, and there is no other
flag. -/

namespace Sys2Proof.Machine

/-- The result byte of a request that succeeded (R32). -/
def resultOk : Byte := 0x01#8

/-- The result byte of a request that failed (R32). -/
def resultFail : Byte := 0x00#8

/-- The response of a request that succeeded, with its result bytes (R80). -/
def successMessage (payload : List Byte) : List Byte := resultOk :: payload

/-- The response of a request that failed: one byte (R80, R231). -/
def failureMessage : List Byte := [resultFail]

/-- The result of a frame operation: L and the frame (R81). -/
def framePayload (f : List Byte) : List Byte := byteOf f.length :: f

end Sys2Proof.Machine
end

