-- ==== Sys2Proof/Machine/Ops.lean ====
section
/-! DEFINITION. The named operations over the state: who is addressed, the primitives of R19, and the one way a
request fails (R231). The spec has no exception to take and none to return from (R234); `raiseFail` is its whole
failure mechanism. -/

namespace Sys2Proof.Machine

/-! ### Addressing -/

/-- The wires of engine `e` (R13). -/
def State.wiringOf (s : State) (e : Nat) : Wiring := s.platform.wiring.getD e default

/-- `ENGINE_LINE` (R13). -/
def State.lineOf (s : State) (e : Nat) : Nat := (s.wiringOf e).line

/-- `LOCK_SCOPE` (R13). -/
def State.lockOf (s : State) (e : Nat) : Nat := (s.wiringOf e).lock

/-- Engine `e`. -/
def State.engineAt (s : State) (e : Nat) : Engine := s.engines.getD e default

/-- Line `l`. -/
def State.lineAt (s : State) (l : Nat) : Line := s.lines.getD l default

/-- The engine the step is about. -/
def State.eng (s : State) : Engine := s.engineAt s.active

/-- The number of its line. -/
def State.lineIx (s : State) : Nat := s.lineOf s.active

/-- Its line. -/
def State.line (s : State) : Line := s.lineAt s.lineIx

/-- The number of its lock. -/
def State.lockIx (s : State) : Nat := s.lockOf s.active

/-- `LOCK_HELD` of its lock (R31). -/
def State.lockHeld (s : State) : Bool := s.locks.getD s.lockIx false

/-- Engine `e` exists, and so do its line and its lock (R13). -/
def State.wired (s : State) (e : Nat) : Bool :=
  decide (e < s.engines.length) && decide (s.lineOf e < s.lines.length) && decide (s.lockOf e < s.locks.length)

/-! ### Updates -/

/-- Change engine `e`. -/
def State.updEngineAt (s : State) (e : Nat) (f : Engine → Engine) : State :=
  { s with engines := s.engines.modify e f }

/-- Change line `l`. -/
def State.updLineAt (s : State) (l : Nat) (f : Line → Line) : State :=
  { s with lines := s.lines.modify l f }

/-- Change the engine the step is about. -/
def State.updEngine (s : State) (f : Engine → Engine) : State := s.updEngineAt s.active f

/-- Change its line. -/
def State.updLine (s : State) (f : Line → Line) : State := s.updLineAt s.lineIx f

/-- Write `LOCK_HELD` of its lock (R31). -/
def State.setLock (s : State) (held : Bool) : State := { s with locks := s.locks.set s.lockIx held }

/-- The step is about engine `e`. -/
def State.activate (s : State) (e : Nat) : State := { s with active := e }

/-! ### The primitives of R19 -/

/-- `RxAvail()` (R19). -/
def State.rxAvail (s : State) : Nat := s.line.rxq.length

/-- `RxFlush()` (R19, R122). -/
def State.rxFlush (s : State) : State := s.updLine fun l => { l with rxq := [] }

/-- `LineApply(b, t)` (R19, R121). -/
def State.lineApply (s : State) (b : BitVec 3) (t : Word32) : State :=
  s.updLine fun l => { l with baudIdx := b, timeout := t }

/-- `LineSend(b, f)` (R15, R19): one event in the line's output history. -/
def State.lineSend (s : State) (b : BitVec 3) (f : List Byte) : State :=
  s.updLine fun l => { l with out := l.out ++ [⟨s.lineIx, b, f⟩] }

/-- `Respond(s)` (R19, R179): the current request ends, and its host gets the message. With no current request
there is no host to answer. -/
def State.respond (s : State) (message : List Byte) (cause : Option Cause) : State :=
  match s.eng.cur with
  | some r =>
    { s.updEngine (fun e => { e with cur := none }) with
      responses := s.responses ++ [⟨s.active, r.host, message, cause⟩] }
  | none => s

/-- The current request ends with success and these result bytes (R32, R80). -/
def State.succeed (s : State) (payload : List Byte) : State := s.respond (successMessage payload) none

/-- `raise Fail(cause)` (R19, R231): the response `00` and nothing else. -/
def State.raiseFail (s : State) (cause : Cause) : State := s.respond failureMessage (some cause)

end Sys2Proof.Machine
end

