-- ==== Sys2Proof/Machine/Control.lean ====
section
/-! DEFINITION. The configuration, status, lock and queue requests (43_control.md sections 2 to 5). -/

namespace Sys2Proof.Machine

/-- SETBAUD (R170): engine and line copy at once; an index above 7 fails and writes nothing. -/
def execSetBaud (idx : Byte) (s : State) : Host.Outcome State Fault Refusal :=
  if idx.toNat ≤ 7 then
    .next (((s.updEngine fun e => { e with cfgBaudIdx := idx }).updLine
      fun l => { l with baudIdx := idx.setWidth 3 }).succeed [])
  else .next (s.raiseFail .validation)

/-- SETTMO (R171): engine and line copy at once. -/
def execSetTmo (t : Word32) (s : State) : Host.Outcome State Fault Refusal :=
  .next (((s.updEngine fun e => { e with cfgTimeout := t }).updLine
    fun l => { l with timeout := t }).succeed [])

/-- GETBAUD (R172): the engine's copy. -/
def execGetBaud (s : State) : Host.Outcome State Fault Refusal := .next (s.succeed [s.eng.cfgBaudIdx])

/-- GETTMO (R173): the engine's copy. -/
def execGetTmo (s : State) : Host.Outcome State Fault Refusal := .next (s.succeed (bytes32 s.eng.cfgTimeout))

/-- GETSTAT (R174). -/
def execGetStat (s : State) : Host.Outcome State Fault Refusal := .next (s.succeed [s.eng.lastStatus])

/-- LOCKTRY (R175): an atomic test-and-set of the engine's lock. -/
def execLockTry (s : State) : Host.Outcome State Fault Refusal :=
  if s.lockHeld then .next (s.raiseFail .lockBusy) else .next ((s.setLock true).succeed [])

/-- UNLOCK (R176): an atomic clear; a free lock fails. -/
def execUnlock (s : State) : Host.Outcome State Fault Refusal :=
  if s.lockHeld then .next ((s.setLock false).succeed []) else .next (s.raiseFail .lockFree)

/-- RXAVAIL (R177): the count, saturated at 0xFFFF (D35). -/
def execRxAvail (s : State) : Host.Outcome State Fault Refusal :=
  .next (s.succeed (bytes16 (wordOf (min s.rxAvail 0xFFFF))))

end Sys2Proof.Machine
end

