-- ==== Sys2Proof/Machine/Crc.lean ====
section
/-! DEFINITION. The requests of the CRC engine (40_crc.md section 3). -/

namespace Sys2Proof.Machine

/-- CRC (R104): the checksum of the host's bytes; no state written. -/
def execCrc (data : List Byte) (s : State) : Host.Outcome State Fault Refusal :=
  .next (s.succeed (bytes16 (checksumWith s.eng.table data)))

/-- TBLRD (R105): one table entry; no state written. -/
def execTblRd (i : Byte) (s : State) : Host.Outcome State Fault Refusal :=
  .next (s.succeed (bytes16 (tableAt s.eng.table i)))

end Sys2Proof.Machine
end

