-- ==== Sys2Proof/Machine/Framer.lean ====
section
/-! DEFINITION. The packet framer, transmit (41_framer_tx.md). -/

namespace Sys2Proof.Machine

/-- TX after its validation (R120): line settings, flush, frame, send, respond. The frame is sent at the line's
baud index, which is then the engine's (R121, R123). -/
def State.sendFrame (s : State) (id cmd opt : Byte) (params : List Byte) : State :=
  let f := frameWith s.eng.table id cmd opt params
  let s1 := (s.lineApply (s.eng.cfgBaudIdx.setWidth 3) s.eng.cfgTimeout).rxFlush
  (s1.lineSend s1.line.baudIdx f).succeed (framePayload f)

/-- The whole of TX (R120): a bad id, then too many params, fail and change nothing (R124, R235). -/
def State.transmit (s : State) (id cmd opt : Byte) (params : List Byte) : State :=
  if legalId id = false then s.raiseFail .validation
  else if params.length > Config.maxParams then s.raiseFail .validation
  else s.sendFrame id cmd opt params

/-- TX (R120). -/
def execTx (id cmd opt : Byte) (params : List Byte) (s : State) : Host.Outcome State Fault Refusal :=
  .next (s.transmit id cmd opt params)

end Sys2Proof.Machine
end

