-- ==== Sys2Proof/Machine/Receiver.lean ====
section
/-! DEFINITION. The timeout receiver with partial-frame accumulation (42_receiver_rx.md): the start of an RX, the
timed read, the accumulation loop and the verdict. The steps are those of R58; log 9 says where the control
between them stands. -/

namespace Sys2Proof.Machine

/-- The start of `ReadChunk(n)` (R141): `WANT <- n; TIMER <- RUNNING`, and the timer's time is read (R142). -/
def State.startChunk (s : State) (n : Nat) : State :=
  s.updEngine fun e => { e with want := n, timer := .running, timerLoad := s.line.timeout }

/-- RX (R140, R143): the header phase and its one chunk of 6 bytes begin. The RX completes in a later step
(R179). -/
def execRx (s : State) : Host.Outcome State Fault Refusal :=
  .next ((s.updEngine fun e => { e with phase := .rxHdr, acc := [] }).startChunk Config.hdrLen)

/-- `RxTake()` into the current chunk (R19, R141): one byte moves from the head of `RXQ` to `ACC`. -/
def State.rxTake (s : State) (b : Byte) (rest : List Byte) : State :=
  (s.updEngine fun e => { e with acc := e.acc ++ [b], want := e.want - 1 }).updLine fun l => { l with rxq := rest }

/-- What an engine step does for an RX. -/
inductive RxResult where
  /-- The step is done. -/
  | moved (s : State)
  /-- The reads are over and the frame is accepted; its fields are still to be carried to the host (R145). -/
  | accepted (id cmd opt : Byte) (params : List Byte) (s : State)

/-- The verdict on the bytes an RX has taken, in the order of R235 (R140, R145, R146). -/
def State.verdict (s : State) : RxResult :=
  let f := s.eng.acc
  if f.length < Config.hdrLen then .moved (s.raiseFail .silence)
  else if declaredLength f < Config.minFrame then .moved (s.raiseFail .framing)
  else if syncOk f = false then .moved (s.raiseFail .framing)
  else if f.length ≠ declaredLength f then .moved (s.raiseFail .silence)
  else if trailerOk s.eng.table f = false then .moved (s.raiseFail .integrity)
  else .accepted (frameId f) (frameCmd f) (frameOpt f) (frameParams f) s

/-- The reads are over: `PHASE <- IDLE` and the verdict (R140). -/
def State.rxFinish (s : State) : RxResult :=
  (s.updEngine fun e => { e with phase := .idle, timer := .stopped }).verdict

/-- What follows when a chunk has returned: after the header, the remainder if a whole header declares more than
6 bytes (R143, R144); in the remainder, another chunk while the frame is incomplete and bytes wait (R144). -/
def State.chunkDone (s : State) : RxResult :=
  match s.eng.phase with
  | .rxHdr =>
    if s.eng.acc.length = Config.hdrLen ∧ Config.hdrLen < declaredLength s.eng.acc then
      .moved ((s.updEngine fun e => { e with phase := .rxBody }).startChunk
        (declaredLength s.eng.acc - s.eng.acc.length))
    else s.rxFinish
  | .rxBody =>
    if s.eng.acc.length = declaredLength s.eng.acc ∨ s.rxAvail = 0 then s.rxFinish
    else .moved (s.startChunk (declaredLength s.eng.acc - s.eng.acc.length))
  | .idle => .moved s

/-- One engine step of an RX (R141): a complete or expired chunk returns; else a waiting byte is taken; else the
engine waits and takes no step. -/
def State.rxAdvance (s : State) : RxResult :=
  if s.eng.want = 0 then s.chunkDone
  else if s.eng.timer = .expired then s.chunkDone
  else match s.line.rxq with
    | b :: rest => .moved (s.rxTake b rest)
    | [] => .moved s

/-- Acceptance (R145): the status byte is cached and the whole frame is the response. -/
def State.acceptFrame (s : State) (id cmd opt : Byte) (params : List Byte) : State :=
  let f := frameWith s.eng.table id cmd opt params
  (s.updEngine fun e => { e with lastStatus := opt }).succeed (framePayload f)

end Sys2Proof.Machine
end

