-- ==== Sys2Proof/Machine/Wire.lean ====
section
/-! DEFINITION. The wire rows (44_wire_commands.md). The framer sends and receives every command byte like any
other (R74): a frame with the row's code is sent by the TX that carries it and accepted by the RX that has
received it. What a device does with it is in no source. Log 14. -/

namespace Sys2Proof.Machine

/-- The request being executed is an RX (R81, R82). -/
def Request.isRx (r : Request) : Bool := r.message == [0x03#8]

/-- The engine carries a frame: to the host if the request being executed is an RX, else to the line. -/
def State.carryFrame (s : State) (id cmd opt : Byte) (params : List Byte) : State :=
  if s.eng.cur.any Request.isRx then s.acceptFrame id cmd opt params else s.transmit id cmd opt params

/-- MemRead (R200). -/
def execMemRead (id opt : Byte) (params : List Byte) (s : State) : Host.Outcome State Fault Refusal :=
  .next (s.carryFrame id 0xA0#8 opt params)

/-- MemWrite (R201). -/
def execMemWrite (id opt : Byte) (params : List Byte) (s : State) : Host.Outcome State Fault Refusal :=
  .next (s.carryFrame id 0xA1#8 opt params)

/-- Load (R202). -/
def execLoad (id opt : Byte) (params : List Byte) (s : State) : Host.Outcome State Fault Refusal :=
  .next (s.carryFrame id 0xA2#8 opt params)

/-- Save (R203). -/
def execSave (id opt : Byte) (params : List Byte) (s : State) : Host.Outcome State Fault Refusal :=
  .next (s.carryFrame id 0xA3#8 opt params)

/-- MotorRead (R204). -/
def execMotorRead (id opt : Byte) (params : List Byte) (s : State) : Host.Outcome State Fault Refusal :=
  .next (s.carryFrame id 0xA4#8 opt params)

/-- MotorWrite (R205). -/
def execMotorWrite (id opt : Byte) (params : List Byte) (s : State) : Host.Outcome State Fault Refusal :=
  .next (s.carryFrame id 0xA5#8 opt params)

/-- SystemRead (R206). -/
def execSystemRead (id opt : Byte) (params : List Byte) (s : State) : Host.Outcome State Fault Refusal :=
  .next (s.carryFrame id 0xBB#8 opt params)

/-- SystemWrite (R207). -/
def execSystemWrite (id opt : Byte) (params : List Byte) (s : State) : Host.Outcome State Fault Refusal :=
  .next (s.carryFrame id 0xBC#8 opt params)

/-- Reboot (R208). -/
def execReboot (id opt : Byte) (params : List Byte) (s : State) : Host.Outcome State Fault Refusal :=
  .next (s.carryFrame id 0xBD#8 opt params)

/-- FactoryReset (R209). -/
def execFactoryReset (id opt : Byte) (params : List Byte) (s : State) : Host.Outcome State Fault Refusal :=
  .next (s.carryFrame id 0xBE#8 opt params)

/-- SystemInit (R210). -/
def execSystemInit (id opt : Byte) (params : List Byte) (s : State) : Host.Outcome State Fault Refusal :=
  .next (s.carryFrame id 0xBF#8 opt params)

/-- MemReadAck (R211, R212). -/
def execMemReadAck (id status : Byte) (params : List Byte) (s : State) : Host.Outcome State Fault Refusal :=
  .next (s.carryFrame id 0x20#8 status params)

/-- MemWriteAck (R211, R212). -/
def execMemWriteAck (id status : Byte) (params : List Byte) (s : State) : Host.Outcome State Fault Refusal :=
  .next (s.carryFrame id 0x21#8 status params)

/-- LoadAck (R211, R212). -/
def execLoadAck (id status : Byte) (params : List Byte) (s : State) : Host.Outcome State Fault Refusal :=
  .next (s.carryFrame id 0x22#8 status params)

/-- SaveAck (R211, R212). -/
def execSaveAck (id status : Byte) (params : List Byte) (s : State) : Host.Outcome State Fault Refusal :=
  .next (s.carryFrame id 0x23#8 status params)

/-- MotorReadAck (R211, R212). -/
def execMotorReadAck (id status : Byte) (params : List Byte) (s : State) : Host.Outcome State Fault Refusal :=
  .next (s.carryFrame id 0x24#8 status params)

/-- MotorWriteAck (R211, R212). -/
def execMotorWriteAck (id status : Byte) (params : List Byte) (s : State) : Host.Outcome State Fault Refusal :=
  .next (s.carryFrame id 0x25#8 status params)

/-- SystemReadAck (R211, R212). -/
def execSystemReadAck (id status : Byte) (params : List Byte) (s : State) : Host.Outcome State Fault Refusal :=
  .next (s.carryFrame id 0x3B#8 status params)

/-- SystemWriteAck (R211, R212). -/
def execSystemWriteAck (id status : Byte) (params : List Byte) (s : State) : Host.Outcome State Fault Refusal :=
  .next (s.carryFrame id 0x3C#8 status params)

/-- RebootAck (R211, R212). -/
def execRebootAck (id status : Byte) (params : List Byte) (s : State) : Host.Outcome State Fault Refusal :=
  .next (s.carryFrame id 0x3D#8 status params)

/-- FactoryResetAck (R211, R212). -/
def execFactoryResetAck (id status : Byte) (params : List Byte) (s : State) : Host.Outcome State Fault Refusal :=
  .next (s.carryFrame id 0x3E#8 status params)

end Sys2Proof.Machine
end

