-- ==== Sys2Proof/Machine/Dispatch.lean ====
section
/-! DEFINITION. One arm per instruction: the meaning it calls. -/

namespace Sys2Proof.Machine

def exec (i : Instr) (s : State) : Host.Outcome State Fault Refusal :=
  match i with
  | .crc data => Sys2Proof.Machine.execCrc data s
  | .tx id cmd opt params => Sys2Proof.Machine.execTx id cmd opt params s
  | .rx => Sys2Proof.Machine.execRx s
  | .setBaud idx => Sys2Proof.Machine.execSetBaud idx s
  | .setTmo t => Sys2Proof.Machine.execSetTmo t s
  | .getBaud => Sys2Proof.Machine.execGetBaud s
  | .getTmo => Sys2Proof.Machine.execGetTmo s
  | .getStat => Sys2Proof.Machine.execGetStat s
  | .lockTry => Sys2Proof.Machine.execLockTry s
  | .unlock => Sys2Proof.Machine.execUnlock s
  | .rxAvail => Sys2Proof.Machine.execRxAvail s
  | .tblRd idx => Sys2Proof.Machine.execTblRd idx s
  | .memRead id opt params => Sys2Proof.Machine.execMemRead id opt params s
  | .memWrite id opt params => Sys2Proof.Machine.execMemWrite id opt params s
  | .load id opt params => Sys2Proof.Machine.execLoad id opt params s
  | .save id opt params => Sys2Proof.Machine.execSave id opt params s
  | .motorRead id opt params => Sys2Proof.Machine.execMotorRead id opt params s
  | .motorWrite id opt params => Sys2Proof.Machine.execMotorWrite id opt params s
  | .systemRead id opt params => Sys2Proof.Machine.execSystemRead id opt params s
  | .systemWrite id opt params => Sys2Proof.Machine.execSystemWrite id opt params s
  | .reboot id opt params => Sys2Proof.Machine.execReboot id opt params s
  | .factoryReset id opt params => Sys2Proof.Machine.execFactoryReset id opt params s
  | .systemInit id opt params => Sys2Proof.Machine.execSystemInit id opt params s
  | .memReadAck id status params => Sys2Proof.Machine.execMemReadAck id status params s
  | .memWriteAck id status params => Sys2Proof.Machine.execMemWriteAck id status params s
  | .loadAck id status params => Sys2Proof.Machine.execLoadAck id status params s
  | .saveAck id status params => Sys2Proof.Machine.execSaveAck id status params s
  | .motorReadAck id status params => Sys2Proof.Machine.execMotorReadAck id status params s
  | .motorWriteAck id status params => Sys2Proof.Machine.execMotorWriteAck id status params s
  | .systemReadAck id status params => Sys2Proof.Machine.execSystemReadAck id status params s
  | .systemWriteAck id status params => Sys2Proof.Machine.execSystemWriteAck id status params s
  | .rebootAck id status params => Sys2Proof.Machine.execRebootAck id status params s
  | .factoryResetAck id status params => Sys2Proof.Machine.execFactoryResetAck id status params s

end Sys2Proof.Machine
end

