-- ==== Sys2Proof/Machine/Engine.lean ====
section
/-! DEFINITION. The step of each agent (R8, R58): a host's delivery, an arriving byte, a timer's expiry, an
engine's reset, and the engine's own step (R179), with the fetch of the instruction it runs. An event that is not
enabled changes nothing (log 10). -/

namespace Sys2Proof.Machine

/-! ### The agents other than the engine -/

/-- A host's request enters the engine's queue (R14, R26, R179). -/
def State.deliver (s : State) (e host : Nat) (message : List Byte) : State :=
  if e < s.engines.length ∧ host < s.platform.nHosts then
    s.updEngineAt e fun x => { x with reqq := x.reqq ++ [⟨host, message⟩] }
  else s

/-- A byte arrives; it is lost when `RXQ` holds `RXQ_DEPTH` bytes (R16, U9). -/
def State.arrive (s : State) (l : Nat) (b : Byte) : State :=
  if l < s.lines.length ∧ (s.lineAt l).rxq.length < s.platform.rxqDepth then
    s.updLineAt l fun x => { x with rxq := x.rxq ++ [b] }
  else s

/-- `Expire` is enabled while the timer runs, the chunk is incomplete and `RXQ` is empty (R141). -/
def State.expireEnabled (s : State) (e : Nat) : Bool :=
  (s.engineAt e).timer == .running && (s.engineAt e).want != 0 && (s.lineAt (s.lineOf e)).rxq.isEmpty

/-- `Expire` (R141). -/
def State.expire (s : State) (e : Nat) : State :=
  if s.expireEnabled e then s.updEngineAt e fun x => { x with timer := .expired } else s

/-- A later reset of one engine leaves its line, its `RXQ` and its lock (R260, R264). -/
def State.resetEngine (s : State) (e : Nat) : State :=
  s.updEngineAt e fun _ => Engine.reset s.platform e s.tick

/-! ### The engine -/

/-- The oldest request becomes `CUR` and is executed by the rule its opcode names; a reserved or malformed one
is answered `00` and changes nothing (R178, R179). -/
def State.dispatch (s : State) (r : Request) (rest : List Request) : Host.Outcome State Fault Refusal :=
  let s1 := s.updEngine fun e => { e with reqq := rest, cur := some r }
  match decodeRequest r.message with
  | .ok i => exec i.carried s1
  | .error _ => .next (s1.raiseFail .illegalRequest)

/-- The end of an RX's step: an accepted frame is the wire row its command byte names (R85), or, where the
source assigns the byte to nothing, a frame accepted like any other (R74, R148). -/
def RxResult.conclude : RxResult → Host.Outcome State Fault Refusal
  | .moved s => .next s
  | .accepted id cmd opt params s =>
    match wireInstr cmd id opt params with
    | some i => exec i s
    | none => .next (s.acceptFrame id cmd opt params)

/-- The step of the engine the state is about (R179): idle, it starts the oldest request, if any; in an RX, it
goes on with it. -/
def State.engineMove (s : State) : Host.Outcome State Fault Refusal :=
  match s.eng.phase with
  | .idle =>
    match s.eng.cur, s.eng.reqq with
    | none, r :: rest => s.dispatch r rest
    | _, _ => .next s
  | .rxHdr => s.rxAdvance.conclude
  | .rxBody => s.rxAdvance.conclude

/-- The step of engine `e`. -/
def State.engineStep (s : State) (e : Nat) : Host.Outcome State Fault Refusal :=
  if e < s.engines.length then
    if s.wired e then (s.activate e).engineMove else .fault .unwired
  else .next s

/-! ### What happens next -/

/-- The event of the coming step: the next one chosen, or else that of the fair schedule (R142; log 1, log 22). -/
def State.nextEvent (s : State) : Event :=
  match s.agenda with
  | ev :: _ => ev
  | [] => Config.schedule.event s.tick

/-- The state in which that event happens. -/
def State.elapse (s : State) : State := { s with agenda := s.agenda.tail, tick := s.tick + 1 }

/-- One event happens. -/
def State.perform (s : State) (ev : Event) : Host.Outcome State Fault Refusal :=
  match ev with
  | .deliver e host message => .next (s.deliver e host message)
  | .arrive l b => .next (s.arrive l b)
  | .expire e => .next (s.expire e)
  | .engine e => s.engineStep e
  | .resetEngine e => .next (s.resetEngine e)

/-! ### Placing an instruction -/

/-- The engine the state is about moves next and its oldest request is this message, from host 0. -/
def State.placeRequest (s : State) (message : List Byte) : State :=
  { s.updEngine (fun e => { e with reqq := ⟨0, message⟩ :: e.reqq, cur := none, phase := .idle }) with
    agenda := .engine s.active :: s.agenda }

/-- The engine the state is about moves next and has an RX of host 0 whose reads have just filled `ACC` with
this frame. -/
def State.placeFrame (s : State) (f : List Byte) : State :=
  { s.updEngine (fun e => { e with cur := some ⟨0, [0x03#8]⟩, phase := .rxBody, acc := f, want := 0, timer := .running }) with
    agenda := .engine s.active :: s.agenda }

/-- Place the bytes of a table word where the next step finds the instruction (log 15): an acknowledgement frame
(a code below 0x80, R212) in the receiver, a wire request frame in the TX that carries it, a host request in the
queue. -/
def State.placeWord (s : State) (nbits w : Nat) : State :=
  let bs := wordBytes nbits w
  let c := byteAt bs 0
  if isWireCode c then
    if c.toNat < 0x80 then s.placeFrame (tableFrame bs)
    else s.placeRequest (encode (.tx 0#8 c (byteAt bs 1) (bs.drop 2)))
  else s.placeRequest (tableRequest bs)

end Sys2Proof.Machine
end

