-- ==== Sys2Proof/Machine/Step.lean ====
section
/-! DEFINITION. One step of the machine: the next event happens (R62). -/

namespace Sys2Proof.Machine

/-- One atomic step of one agent (R58, R62). -/
def step (s : State) : Host.Outcome State Fault Refusal := s.elapse.perform s.nextEvent

/-- The state with an instruction of the opcode table placed for the very next step (log 15). -/
def State.withFetchWord (s : State) (nbits w : Nat) : State := s.placeWord nbits w

end Sys2Proof.Machine
end

