-- ==== Sys2Proof/Machine/Command.lean ====
section
/-! DEFINITION. The contract a host keeps when it builds the operands of a TX and reads the result of an RX
(44_wire_commands.md). It is no behaviour of the engine, which checks none of it (R125, R148); log 21. -/

namespace Sys2Proof.Machine

/-- The request codes the source lists (R85, R200 to R210). -/
inductive WireCommand where
  | memRead
  | memWrite
  | load
  | save
  | motorRead
  | motorWrite
  | systemRead
  | systemWrite
  | reboot
  | factoryReset
  | systemInit
deriving DecidableEq, Repr

/-- The command byte (R85). -/
def WireCommand.code : WireCommand → Byte
  | .memRead => 0xA0#8
  | .memWrite => 0xA1#8
  | .load => 0xA2#8
  | .save => 0xA3#8
  | .motorRead => 0xA4#8
  | .motorWrite => 0xA5#8
  | .systemRead => 0xBB#8
  | .systemWrite => 0xBC#8
  | .reboot => 0xBD#8
  | .factoryReset => 0xBE#8
  | .systemInit => 0xBF#8

/-- The acknowledgement code the source lists; SystemInit has none (R210, R211, N9). -/
def WireCommand.ack : WireCommand → Option Byte
  | .memRead => some 0x20#8
  | .memWrite => some 0x21#8
  | .load => some 0x22#8
  | .save => some 0x23#8
  | .motorRead => some 0x24#8
  | .motorWrite => some 0x25#8
  | .systemRead => some 0x3B#8
  | .systemWrite => some 0x3C#8
  | .reboot => some 0x3D#8
  | .factoryReset => some 0x3E#8
  | .systemInit => none

/-- What the source says of sending a command to the broadcast id. -/
inductive BroadcastPolicy where
  /-- Sent, and success is reported without a response (R201 to R205). -/
  | succeeds
  /-- Fails without transmitting (R208, R209). -/
  | forbidden
  /-- The source does not say (R200, R206, R207, R210, N24). -/
  | unsaid
deriving DecidableEq, Repr

/-- Broadcast handling by command (R200 to R210). SystemWrite's id operand is 0 to 239 (R207). -/
def WireCommand.broadcast : WireCommand → BroadcastPolicy
  | .memRead => .unsaid
  | .memWrite => .succeeds
  | .load => .succeeds
  | .save => .succeeds
  | .motorRead => .succeeds
  | .motorWrite => .succeeds
  | .systemRead => .unsaid
  | .systemWrite => .forbidden
  | .reboot => .forbidden
  | .factoryReset => .forbidden
  | .systemInit => .unsaid

/-- The highest address of a device's memory (R200). -/
def deviceAddrMax : Nat := 0x4FF

/-- MemRead's arguments are in range (R200, E3). -/
def memReadArgsOk (addr length : Nat) : Bool :=
  decide (addr ≤ deviceAddrMax) && decide (1 ≤ length) && decide (length ≤ 247)

/-- MemWrite's address is in range (R201). -/
def memWriteArgsOk (addr : Nat) : Bool := decide (addr ≤ deviceAddrMax)

/-- MemWrite's params: the address as 2 bytes little-endian, then the data (R201). -/
def memWriteParams (addr : Word16) (data : List Byte) : List Byte := bytes16 addr ++ data

/-- SystemWrite's operands are in range (R207, E4). -/
def systemWriteArgsOk (id baud parity delay : Nat) : Bool :=
  decide (id ≤ Config.idMax) && decide (baud ≤ 7) && decide (parity ≤ 2) && decide (1 ≤ delay) && decide (delay ≤ 255)

/-- The host takes a response as success (R213): the id is the target's, the command byte is the ack code, and no
status bit is set. The source gives SystemInit no ack code, so no response to it counts. -/
def responseAnswers (target : Byte) (c : WireCommand) (f : List Byte) : Bool :=
  frameId f == target && c.ack == some (frameCmd f) && frameOpt f == 0#8

/-- A typed read of 8, 16 or 32 bits: a little-endian field, sign-extended to 32 bits when the caller asks for a
signed value (R200). -/
def typedRead (signed : Bool) : List Byte → Option Word32
  | [b0] => some (if signed then sext32 b0 else zext32 b0)
  | [b0, b1] => some (if signed then sext32 (le16 b0 b1) else zext32 (le16 b0 b1))
  | [b0, b1, b2, b3] => some (le32 b0 b1 b2 b3)
  | _ => none

end Sys2Proof.Machine
end

