-- ==== Sys2Proof/Safety.lean ====
section
/-! DEFINITION. The words the claims are stated in: a request being executed, how a request ends and what it
leaves alone, when the reads of an RX are over, and the invariants a good state has. -/

namespace Sys2Proof

/-- The operands of a wire row: its command byte, id, option or status byte, and params (R70). -/
structure WireFields where
  cmd : Byte
  id : Byte
  opt : Byte
  params : List Byte
deriving DecidableEq, Repr

/-- The request a wire row names (R85) with the given operands. -/
def requestRow (c : Machine.WireCommand) (id opt : Byte) (params : List Byte) : Instr :=
  match c with
  | .memRead => .memRead id opt params
  | .memWrite => .memWrite id opt params
  | .load => .load id opt params
  | .save => .save id opt params
  | .motorRead => .motorRead id opt params
  | .motorWrite => .motorWrite id opt params
  | .systemRead => .systemRead id opt params
  | .systemWrite => .systemWrite id opt params
  | .reboot => .reboot id opt params
  | .factoryReset => .factoryReset id opt params
  | .systemInit => .systemInit id opt params

/-- The acknowledgement row of a command (R211) with the given operands; none for SystemInit (R210). -/
def ackRow (c : Machine.WireCommand) (id status : Byte) (params : List Byte) : Option Instr :=
  match c with
  | .memRead => some (.memReadAck id status params)
  | .memWrite => some (.memWriteAck id status params)
  | .load => some (.loadAck id status params)
  | .save => some (.saveAck id status params)
  | .motorRead => some (.motorReadAck id status params)
  | .motorWrite => some (.motorWriteAck id status params)
  | .systemRead => some (.systemReadAck id status params)
  | .systemWrite => some (.systemWriteAck id status params)
  | .reboot => some (.rebootAck id status params)
  | .factoryReset => some (.factoryResetAck id status params)
  | .systemInit => none

/-- What a wire row holds (R70, R85, R211); none for a host request. -/
def Instr.wireFields : Instr → Option WireFields
  | .crc _ => none
  | .tx _ _ _ _ => none
  | .rx => none
  | .setBaud _ => none
  | .setTmo _ => none
  | .getBaud => none
  | .getTmo => none
  | .getStat => none
  | .lockTry => none
  | .unlock => none
  | .rxAvail => none
  | .tblRd _ => none
  | .memRead id opt params => some ⟨0xA0#8, id, opt, params⟩
  | .memWrite id opt params => some ⟨0xA1#8, id, opt, params⟩
  | .load id opt params => some ⟨0xA2#8, id, opt, params⟩
  | .save id opt params => some ⟨0xA3#8, id, opt, params⟩
  | .motorRead id opt params => some ⟨0xA4#8, id, opt, params⟩
  | .motorWrite id opt params => some ⟨0xA5#8, id, opt, params⟩
  | .systemRead id opt params => some ⟨0xBB#8, id, opt, params⟩
  | .systemWrite id opt params => some ⟨0xBC#8, id, opt, params⟩
  | .reboot id opt params => some ⟨0xBD#8, id, opt, params⟩
  | .factoryReset id opt params => some ⟨0xBE#8, id, opt, params⟩
  | .systemInit id opt params => some ⟨0xBF#8, id, opt, params⟩
  | .memReadAck id status params => some ⟨0x20#8, id, status, params⟩
  | .memWriteAck id status params => some ⟨0x21#8, id, status, params⟩
  | .loadAck id status params => some ⟨0x22#8, id, status, params⟩
  | .saveAck id status params => some ⟨0x23#8, id, status, params⟩
  | .motorReadAck id status params => some ⟨0x24#8, id, status, params⟩
  | .motorWriteAck id status params => some ⟨0x25#8, id, status, params⟩
  | .systemReadAck id status params => some ⟨0x3B#8, id, status, params⟩
  | .systemWriteAck id status params => some ⟨0x3C#8, id, status, params⟩
  | .rebootAck id status params => some ⟨0x3D#8, id, status, params⟩
  | .factoryResetAck id status params => some ⟨0x3E#8, id, status, params⟩

namespace Machine

/-! ### Requests and what they leave alone -/

/-- The state's engine exists with its line and lock, and executes request `r` (R26, R179). -/
def State.executing (s : State) (r : Request) : Prop := s.wired s.active = true ∧ s.eng.cur = some r

/-- Everything but the state's engine, its line, its lock and the responses is as before. -/
structure State.SameElsewhere (s t : State) : Prop where
  platform : t.platform = s.platform
  active : t.active = s.active
  agenda : t.agenda = s.agenda
  tick : t.tick = s.tick
  engines : ∀ e : Nat, e ≠ s.active → t.engines[e]? = s.engines[e]?
  lines : ∀ l : Nat, l ≠ s.lineIx → t.lines[l]? = s.lines[l]?
  locks : ∀ k : Nat, k ≠ s.lockIx → t.locks[k]? = s.locks[k]?

/-- Request `r` of `s` has ended in `t` with this message (R19, R179): the state's engine is now `e` with no
current request, its line `l`, its lock `held`; there is one response more; and all else is as before. -/
structure State.Ends (s t : State) (r : Request) (message : List Byte) (cause : Option Cause) (e : Engine) (l : Line)
    (held : Bool) : Prop where
  elsewhere : s.SameElsewhere t
  engine : t.eng = { e with cur := none }
  line : t.line = l
  lock : t.lockHeld = held
  response : t.responses = s.responses ++ [⟨s.active, r.host, message, cause⟩]

/-- The request ended with success and these result bytes, and wrote no state (R32). -/
def State.Answers (s t : State) (r : Request) (payload : List Byte) : Prop :=
  s.Ends t r (successMessage payload) none s.eng s.line s.lockHeld

/-- The request failed with `00` and wrote no state (R231, R232). -/
def State.Fails (s t : State) (r : Request) (cause : Cause) : Prop :=
  s.Ends t r failureMessage (some cause) s.eng s.line s.lockHeld

/-- Engine `e` is the next to step, is idle, executes nothing, and `r` is its oldest request (R179). -/
structure State.AboutToStart (s : State) (e : Nat) (r : Request) (rest : List Request) : Prop where
  event : s.nextEvent = .engine e
  wired : s.wired e = true
  phase : (s.engineAt e).phase = .idle
  cur : (s.engineAt e).cur = none
  reqq : (s.engineAt e).reqq = r :: rest

/-- The state in which that request has become `CUR` (R179). -/
def State.begun (s : State) (e : Nat) (r : Request) (rest : List Request) : State :=
  (s.elapse.activate e).updEngine fun x => { x with reqq := rest, cur := some r }

/-- Request `r` has sent the frame of these fields (R120 to R123): the line has the engine's settings, an empty
`RXQ` and one `Sent` event more, and the frame is the response. -/
def State.Sends (s t : State) (r : Request) (id cmd opt : Byte) (params : List Byte) : Prop :=
  s.Ends t r (0x01#8 :: byteOf (8 + params.length) :: frameOf id cmd opt params) none s.eng
    { baudIdx := s.eng.cfgBaudIdx.extractLsb' 0 3
      timeout := s.eng.cfgTimeout
      rxq := []
      out := s.line.out ++ [⟨s.lineIx, s.eng.cfgBaudIdx.extractLsb' 0 3, frameOf id cmd opt params⟩] }
    s.lockHeld

/-- Request `r` has accepted the frame of these fields (R145): its status byte is cached, and the frame is the
response. -/
def State.Accepts (s t : State) (r : Request) (id cmd opt : Byte) (params : List Byte) : Prop :=
  s.Ends t r (0x01#8 :: byteOf (8 + params.length) :: frameOf id cmd opt params) none
    { s.eng with lastStatus := opt } s.line s.lockHeld

/-! ### The receiver -/

/-- Engine `e` is the next to step and is in an RX for request `r` (R140, R179). -/
structure State.AboutToReceive (s : State) (e : Nat) (r : Request) : Prop where
  event : s.nextEvent = .engine e
  wired : s.wired e = true
  phase : (s.engineAt e).phase ≠ .idle
  cur : (s.engineAt e).cur = some r
  isRx : r.isRx = true

/-- Why an RX whose reads are over rejects these bytes, in the order of R235. -/
def rejectCause (f : List Byte) : Cause :=
  if f.length < 6 then .silence
  else if declaredLength f < 8 then .framing
  else if byteAt f 0 ≠ 0xFE#8 ∨ byteAt f 1 ≠ 0xFE#8 then .framing
  else if f.length ≠ declaredLength f then .silence
  else .integrity

/-- The engine's chunk has returned: it is complete or its timer has expired (R141). -/
def Engine.chunkReturned (e : Engine) : Bool := e.want == 0 || e.timer == .expired

/-- The reads of the RX in progress are over (R143, R144): its chunk has returned, and it was the header and no
remainder is due, or the remainder and the frame is complete or nothing waits. -/
def State.readsOver (s : State) : Bool :=
  s.eng.chunkReturned &&
    match s.eng.phase with
    | .idle => false
    | .rxHdr => s.eng.acc.length != Config.hdrLen || decide (declaredLength s.eng.acc ≤ Config.hdrLen)
    | .rxBody => s.eng.acc.length == declaredLength s.eng.acc || s.rxAvail == 0

/-- Byte `k` of a sequence with bit `j` flipped. -/
def flipBit (s : List Byte) (k j : Nat) : List Byte := s.modify k fun b => b ^^^ (0x01#8 <<< j)

/-! ### Invariants -/

/-- Every engine has existing wires, and the parameters keep the bounds of R13. -/
structure State.Wired (s : State) : Prop where
  engines : s.engines.length = s.platform.wiring.length
  wired : ∀ e : Nat, e < s.engines.length → s.wired e = true
  depth : 255 ≤ s.platform.rxqDepth
  hosts : 1 ≤ s.platform.nHosts

/-- Every engine's `TABLE` holds the contents of R100 (R22). -/
def State.TablesIntact (s : State) : Prop := ∀ e ∈ s.engines, e.table = crcTable

/-- Bits 7 to 3 of every `CFG_BAUD_IDX` read 0 (R23). -/
def State.BaudReserved (s : State) : Prop := ∀ e ∈ s.engines, e.cfgBaudIdx.extractLsb' 3 5 = 0#5

/-- No `RXQ` holds more than `RXQ_DEPTH` bytes (R29). -/
def State.QueuesBounded (s : State) : Prop := ∀ l ∈ s.lines, l.rxq.length ≤ s.platform.rxqDepth

/-- `PHASE`, `CUR`, `TIMER`, `ACC` and `WANT` fit each other (R21, R26, R27, R141, R143, R144, R179): an idle
engine executes nothing and its timer is stopped; otherwise it executes an RX, its timer is not stopped, and what
it has taken and still wants make up the header, or, after a whole header that declares more, the frame. -/
def Engine.ReceiverFits (e : Engine) : Prop :=
  match e.phase with
  | .idle => e.cur = none ∧ e.timer = .stopped
  | .rxHdr => (∃ r, e.cur = some r ∧ r.isRx = true) ∧ e.timer ≠ .stopped ∧ e.acc.length + e.want = Config.hdrLen
  | .rxBody =>
    (∃ r, e.cur = some r ∧ r.isRx = true) ∧ e.timer ≠ .stopped ∧ Config.hdrLen ≤ e.acc.length ∧
      Config.hdrLen < declaredLength e.acc ∧ e.acc.length + e.want = declaredLength e.acc

/-- Every engine's receiver state fits. -/
def State.ReceiversFit (s : State) : Prop := ∀ e ∈ s.engines, e.ReceiverFits

/-- Every frame ever sent is well formed, goes to a legal id and names its line (R72, R90, R128). -/
def State.SentWellFormed (s : State) : Prop :=
  ∀ (n : Nat) (l : Line), s.lines[n]? = some l →
    ∀ x ∈ l.out, x.line = n ∧ frameWellFormed x.frame = true ∧ legalId (frameId x.frame) = true

/-- A response begins with 01 and has no cause, or is the one byte 00 and has one (R32, R231). -/
def Response.WellFormed (r : Response) : Prop :=
  (∃ payload, r.message = successMessage payload ∧ r.cause = none) ∨
    (r.message = failureMessage ∧ r.cause.isSome = true)

/-- Every response ever given is of that form. -/
def State.ResponsesWellFormed (s : State) : Prop := ∀ r ∈ s.responses, r.WellFormed

end Machine
end Sys2Proof
end

