-- ==== Sys2Proof/Certificates/Slice0/Obligations.lean ====
section
/-! DEFINITION. The statements for the provers. A statement about one request holds in every state whose engine
executes it: `executing` asks for nothing but existing wires and the request in `CUR`. That a state's agenda says
which agent steps next, and that responses and their causes are kept, are the model's choices (logs 1 and 11). -/

open Sys2Proof Sys2Proof.Machine

/-! ### Encodings -/

/-- Requests and frames written out by hand from R81 and R70 decode to the instructions they stand for. -/
def Obligations.WordsWrittenOutDecode : Prop :=
  decode [0x01#8, 0x03#8, 0x00#8, 0x50#8, 0x4D#8, 0x58#8] = .ok (.crc [0x50#8, 0x4D#8, 0x58#8]) ∧
  decode [0x02#8, 0x01#8, 0xA1#8, 0x01#8, 0x03#8, 0xF5#8, 0x01#8, 0x01#8]
    = .ok (.tx 0x01#8 0xA1#8 0x01#8 [0xF5#8, 0x01#8, 0x01#8]) ∧
  decode [0x03#8] = .ok .rx ∧
  decode [0x05#8, 0x50#8, 0xC3#8, 0x00#8, 0x00#8] = .ok (.setTmo 50000#32) ∧
  decode [0x0C#8, 0xFE#8] = .ok (.tblRd 0xFE#8) ∧
  decode [0xFE#8, 0xFE#8, 0x01#8, 0x0B#8, 0xA1#8, 0x01#8, 0xF5#8, 0x01#8, 0x01#8, 0x72#8, 0x12#8]
    = .ok (.memWrite 0x01#8 0x01#8 [0xF5#8, 0x01#8, 0x01#8]) ∧
  decode [0xFE#8, 0xFE#8, 0x01#8, 0x08#8, 0x21#8, 0x04#8, 0xA7#8, 0x4B#8] = .ok (.memWriteAck 0x01#8 0x04#8 [])

/-- Decoding the bytes of a well-formed instruction gives it back: every host request, and every wire row's
frame with its length and checksum. -/
def Obligations.DecodeOfEncodeIsIdentity : Prop :=
  ∀ i : Instr, i.wellFormed = true → decode (encode i) = .ok i

/-- A request message the decoder takes is exactly the encoding of the instruction: no bit of it is dropped, and
no other length is taken. -/
def Obligations.DecodedRequestIsItsEncoding : Prop :=
  ∀ (m : List Byte) (i : Instr), decodeRequest m = .ok i → i.wellFormed = true ∧ encode i = m

/-- A frame the decoder takes is exactly the frame of the instruction. -/
def Obligations.DecodedFrameIsItsEncoding : Prop :=
  ∀ (f : List Byte) (i : Instr), decodeFrame f = .ok i → i.wellFormed = true ∧ encode i = f

/-! ### The step -/

/-- The engine's step runs the request its oldest message decodes to, in the state in which that message is
`CUR`. (The step runs the wire row a TX carries where there is one, which is the same: log 14.) -/
def Obligations.StepRunsDecodedRequest : Prop :=
  ∀ (s : State) (e : Nat) (r : Request) (rest : List Request) (i : Instr), s.AboutToStart e r rest →
    decodeRequest r.message = .ok i → step s = exec i (s.begun e r rest)

/-- When the reads of an RX are over, the engine's step runs the wire row its bytes decode to, in the state in
which the receiver is idle again. That the verdict falls in the step that ends the last chunk, and that an accepted
frame is its wire row, are the model's (logs 9 and 14). -/
def Obligations.StepRunsDecodedFrame : Prop :=
  ∀ (s : State) (e : Nat) (r : Request) (i : Instr), s.AboutToReceive e r → (s.elapse.activate e).readsOver = true →
    (s.engineAt e).table = crcTable → decodeFrame (s.engineAt e).acc = .ok i →
    step s = exec i ((s.elapse.activate e).updEngine fun x => { x with phase := .idle, timer := .stopped })

/-- A reserved opcode or a wrong length is answered `00` and changes nothing but that the request is gone. That an
empty message is answered so too, and that such requests are answered where a model may refuse them, is the model's
(log 16). -/
def Obligations.IllegalRequestAnswersZero : Prop :=
  (∀ (op : Byte) (rest : List Byte), op.toNat = 0 ∨ 13 ≤ op.toNat → requestLength (op :: rest) = none) ∧
  ∀ (s : State) (e : Nat) (r : Request) (rest : List Request), s.AboutToStart e r rest →
    requestLength r.message ≠ some r.message.length →
    ∃ t, step s = .next t ∧ (s.begun e r rest).Fails t r .illegalRequest

/-- Every request but RX completes in the step that starts it: one well-formed response to its host, the engine
idle with no current request, and the rest of its queue as it was. -/
def Obligations.OtherRequestsCompleteAtOnce : Prop :=
  ∀ (s : State) (e : Nat) (r : Request) (rest : List Request), s.AboutToStart e r rest → r.message ≠ [0x03#8] →
    ∃ t m c, step s = .next t ∧ t.responses = s.responses ++ [⟨e, r.host, m, c⟩] ∧
      Response.WellFormed ⟨e, r.host, m, c⟩ ∧ (t.engineAt e).phase = .idle ∧ (t.engineAt e).cur = none ∧
      (t.engineAt e).reqq = rest

/-- An engine that is idle and has no request waiting takes no step. That its turn then passes is the model's
choice (log 10). -/
def Obligations.IdleEngineTakesNoStep : Prop :=
  ∀ (s : State) (e : Nat), s.nextEvent = .engine e → s.wired e = true → (s.engineAt e).phase = .idle →
    (s.engineAt e).reqq = [] → step s = .next (s.elapse.activate e)

/-! ### The CRC engine -/

/-- Entry i of `TABLE` is byte i in the top 8 bits after 8 rounds of shift and conditional XOR; the five spot
checks of R101 hold. -/
def Obligations.TableEntriesFollowTheConstruction : Prop :=
  crcTable.length = 256 ∧
  (∀ i : Byte, tableAt crcTable i =
    (fun c : Word16 => if c.getLsbD 15 then (c <<< 1) ^^^ 0x1021#16 else c <<< 1)^[8] (i.setWidth 16 <<< 8)) ∧
  tableAt crcTable 0x00#8 = 0x0000#16 ∧ tableAt crcTable 0x01#8 = 0x1021#16 ∧ tableAt crcTable 0x80#8 = 0x9188#16 ∧
  tableAt crcTable 0xFE#8 = 0x0ED1#16 ∧ tableAt crcTable 0xFF#8 = 0x1EF0#16

/-- The table-driven checksum is the bit-serial one, and has the check value 0x31C3 over "123456789". -/
def Obligations.ChecksumEqualsBitSerial : Prop :=
  (∀ s : List Byte, checksum s = bitwiseChecksum s) ∧
  checksum [0x31#8, 0x32#8, 0x33#8, 0x34#8, 0x35#8, 0x36#8, 0x37#8, 0x38#8, 0x39#8] = 0x31C3#16

/-- The checksum is linear over GF(2) for sequences of equal length, and changing exactly one bit of a sequence
changes it. -/
def Obligations.ChecksumIsLinearAndSeesOneBit : Prop :=
  (∀ s t : List Byte, s.length = t.length →
    checksum (List.zipWith (fun a b => a ^^^ b) s t) = checksum s ^^^ checksum t) ∧
  ∀ (s : List Byte) (k j : Nat), k < s.length → j < 8 → checksum (flipBit s k j) ≠ checksum s

/-- The checksum appended high byte first leaves the residue 0; appended as the wire has it, it need not. -/
def Obligations.ResidueOfAppendedChecksum : Prop :=
  (∀ m : List Byte, checksum (m ++ [hi8 (checksum m), lo8 (checksum m)]) = 0#16) ∧
  checksum [0xFE#8, 0xFE#8, 0x01#8, 0x0B#8, 0xA1#8, 0x01#8, 0xF5#8, 0x01#8, 0x01#8, 0x72#8, 0x12#8] = 0x678C#16

/-- CRC: its message, its answer and that it writes nothing. -/
def Obligations.CrcAnswersTheChecksum : Prop :=
  (∀ d : List Byte, d.length ≤ 65535 →
    decodeRequest ([0x01#8] ++ bytes16 (wordOf d.length) ++ d) = .ok (.crc d)) ∧
  ∀ (s : State) (r : Request) (d : List Byte), s.executing r → s.eng.table = crcTable →
    ∃ t, exec (.crc d) s = .next t ∧ s.Answers t r [lo8 (checksum d), hi8 (checksum d)]

/-- TBLRD: its message, its answer and that it writes nothing. -/
def Obligations.TblrdAnswersTheEntry : Prop :=
  (∀ i : Byte, decodeRequest [0x0C#8, i] = .ok (.tblRd i)) ∧
  ∀ (s : State) (r : Request) (i : Byte), s.executing r → s.eng.table = crcTable →
    ∃ t, exec (.tblRd i) s = .next t ∧ s.Answers t r [lo8 (tableEntry i), hi8 (tableEntry i)]

/-! ### The framer -/

/-- TX: its message; with a legal id and at most 247 params it applies the engine's settings, flushes, sends the
frame and answers with it; else it fails and changes no state. -/
def Obligations.TxFollowsItsRule : Prop :=
  (∀ (id cmd opt : Byte) (p : List Byte), p.length ≤ 255 →
    decodeRequest ([0x02#8, id, cmd, opt, byteOf p.length] ++ p) = .ok (.tx id cmd opt p)) ∧
  (∀ (id cmd opt : Byte) (p : List Byte), frameOf id cmd opt p =
    let h := [0xFE#8, 0xFE#8, id, byteOf (8 + p.length), cmd, opt] ++ p
    h ++ [lo8 (checksum h), hi8 (checksum h)]) ∧
  ∀ (s : State) (r : Request) (id cmd opt : Byte) (p : List Byte), s.executing r → s.eng.table = crcTable →
    ∃ t, exec (.tx id cmd opt p) s = .next t ∧
      if (id.toNat ≤ 239 ∨ id = 0xFF#8) ∧ p.length ≤ 247 then s.Sends t r id cmd opt p else s.Fails t r .validation

/-- Every frame TX sends is well formed and gives its operands back field by field. -/
def Obligations.SentFrameGivesItsFieldsBack : Prop :=
  ∀ (s : State) (r : Request) (id cmd opt : Byte) (p : List Byte), s.executing r → s.eng.table = crcTable →
    (id.toNat ≤ 239 ∨ id = 0xFF#8) → p.length ≤ 247 →
    ∃ t f, exec (.tx id cmd opt p) s = .next t ∧ (∃ b, t.line.out = s.line.out ++ [⟨s.lineIx, b, f⟩]) ∧
      frameWellFormed f = true ∧ byteAt f 2 = id ∧ (byteAt f 3).toNat = 8 + p.length ∧ byteAt f 4 = cmd ∧
      byteAt f 5 = opt ∧ (f.drop 6).take p.length = p ∧ f.length = 8 + p.length

/-- TX neither reads nor writes any lock. -/
def Obligations.TxIgnoresTheLock : Prop :=
  ∀ (s t : State) (locks : List Bool) (id cmd opt : Byte) (p : List Byte), exec (.tx id cmd opt p) s = .next t →
    t.locks = s.locks ∧ exec (.tx id cmd opt p) { s with locks := locks } = .next { t with locks := locks }

/-- The framer interprets no command byte: a TX whose command byte the source assigns acts as the wire row it
carries, and that row as the plain TX. What a wire row does is the model's reading (log 14). -/
def Obligations.TxTreatsEveryCommandAlike : Prop :=
  ∀ (s : State) (r : Request) (id cmd opt : Byte) (p : List Byte) (i : Instr), s.executing r → r.isRx = false →
    wireInstr cmd id opt p = some i → exec i s = exec (.tx id cmd opt p) s

/-- MemRead, MemWrite, Load, Save, MotorRead, MotorWrite, SystemRead, SystemWrite, Reboot, FactoryReset and
SystemInit: carried by a request that is no RX, the frame with the row's code is sent. That this is a wire row's
meaning is the model's reading (log 14). -/
def Obligations.RequestRowsAreSent : Prop :=
  ∀ (c : WireCommand) (s : State) (r : Request) (id opt : Byte) (p : List Byte), s.executing r → r.isRx = false →
    s.eng.table = crcTable → (id.toNat ≤ 239 ∨ id = 0xFF#8) → p.length ≤ 247 →
    ∃ t, exec (requestRow c id opt p) s = .next t ∧ s.Sends t r id c.code opt p

/-- MemReadAck, MemWriteAck, LoadAck, SaveAck, MotorReadAck, MotorWriteAck, SystemReadAck, SystemWriteAck,
RebootAck and FactoryResetAck: carried by an RX, the frame with the row's code is accepted. That this is a wire
row's meaning is the model's reading (log 14). -/
def Obligations.AckRowsAreAccepted : Prop :=
  ∀ (c : WireCommand) (s : State) (r : Request) (id status : Byte) (p : List Byte) (i : Instr), s.executing r →
    r.isRx = true → s.eng.table = crcTable → p.length ≤ 247 → ackRow c id status p = some i →
    ∃ t k, exec i s = .next t ∧ c.ack = some k ∧ s.Accepts t r id k status p

/-- Either kind of wire row also goes the other way: an RX accepts a frame with a request code (an echo), and a TX
sends a frame with an acknowledgement code. That this is a wire row's meaning is the model's reading (log 14). -/
def Obligations.WireRowsGoBothWays : Prop :=
  (∀ (c : WireCommand) (s : State) (r : Request) (id opt : Byte) (p : List Byte), s.executing r → r.isRx = true →
    s.eng.table = crcTable → p.length ≤ 247 →
    ∃ t, exec (requestRow c id opt p) s = .next t ∧ s.Accepts t r id c.code opt p) ∧
  ∀ (c : WireCommand) (s : State) (r : Request) (id status : Byte) (p : List Byte) (i : Instr), s.executing r →
    r.isRx = false → s.eng.table = crcTable → (id.toNat ≤ 239 ∨ id = 0xFF#8) → p.length ≤ 247 →
    ackRow c id status p = some i →
    ∃ t k, exec i s = .next t ∧ c.ack = some k ∧ s.Sends t r id k status p

/-! ### The receiver -/

/-- RX: its message, and the start of the header phase with its one chunk of 6 bytes; nothing is taken, answered
or written elsewhere yet. Where an RX's steps begin and end, and the field for the timer's time, are the model's (logs
9 and 12). -/
def Obligations.RxStartsItsHeaderChunk : Prop :=
  decodeRequest [0x03#8] = .ok .rx ∧
  ∀ (s : State) (r : Request), s.executing r →
    ∃ t, exec .rx s = .next t ∧ s.SameElsewhere t ∧
      t.eng = { s.eng with phase := .rxHdr, acc := [], want := 6, timer := .running, timerLoad := s.line.timeout } ∧
      t.line = s.line ∧ t.lockHeld = s.lockHeld ∧ t.responses = s.responses

/-- While its chunk is incomplete and its timer has not expired, an RX takes one waiting byte a step; if none
waits, the engine takes no step. That a waiting engine's turn passes is the model's choice (logs 9 and 10). -/
def Obligations.ReceiverTakesOneByteOrWaits : Prop :=
  ∀ (s : State) (e : Nat) (r : Request), s.AboutToReceive e r → (s.engineAt e).chunkReturned = false →
    match (s.lineAt (s.lineOf e)).rxq with
    | [] => step s = .next (s.elapse.activate e)
    | b :: rest => ∃ t, step s = .next t ∧ (s.elapse.activate e).SameElsewhere t ∧
        t.eng = { s.engineAt e with acc := (s.engineAt e).acc ++ [b], want := (s.engineAt e).want - 1 } ∧
        t.line = { s.lineAt (s.lineOf e) with rxq := rest } ∧ t.locks = s.locks ∧ t.responses = s.responses

/-- `Expire` sets the timer of a running, incomplete chunk on an empty `RXQ`. Where it is not enabled its turn passes,
which is the model's choice (log 10). -/
def Obligations.ExpireOnlyWhenEnabled : Prop :=
  ∀ (s : State) (e : Nat), s.nextEvent = .expire e → e < s.engines.length →
    ∃ t, step s = .next t ∧ { t with engines := s.engines } = s.elapse ∧
      (∀ k, k ≠ e → t.engines[k]? = s.engines[k]?) ∧
      t.engineAt e =
        if (s.engineAt e).timer = .running ∧ (s.engineAt e).want ≠ 0 ∧ (s.lineAt (s.lineOf e)).rxq = [] then
          { s.engineAt e with timer := .expired }
        else s.engineAt e

/-- When the header chunk has returned whole and declares more than 6 bytes, the remainder's first chunk starts,
whatever the sync bytes are; otherwise nothing more is read and the RX rejects. That this is one step is the model's
reading (log 9). -/
def Obligations.HeaderDecidesTheRemainder : Prop :=
  ∀ (s : State) (e : Nat) (r : Request), s.AboutToReceive e r → (s.engineAt e).chunkReturned = true →
    (s.engineAt e).phase = .rxHdr → (s.engineAt e).acc.length ≤ 6 →
    ∃ t, step s = .next t ∧
      if (s.engineAt e).acc.length = 6 ∧ 6 < (byteAt (s.engineAt e).acc 3).toNat then
        (s.elapse.activate e).SameElsewhere t ∧
        t.eng = { s.engineAt e with phase := .rxBody, want := (byteAt (s.engineAt e).acc 3).toNat - 6,
                                    timer := .running, timerLoad := (s.lineAt (s.lineOf e)).timeout } ∧
        t.lines = s.lines ∧ t.locks = s.locks ∧ t.responses = s.responses
      else ∃ c, (s.elapse.activate e).Ends t r [0x00#8] (some c)
        { s.engineAt e with phase := .idle, timer := .stopped } (s.lineAt (s.lineOf e)) (s.elapse.activate e).lockHeld

/-- When a remainder chunk has returned short and bytes wait, another chunk for the rest of the frame starts. That this is one step is the model's reading (log 9). -/
def Obligations.RemainderReadsOnWhileBytesWait : Prop :=
  ∀ (s : State) (e : Nat) (r : Request), s.AboutToReceive e r → (s.engineAt e).chunkReturned = true →
    (s.engineAt e).phase = .rxBody → (s.engineAt e).acc.length ≠ (byteAt (s.engineAt e).acc 3).toNat →
    (s.lineAt (s.lineOf e)).rxq ≠ [] →
    ∃ t, step s = .next t ∧ (s.elapse.activate e).SameElsewhere t ∧
      t.eng = { s.engineAt e with want := (byteAt (s.engineAt e).acc 3).toNat - (s.engineAt e).acc.length,
                                  timer := .running, timerLoad := (s.lineAt (s.lineOf e)).timeout } ∧
      t.lines = s.lines ∧ t.locks = s.locks ∧ t.responses = s.responses

/-- When its reads are over, an RX accepts exactly a well-formed frame: it caches byte 5 and answers the whole
frame; otherwise it answers `00`, keeps `LAST_STATUS`, and puts nothing back. That the verdict falls in the step in
which the last chunk returns is the model's reading (log 9). -/
def Obligations.RxAcceptsExactlyWellFormedFrames : Prop :=
  ∀ (s : State) (e : Nat) (r : Request), s.AboutToReceive e r → (s.elapse.activate e).readsOver = true →
    (s.engineAt e).table = crcTable →
    ∃ t, step s = .next t ∧
      if frameWellFormed (s.engineAt e).acc = true then
        (s.elapse.activate e).Ends t r (0x01#8 :: byteOf (s.engineAt e).acc.length :: (s.engineAt e).acc) none
          { s.engineAt e with phase := .idle, timer := .stopped, lastStatus := byteAt (s.engineAt e).acc 5 }
          (s.lineAt (s.lineOf e)) (s.elapse.activate e).lockHeld
      else
        (s.elapse.activate e).Ends t r [0x00#8] (some (rejectCause (s.engineAt e).acc))
          { s.engineAt e with phase := .idle, timer := .stopped }
          (s.lineAt (s.lineOf e)) (s.elapse.activate e).lockHeld

/-- A frame as TX builds it, at the head of `RXQ` when an engine starts an RX and no other agent steps, is accepted
after one step for each byte and three more, and what follows it stays. The count of steps is the model's (log 9). -/
def Obligations.RxAcceptsTheFrameTxBuilt : Prop :=
  ∀ (s : State) (e h : Nat) (rest : List Request) (agenda : List Event) (id cmd opt : Byte) (p more : List Byte),
    s.AboutToStart e ⟨h, [0x03#8]⟩ rest → (s.engineAt e).table = crcTable → p.length ≤ 247 →
    (s.lineAt (s.lineOf e)).rxq = frameOf id cmd opt p ++ more →
    s.agenda = List.replicate (p.length + 11) (.engine e) ++ agenda →
    ∃ t, Host.Core.run Sys2Proof.core (p.length + 11) s = .next t ∧
      t.responses
        = s.responses ++ [⟨e, h, 0x01#8 :: byteOf (8 + p.length) :: frameOf id cmd opt p, none⟩] ∧
      t.lineAt (s.lineOf e) = { s.lineAt (s.lineOf e) with rxq := more } ∧
      (t.engineAt e).lastStatus = opt ∧ (t.engineAt e).phase = .idle ∧ (t.engineAt e).cur = none ∧
      (t.engineAt e).reqq = rest ∧ t.agenda = agenda

/-- The same while other agents step: whatever bytes arrive, requests are delivered, timers expire, and engines of
other lines step between this engine's steps, as long as no other engine of the line steps and this engine is not
reset. What arrived meanwhile stands behind the bytes that follow the frame. An engine of the same line that steps
without taking or flushing is not covered. The count of steps is the model's (log 9). -/
def Obligations.RxAcceptsTheFrameAmidOtherSteps : Prop :=
  ∀ (s : State) (e h : Nat) (rest : List Request) (events agenda : List Event) (id cmd opt : Byte)
    (p more : List Byte),
    s.Wired → s.AboutToStart e ⟨h, [0x03#8]⟩ rest → (s.engineAt e).table = crcTable → p.length ≤ 247 →
    (s.lineAt (s.lineOf e)).rxq = frameOf id cmd opt p ++ more →
    s.agenda = Event.engine e :: (events ++ agenda) → events.count (Event.engine e) = p.length + 10 →
    (∀ k, Event.engine k ∈ events → k ≠ e → s.lineOf k ≠ s.lineOf e) → Event.resetEngine e ∉ events →
    ∃ t arrived, Host.Core.run Sys2Proof.core (events.length + 1) s = .next t ∧
      ⟨e, h, 0x01#8 :: byteOf (8 + p.length) :: frameOf id cmd opt p, none⟩ ∈ t.responses ∧
      (t.lineAt (s.lineOf e)).rxq = more ++ arrived ∧ (t.engineAt e).lastStatus = opt ∧
      (t.engineAt e).phase = .idle ∧ (t.engineAt e).cur = none ∧ t.agenda = agenda

/-- An RX on an empty `RXQ` with no arrivals answers `00` after one expiry, and takes and writes nothing. The count of
steps is the model's (log 9). -/
def Obligations.RxOnSilentLineFails : Prop :=
  ∀ (s : State) (e h : Nat) (rest : List Request) (agenda : List Event),
    s.AboutToStart e ⟨h, [0x03#8]⟩ rest → (s.lineAt (s.lineOf e)).rxq = [] →
    s.agenda = .engine e :: .expire e :: .engine e :: agenda →
    ∃ t, Host.Core.run Sys2Proof.core 3 s = .next t ∧
      t.responses = s.responses ++ [⟨e, h, [0x00#8], some .silence⟩] ∧ t.lines = s.lines ∧ t.locks = s.locks ∧
      (t.engineAt e).lastStatus = (s.engineAt e).lastStatus ∧ (t.engineAt e).phase = .idle ∧
      (t.engineAt e).cur = none ∧ (t.engineAt e).reqq = rest

/-- Weak fairness of the chunk timers: from every state of a wired machine, whatever is on its agenda, there comes a
step at which an engine's `Expire` is either not enabled or happens. So no `Expire` stays enabled for ever. The
schedule is fair by the model's form of it (log 22). -/
def Obligations.EnabledExpireComesAbout : Prop :=
  ∀ (s : State) (e : Nat), s.Wired → e < s.engines.length →
    ∃ (k : Nat) (t u : State), Host.Core.run Sys2Proof.core k s = .next t ∧ step t = .next u ∧
      (t.expireEnabled e = true → t.nextEvent = .expire e ∧ (u.engineAt e).timer = .expired)

/-- Every RX comes to its end, whatever arrives or fails to arrive, where no other engine drives its line: after
finitely many steps its host is answered, unless the engine is reset first. The engine's turns are the model's reading
(log 22). -/
def Obligations.EveryReceiveEnds : Prop :=
  ∀ (s : State) (e : Nat) (r : Request), s.Wired → s.ReceiversFit → e < s.engines.length →
    (s.engineAt e).phase ≠ .idle → (s.engineAt e).cur = some r →
    (∀ k, k < s.engines.length → k ≠ e → s.lineOf k ≠ s.lineOf e) →
    ∃ (k : Nat) (t u : State), Host.Core.run Sys2Proof.core k s = .next t ∧ step t = .next u ∧
      (t.engineAt e).cur = some r ∧
      (t.nextEvent = .resetEngine e ∨
        ∃ m c, u.responses = t.responses ++ [⟨e, r.host, m, c⟩] ∧ (u.engineAt e).phase = .idle)

/-- A well-formed frame with one bit flipped outside the length byte is not well formed. -/
def Obligations.FlippedBitIsRejected : Prop :=
  ∀ (f : List Byte) (k j : Nat), frameWellFormed f = true → k < f.length → k ≠ 3 → j < 8 →
    frameWellFormed (flipBit f k j) = false

/-- The counterexample of C6: with bit 0 of its length byte flipped, this well-formed frame begins with another
well-formed frame. -/
def Obligations.FlippedLengthBitCanPass : Prop :=
  frameWellFormed [0xFE#8, 0xFE#8, 0x01#8, 0x0B#8, 0xA1#8, 0x01#8, 0x40#8, 0x19#8, 0xA4#8, 0xE8#8, 0x68#8] = true ∧
  frameWellFormed ((flipBit [0xFE#8, 0xFE#8, 0x01#8, 0x0B#8, 0xA1#8, 0x01#8, 0x40#8, 0x19#8, 0xA4#8, 0xE8#8, 0x68#8]
    3 0).take 10) = true

/-! ### Configuration, status, lock and queue -/

/-- SETBAUD: its message; an index to 7 is written to the engine and its line; above 7 it fails and writes
nothing. Index 2 is 625000 baud. -/
def Obligations.SetbaudFollowsItsRule : Prop :=
  Config.baudOf 2#3 = 625000 ∧
  (∀ idx : Byte, decodeRequest [0x04#8, idx] = .ok (.setBaud idx)) ∧
  ∀ (s : State) (r : Request) (idx : Byte), s.executing r →
    ∃ t, exec (.setBaud idx) s = .next t ∧
      if idx.toNat ≤ 7 then
        s.Ends t r [0x01#8] none { s.eng with cfgBaudIdx := idx } { s.line with baudIdx := idx.extractLsb' 0 3 }
          s.lockHeld
      else s.Fails t r .validation

/-- SETTMO: its message; the value is written to the engine and its line. -/
def Obligations.SettmoFollowsItsRule : Prop :=
  (∀ u : Word32, decodeRequest [0x05#8, u.extractLsb' 0 8, u.extractLsb' 8 8, u.extractLsb' 16 8, u.extractLsb' 24 8]
    = .ok (.setTmo u)) ∧
  ∀ (s : State) (r : Request) (u : Word32), s.executing r →
    ∃ t, exec (.setTmo u) s = .next t ∧
      s.Ends t r [0x01#8] none { s.eng with cfgTimeout := u } { s.line with timeout := u } s.lockHeld

/-- GETBAUD: its message, and the engine's index as the answer, with bits 7 to 3 zero. -/
def Obligations.GetbaudAnswersTheIndex : Prop :=
  decodeRequest [0x06#8] = .ok .getBaud ∧
  ∀ (s : State) (r : Request), s.executing r →
    ∃ t, exec .getBaud s = .next t ∧ s.Answers t r [s.eng.cfgBaudIdx] ∧
      (s.BaudReserved → s.eng.cfgBaudIdx.extractLsb' 3 5 = 0#5)

/-- GETTMO: its message, and the engine's timeout as the answer, least significant byte first. -/
def Obligations.GettmoAnswersTheTimeout : Prop :=
  decodeRequest [0x07#8] = .ok .getTmo ∧
  ∀ (s : State) (r : Request), s.executing r →
    ∃ t, exec .getTmo s = .next t ∧
      s.Answers t r [s.eng.cfgTimeout.extractLsb' 0 8, s.eng.cfgTimeout.extractLsb' 8 8,
        s.eng.cfgTimeout.extractLsb' 16 8, s.eng.cfgTimeout.extractLsb' 24 8]

/-- GETSTAT: its message, and the cached status byte as the answer. -/
def Obligations.GetstatAnswersTheStatus : Prop :=
  decodeRequest [0x08#8] = .ok .getStat ∧
  ∀ (s : State) (r : Request), s.executing r →
    ∃ t, exec .getStat s = .next t ∧ s.Answers t r [s.eng.lastStatus]

/-- LOCKTRY: its message; it takes a free lock, and answers `00` to a held one and leaves it held. -/
def Obligations.LocktryTakesAFreeLock : Prop :=
  decodeRequest [0x09#8] = .ok .lockTry ∧
  ∀ (s : State) (r : Request), s.executing r →
    ∃ t, exec .lockTry s = .next t ∧
      if s.lockHeld = true then s.Fails t r .lockBusy else s.Ends t r [0x01#8] none s.eng s.line true

/-- UNLOCK: its message; it frees a held lock, and answers `00` to a free one. -/
def Obligations.UnlockFreesAHeldLock : Prop :=
  decodeRequest [0x0A#8] = .ok .unlock ∧
  ∀ (s : State) (r : Request), s.executing r →
    ∃ t, exec .unlock s = .next t ∧
      if s.lockHeld = true then s.Ends t r [0x01#8] none s.eng s.line false else s.Fails t r .lockFree

/-- RXAVAIL: its message, and the count of waiting bytes, saturated at 0xFFFF, as the answer. -/
def Obligations.RxavailAnswersTheCount : Prop :=
  decodeRequest [0x0B#8] = .ok .rxAvail ∧
  ∀ (s : State) (r : Request), s.executing r →
    ∃ t c, exec .rxAvail s = .next t ∧ c = BitVec.ofNat 16 (min s.line.rxq.length 0xFFFF) ∧
      s.Answers t r [lo8 c, hi8 c]

/-! ### The other agents -/

/-- A host's step puts its message at the end of the engine's queue, tagged with the host, and does nothing
else. -/
def Obligations.DeliveryEntersTheQueue : Prop :=
  ∀ (s : State) (e h : Nat) (m : List Byte), s.nextEvent = .deliver e h m → e < s.engines.length →
    h < s.platform.nHosts →
    ∃ t, step s = .next t ∧ { t with engines := s.engines } = s.elapse ∧
      (∀ k, k ≠ e → t.engines[k]? = s.engines[k]?) ∧
      t.engineAt e = { s.engineAt e with reqq := (s.engineAt e).reqq ++ [⟨h, m⟩] }

/-- A byte that arrives is appended to the line's `RXQ`, or lost when that holds `RXQ_DEPTH` bytes; nothing else
changes. -/
def Obligations.ArrivalAppendsOrIsLost : Prop :=
  ∀ (s : State) (l : Nat) (b : Byte), s.nextEvent = .arrive l b → l < s.lines.length →
    ∃ t, step s = .next t ∧ { t with lines := s.lines } = s.elapse ∧
      (∀ k, k ≠ l → t.lines[k]? = s.lines[k]?) ∧
      t.lineAt l =
        if (s.lineAt l).rxq.length < s.platform.rxqDepth then { s.lineAt l with rxq := (s.lineAt l).rxq ++ [b] }
        else s.lineAt l

/-- Resetting one engine puts its state, but the unspecified `LAST_STATUS`, to the reset values, and leaves every
other engine, every line and every lock. That requests in it are dropped unanswered, and the reset value of the
timer's time, are the model's (logs 12 and 17). -/
def Obligations.EngineResetLeavesLineAndLock : Prop :=
  ∀ (s : State) (e : Nat), s.nextEvent = .resetEngine e → e < s.engines.length →
    ∃ t u, step s = .next t ∧ { t with engines := s.engines } = s.elapse ∧
      (∀ k, k ≠ e → t.engines[k]? = s.engines[k]?) ∧
      t.engineAt e =
        { table := crcTable, cfgBaudIdx := s.platform.resetBaudIdx.setWidth 8, cfgTimeout := s.platform.resetTimeoutUs,
          lastStatus := u, reqq := [], cur := none, phase := .idle, acc := [], want := 0, timer := .stopped,
          timerLoad := 0 }

/-! ### Reset -/

/-- After reset every engine, line and lock of any platform holds the values R260 gives. -/
def Obligations.ResetGivesTheStatedValues : Prop :=
  State.reset = State.resetOn Config.platform ∧
  ∀ p : Platform,
    (State.resetOn p).engines.length = p.wiring.length ∧
    (∀ x ∈ (State.resetOn p).engines, x.phase = .idle ∧ x.table = crcTable ∧
      x.cfgBaudIdx = p.resetBaudIdx.setWidth 8 ∧ x.cfgTimeout = p.resetTimeoutUs ∧ x.reqq = [] ∧ x.cur = none ∧
      x.acc = [] ∧ x.want = 0 ∧ x.timer = .stopped) ∧
    (∀ l ∈ (State.resetOn p).lines, l.baudIdx = p.resetBaudIdx ∧ l.timeout = p.resetTimeoutUs ∧ l.rxq = [] ∧
      l.out = []) ∧
    ∀ k ∈ (State.resetOn p).locks, k = false

/-- The state after reset, on every platform within the bounds of R13 and on the one `State.reset` stands for,
meets every invariant stated below. The numbers of that platform's lines and locks are the model's (log 6). -/
def Obligations.ResetMeetsTheInvariants : Prop :=
  (255 ≤ Config.platform.rxqDepth ∧ 1 ≤ Config.platform.nHosts) ∧
  ∀ p : Platform, 255 ≤ p.rxqDepth → 1 ≤ p.nHosts →
    (State.resetOn p).Wired ∧ (State.resetOn p).TablesIntact ∧ (State.resetOn p).BaudReserved ∧
    (State.resetOn p).QueuesBounded ∧ (State.resetOn p).ReceiversFit ∧ (State.resetOn p).SentWellFormed ∧
    (State.resetOn p).ResponsesWellFormed

/-! ### What every step keeps -/

/-- Every step keeps every engine wired to existing lines and locks. -/
def Obligations.StepKeepsWires : Prop := ∀ s t : State, s.Wired → step s = .next t → t.Wired

/-- No step writes `TABLE`. -/
def Obligations.StepKeepsTables : Prop := ∀ s t : State, s.TablesIntact → step s = .next t → t.TablesIntact

/-- Bits 7 to 3 of `CFG_BAUD_IDX` stay 0. -/
def Obligations.StepKeepsBaudBitsZero : Prop := ∀ s t : State, s.BaudReserved → step s = .next t → t.BaudReserved

/-- No `RXQ` ever holds more than `RXQ_DEPTH` bytes. -/
def Obligations.StepKeepsQueuesBounded : Prop := ∀ s t : State, s.QueuesBounded → step s = .next t → t.QueuesBounded

/-- The receiver's phase, request, timer, bytes taken and bytes wanted go on fitting each other. -/
def Obligations.StepKeepsReceiversFit : Prop := ∀ s t : State, s.ReceiversFit → step s = .next t → t.ReceiversFit

/-- Every frame that was ever put on a line is well formed and goes to a legal id. -/
def Obligations.StepKeepsSentFramesWellFormed : Prop :=
  ∀ s t : State, s.TablesIntact → s.SentWellFormed → step s = .next t → t.SentWellFormed

/-- Every response message begins with a result byte, and a failure is that one byte. -/
def Obligations.StepKeepsResponsesWellFormed : Prop :=
  ∀ s t : State, s.ResponsesWellFormed → step s = .next t → t.ResponsesWellFormed

/-! ### Rules of the whole machine -/

/-- With existing wires no step ends in a fault or a refusal: every failure is local. The fault for a missing wire is
the model's own (log 18). -/
def Obligations.WiredMachineNeverStops : Prop := ∀ s : State, s.Wired → ∃ t, step s = .next t

/-- Only LOCKTRY and UNLOCK change a lock. -/
def Obligations.OnlyLockRequestsChangeLocks : Prop :=
  ∀ s t : State, step s = .next t → t.locks ≠ s.locks →
    ∃ e r rest, s.AboutToStart e r rest ∧ (r.message = [0x09#8] ∨ r.message = [0x0A#8])

/-- `LAST_STATUS` changes only when its engine is reset or accepts a frame, whose byte 5 it then is. -/
def Obligations.LastStatusChangesOnlyByAcceptance : Prop :=
  ∀ (s t : State) (e : Nat), step s = .next t → (t.engineAt e).lastStatus ≠ (s.engineAt e).lastStatus →
    s.nextEvent = .resetEngine e ∨
    (s.nextEvent = .engine e ∧ (s.elapse.activate e).readsOver = true ∧
      frameWellFormedWith (s.engineAt e).table (s.engineAt e).acc = true ∧
      (t.engineAt e).lastStatus = byteAt (s.engineAt e).acc 5)

/-- A line's output history changes only by a TX of an engine of that line, which adds one event. -/
def Obligations.OnlyTxSends : Prop :=
  ∀ (s t : State) (l : Nat), s.ReceiversFit → step s = .next t → (t.lineAt l).out ≠ (s.lineAt l).out →
    ∃ e r rest id cmd opt p x, s.AboutToStart e r rest ∧ s.lineOf e = l ∧
      decodeRequest r.message = .ok (.tx id cmd opt p) ∧ (t.lineAt l).out = (s.lineAt l).out ++ [x]

/-! ### The wire vocabulary -/

/-- Every listed acknowledgement code is its request code plus 0x80 modulo 256, and also the code minus 0x80 and
the code XOR 0x80. -/
def Obligations.AckCodesFollowTheFormula : Prop :=
  ∀ (c : WireCommand) (k : Byte), c.ack = some k →
    k.toNat = (c.code.toNat + 0x80) % 256 ∧ k = c.code - 0x80#8 ∧ k = c.code ^^^ 0x80#8
end

