-- ==== Sys2Proof/Laws/Frame.lean ====
section
/-! SUPPORT. What the frame layout gives: lengths, fields, and the checksum of a concatenation. -/

namespace Sys2Proof.Machine

@[simp] theorem bytes16_length (v : Word16) : (bytes16 v).length = 2 := rfl
@[simp] theorem bytes32_length (v : Word32) : (bytes32 v).length = 4 := rfl

theorem checksumWith_append (table : List Word16) (s t : List Byte) :
    checksumWith table (s ++ t) = t.foldl (crcUpdate table) (checksumWith table s) := by
  simp [checksumWith]

theorem checksumWith_concat (table : List Word16) (s : List Byte) (b : Byte) :
    checksumWith table (s ++ [b]) = crcUpdate table (checksumWith table s) b := by
  simp [checksumWith]

@[simp] theorem frameHead_length (id cmd opt : Byte) (params : List Byte) :
    (frameHead id cmd opt params).length = params.length + 6 := by
  simp [frameHead]

@[simp] theorem frameWith_length (table : List Word16) (id cmd opt : Byte) (params : List Byte) :
    (frameWith table id cmd opt params).length = params.length + 8 := by
  simp [frameWith]

@[simp] theorem frameWith_byte0 (table : List Word16) (id cmd opt : Byte) (params : List Byte) :
    byteAt (frameWith table id cmd opt params) 0 = Config.sync := rfl
@[simp] theorem frameWith_byte1 (table : List Word16) (id cmd opt : Byte) (params : List Byte) :
    byteAt (frameWith table id cmd opt params) 1 = Config.sync := rfl
@[simp] theorem frameWith_id (table : List Word16) (id cmd opt : Byte) (params : List Byte) :
    frameId (frameWith table id cmd opt params) = id := rfl
@[simp] theorem frameWith_byte3 (table : List Word16) (id cmd opt : Byte) (params : List Byte) :
    byteAt (frameWith table id cmd opt params) 3 = byteOf (8 + params.length) := rfl
@[simp] theorem frameWith_cmd (table : List Word16) (id cmd opt : Byte) (params : List Byte) :
    frameCmd (frameWith table id cmd opt params) = cmd := rfl
@[simp] theorem frameWith_opt (table : List Word16) (id cmd opt : Byte) (params : List Byte) :
    frameOpt (frameWith table id cmd opt params) = opt := rfl

/-- The declared length is the frame's length where it fits a byte (R73). -/
theorem frameWith_declaredLength (table : List Word16) (id cmd opt : Byte) (params : List Byte)
    (h : params.length ≤ Config.maxParams) :
    declaredLength (frameWith table id cmd opt params) = params.length + 8 := by
  have : params.length ≤ 247 := h
  simp [declaredLength, byteOf]; omega

/-- The bytes before the trailer are the head (R78). -/
theorem frameWith_take (table : List Word16) (id cmd opt : Byte) (params : List Byte) :
    (frameWith table id cmd opt params).take (params.length + 6) = frameHead id cmd opt params := by
  simp [frameWith]

/-- The two bytes of the trailer (R51). -/
theorem frameWith_trailer (table : List Word16) (id cmd opt : Byte) (params : List Byte) :
    byteAt (frameWith table id cmd opt params) (params.length + 6)
        = lo8 (checksumWith table (frameHead id cmd opt params)) ∧
      byteAt (frameWith table id cmd opt params) (params.length + 7)
        = hi8 (checksumWith table (frameHead id cmd opt params)) := by
  constructor <;>
    simp [byteAt, frameWith, List.getD_eq_getElem?_getD, bytes16]

/-- A `u16` is its two halves again (R51, R52). -/
theorem le16_lo8_hi8 (v : Word16) : le16 (lo8 v) (hi8 v) = v := by
  apply BitVec.eq_of_getLsbD_eq
  intro i hi
  by_cases h : i < 8
  · simp [le16, lo8, hi8, h, hi]
  · have h8 : i - 8 < 8 := by omega
    have hs : 8 + (i - 8) = i := by omega
    simp [le16, lo8, hi8, h, hi, h8, hs]

/-- A `u32` is its four bytes again (R52). -/
theorem le32_bytes (v : Word32) :
    le32 (v.extractLsb' 0 8) (v.extractLsb' 8 8) (v.extractLsb' 16 8) (v.extractLsb' 24 8) = v := by
  apply BitVec.eq_of_getLsbD_eq
  intro i hi
  simp only [le32, BitVec.getLsbD_or, BitVec.getLsbD_setWidth, BitVec.getLsbD_shiftLeft, BitVec.getLsbD_extractLsb',
    BitVec.truncate_eq_setWidth]
  rcases Nat.lt_or_ge i 8 with h | h8
  · simp [h, hi, show i < 16 by omega, show i < 24 by omega]
  rcases Nat.lt_or_ge i 16 with h | h16
  · simp [h, hi, show ¬ i < 8 by omega, show i < 24 by omega, show i - 8 < 8 by omega, show i - 8 < 32 by omega,
      show 8 + (i - 8) = i by omega]
  rcases Nat.lt_or_ge i 24 with h | h24
  · simp [h, hi, show ¬ i < 8 by omega, show ¬ i < 16 by omega, show ¬ i - 8 < 8 by omega, show i - 16 < 8 by omega,
      show i - 16 < 32 by omega, show 16 + (i - 16) = i by omega]
  · simp [hi, show ¬ i < 8 by omega, show ¬ i < 16 by omega, show ¬ i < 24 by omega, show ¬ i - 8 < 8 by omega,
      show ¬ i - 16 < 8 by omega, show i - 24 < 8 by omega, show i - 24 < 32 by omega, show 24 + (i - 24) = i by omega]

end Sys2Proof.Machine
end

