-- ==== Sys2Proof/Laws/Decode.lean ====
section
/-! SUPPORT. When the decoder takes a message or a frame, said once. -/

namespace Sys2Proof

/-- An opcode has a length exactly when it has operands (R81, R83). -/
theorem requestLength_isSome (m : List Byte) : (requestLength m).isSome = (requestInstr m).isSome := by
  unfold requestLength requestInstr
  split <;> rfl

/-- A message is taken when it has an opcode, the opcode's length and the opcode's operands (R82). -/
theorem decodeRequest_ok_iff {m : List Byte} {i : Instr} :
    decodeRequest m = .ok i ↔ m ≠ [] ∧ requestLength m = some m.length ∧ requestInstr m = some i := by
  unfold decodeRequest
  cases m with
  | nil => simp
  | cons op tl =>
    have := requestLength_isSome (op :: tl)
    cases h1 : requestLength (op :: tl) <;> cases h2 : requestInstr (op :: tl) <;> simp_all
    split <;> simp_all
    intro h; simp_all

/-- A frame is taken when it is well formed and its command byte is assigned (R85, R90). -/
theorem decodeFrame_ok_iff {f : List Byte} {i : Instr} :
    decodeFrame f = .ok i ↔ Machine.frameWellFormed f = true ∧
      wireInstr (Machine.frameCmd f) (Machine.frameId f) (Machine.frameOpt f) (Machine.frameParams f) = some i := by
  unfold decodeFrame Machine.frameWellFormed Machine.frameWellFormedWith
  by_cases h1 : f.length < Config.minFrame
  · simp [h1]
  by_cases h2 : Machine.syncOk f = false
  · simp [h1, h2]
  by_cases h3 : Machine.declaredLength f = f.length
  · by_cases h4 : Machine.trailerOk Machine.crcTable f = false
    · simp [h1, h2, h3, h4]
    · simp only [Bool.not_eq_false] at h2 h4
      simp only [h1, h2, h3, h4]
      cases wireInstr (Machine.frameCmd f) (Machine.frameId f) (Machine.frameOpt f) (Machine.frameParams f) <;>
        simp_all
  · simp [h1, h2, h3]

end Sys2Proof
end

