-- ==== Sys2Proof/Laws/State.lean ====
section
/-! SUPPORT. One lemma per field per update of the state, so that no proof unfolds a record update. -/

namespace Sys2Proof.Machine

/-! ### updEngineAt -/

@[simp] theorem State.updEngineAt_platform (s : State) (e : Nat) (f : Engine → Engine) : (s.updEngineAt e f).platform = s.platform := rfl
@[simp] theorem State.updEngineAt_engines (s : State) (e : Nat) (f : Engine → Engine) : (s.updEngineAt e f).engines = s.engines.modify e f := rfl
@[simp] theorem State.updEngineAt_lines (s : State) (e : Nat) (f : Engine → Engine) : (s.updEngineAt e f).lines = s.lines := rfl
@[simp] theorem State.updEngineAt_locks (s : State) (e : Nat) (f : Engine → Engine) : (s.updEngineAt e f).locks = s.locks := rfl
@[simp] theorem State.updEngineAt_active (s : State) (e : Nat) (f : Engine → Engine) : (s.updEngineAt e f).active = s.active := rfl
@[simp] theorem State.updEngineAt_responses (s : State) (e : Nat) (f : Engine → Engine) : (s.updEngineAt e f).responses = s.responses := rfl
@[simp] theorem State.updEngineAt_agenda (s : State) (e : Nat) (f : Engine → Engine) : (s.updEngineAt e f).agenda = s.agenda := rfl
@[simp] theorem State.updEngineAt_tick (s : State) (e : Nat) (f : Engine → Engine) : (s.updEngineAt e f).tick = s.tick := rfl

/-! ### updLineAt -/

@[simp] theorem State.updLineAt_platform (s : State) (l : Nat) (f : Line → Line) : (s.updLineAt l f).platform = s.platform := rfl
@[simp] theorem State.updLineAt_engines (s : State) (l : Nat) (f : Line → Line) : (s.updLineAt l f).engines = s.engines := rfl
@[simp] theorem State.updLineAt_lines (s : State) (l : Nat) (f : Line → Line) : (s.updLineAt l f).lines = s.lines.modify l f := rfl
@[simp] theorem State.updLineAt_locks (s : State) (l : Nat) (f : Line → Line) : (s.updLineAt l f).locks = s.locks := rfl
@[simp] theorem State.updLineAt_active (s : State) (l : Nat) (f : Line → Line) : (s.updLineAt l f).active = s.active := rfl
@[simp] theorem State.updLineAt_responses (s : State) (l : Nat) (f : Line → Line) : (s.updLineAt l f).responses = s.responses := rfl
@[simp] theorem State.updLineAt_agenda (s : State) (l : Nat) (f : Line → Line) : (s.updLineAt l f).agenda = s.agenda := rfl
@[simp] theorem State.updLineAt_tick (s : State) (l : Nat) (f : Line → Line) : (s.updLineAt l f).tick = s.tick := rfl

/-! ### updEngine -/

@[simp] theorem State.updEngine_platform (s : State) (f : Engine → Engine) : (s.updEngine f).platform = s.platform := rfl
@[simp] theorem State.updEngine_engines (s : State) (f : Engine → Engine) : (s.updEngine f).engines = s.engines.modify s.active f := rfl
@[simp] theorem State.updEngine_lines (s : State) (f : Engine → Engine) : (s.updEngine f).lines = s.lines := rfl
@[simp] theorem State.updEngine_locks (s : State) (f : Engine → Engine) : (s.updEngine f).locks = s.locks := rfl
@[simp] theorem State.updEngine_active (s : State) (f : Engine → Engine) : (s.updEngine f).active = s.active := rfl
@[simp] theorem State.updEngine_responses (s : State) (f : Engine → Engine) : (s.updEngine f).responses = s.responses := rfl
@[simp] theorem State.updEngine_agenda (s : State) (f : Engine → Engine) : (s.updEngine f).agenda = s.agenda := rfl
@[simp] theorem State.updEngine_tick (s : State) (f : Engine → Engine) : (s.updEngine f).tick = s.tick := rfl

/-! ### updLine -/

@[simp] theorem State.updLine_platform (s : State) (f : Line → Line) : (s.updLine f).platform = s.platform := rfl
@[simp] theorem State.updLine_engines (s : State) (f : Line → Line) : (s.updLine f).engines = s.engines := rfl
@[simp] theorem State.updLine_lines (s : State) (f : Line → Line) : (s.updLine f).lines = s.lines.modify s.lineIx f := rfl
@[simp] theorem State.updLine_locks (s : State) (f : Line → Line) : (s.updLine f).locks = s.locks := rfl
@[simp] theorem State.updLine_active (s : State) (f : Line → Line) : (s.updLine f).active = s.active := rfl
@[simp] theorem State.updLine_responses (s : State) (f : Line → Line) : (s.updLine f).responses = s.responses := rfl
@[simp] theorem State.updLine_agenda (s : State) (f : Line → Line) : (s.updLine f).agenda = s.agenda := rfl
@[simp] theorem State.updLine_tick (s : State) (f : Line → Line) : (s.updLine f).tick = s.tick := rfl

/-! ### setLock -/

@[simp] theorem State.setLock_platform (s : State) (held : Bool) : (s.setLock held).platform = s.platform := rfl
@[simp] theorem State.setLock_engines (s : State) (held : Bool) : (s.setLock held).engines = s.engines := rfl
@[simp] theorem State.setLock_lines (s : State) (held : Bool) : (s.setLock held).lines = s.lines := rfl
@[simp] theorem State.setLock_locks (s : State) (held : Bool) : (s.setLock held).locks = s.locks.set s.lockIx held := rfl
@[simp] theorem State.setLock_active (s : State) (held : Bool) : (s.setLock held).active = s.active := rfl
@[simp] theorem State.setLock_responses (s : State) (held : Bool) : (s.setLock held).responses = s.responses := rfl
@[simp] theorem State.setLock_agenda (s : State) (held : Bool) : (s.setLock held).agenda = s.agenda := rfl
@[simp] theorem State.setLock_tick (s : State) (held : Bool) : (s.setLock held).tick = s.tick := rfl

/-! ### activate -/

@[simp] theorem State.activate_platform (s : State) (e : Nat) : (s.activate e).platform = s.platform := rfl
@[simp] theorem State.activate_engines (s : State) (e : Nat) : (s.activate e).engines = s.engines := rfl
@[simp] theorem State.activate_lines (s : State) (e : Nat) : (s.activate e).lines = s.lines := rfl
@[simp] theorem State.activate_locks (s : State) (e : Nat) : (s.activate e).locks = s.locks := rfl
@[simp] theorem State.activate_active (s : State) (e : Nat) : (s.activate e).active = e := rfl
@[simp] theorem State.activate_responses (s : State) (e : Nat) : (s.activate e).responses = s.responses := rfl
@[simp] theorem State.activate_agenda (s : State) (e : Nat) : (s.activate e).agenda = s.agenda := rfl
@[simp] theorem State.activate_tick (s : State) (e : Nat) : (s.activate e).tick = s.tick := rfl

/-! ### elapse -/

@[simp] theorem State.elapse_platform (s : State) : (s.elapse).platform = s.platform := rfl
@[simp] theorem State.elapse_engines (s : State) : (s.elapse).engines = s.engines := rfl
@[simp] theorem State.elapse_lines (s : State) : (s.elapse).lines = s.lines := rfl
@[simp] theorem State.elapse_locks (s : State) : (s.elapse).locks = s.locks := rfl
@[simp] theorem State.elapse_active (s : State) : (s.elapse).active = s.active := rfl
@[simp] theorem State.elapse_responses (s : State) : (s.elapse).responses = s.responses := rfl
@[simp] theorem State.elapse_agenda (s : State) : (s.elapse).agenda = s.agenda.tail := rfl
@[simp] theorem State.elapse_tick (s : State) : (s.elapse).tick = s.tick + 1 := rfl

/-! ### Derived readings -/

@[simp] theorem State.updEngineAt_lineOf (s : State) (e : Nat) (f : Engine → Engine) (k : Nat) : (s.updEngineAt e f).lineOf k = s.lineOf k := rfl
@[simp] theorem State.updEngineAt_lockOf (s : State) (e : Nat) (f : Engine → Engine) (k : Nat) : (s.updEngineAt e f).lockOf k = s.lockOf k := rfl
@[simp] theorem State.updEngineAt_lineIx (s : State) (e : Nat) (f : Engine → Engine) : (s.updEngineAt e f).lineIx = s.lineIx := rfl
@[simp] theorem State.updEngineAt_lockIx (s : State) (e : Nat) (f : Engine → Engine) : (s.updEngineAt e f).lockIx = s.lockIx := rfl
@[simp] theorem State.updEngineAt_lineAt (s : State) (e : Nat) (f : Engine → Engine) (k : Nat) : (s.updEngineAt e f).lineAt k = s.lineAt k := rfl
@[simp] theorem State.updEngineAt_line (s : State) (e : Nat) (f : Engine → Engine) : (s.updEngineAt e f).line = s.line := rfl
@[simp] theorem State.updEngineAt_rxAvail (s : State) (e : Nat) (f : Engine → Engine) : (s.updEngineAt e f).rxAvail = s.rxAvail := rfl
@[simp] theorem State.updEngineAt_lockHeld (s : State) (e : Nat) (f : Engine → Engine) : (s.updEngineAt e f).lockHeld = s.lockHeld := rfl

@[simp] theorem State.updLineAt_lineOf (s : State) (l : Nat) (f : Line → Line) (k : Nat) : (s.updLineAt l f).lineOf k = s.lineOf k := rfl
@[simp] theorem State.updLineAt_lockOf (s : State) (l : Nat) (f : Line → Line) (k : Nat) : (s.updLineAt l f).lockOf k = s.lockOf k := rfl
@[simp] theorem State.updLineAt_lineIx (s : State) (l : Nat) (f : Line → Line) : (s.updLineAt l f).lineIx = s.lineIx := rfl
@[simp] theorem State.updLineAt_lockIx (s : State) (l : Nat) (f : Line → Line) : (s.updLineAt l f).lockIx = s.lockIx := rfl
@[simp] theorem State.updLineAt_engineAt (s : State) (l : Nat) (f : Line → Line) (k : Nat) : (s.updLineAt l f).engineAt k = s.engineAt k := rfl
@[simp] theorem State.updLineAt_eng (s : State) (l : Nat) (f : Line → Line) : (s.updLineAt l f).eng = s.eng := rfl
@[simp] theorem State.updLineAt_lockHeld (s : State) (l : Nat) (f : Line → Line) : (s.updLineAt l f).lockHeld = s.lockHeld := rfl

@[simp] theorem State.updEngine_lineOf (s : State) (f : Engine → Engine) (k : Nat) : (s.updEngine f).lineOf k = s.lineOf k := rfl
@[simp] theorem State.updEngine_lockOf (s : State) (f : Engine → Engine) (k : Nat) : (s.updEngine f).lockOf k = s.lockOf k := rfl
@[simp] theorem State.updEngine_lineIx (s : State) (f : Engine → Engine) : (s.updEngine f).lineIx = s.lineIx := rfl
@[simp] theorem State.updEngine_lockIx (s : State) (f : Engine → Engine) : (s.updEngine f).lockIx = s.lockIx := rfl
@[simp] theorem State.updEngine_lineAt (s : State) (f : Engine → Engine) (k : Nat) : (s.updEngine f).lineAt k = s.lineAt k := rfl
@[simp] theorem State.updEngine_line (s : State) (f : Engine → Engine) : (s.updEngine f).line = s.line := rfl
@[simp] theorem State.updEngine_rxAvail (s : State) (f : Engine → Engine) : (s.updEngine f).rxAvail = s.rxAvail := rfl
@[simp] theorem State.updEngine_lockHeld (s : State) (f : Engine → Engine) : (s.updEngine f).lockHeld = s.lockHeld := rfl

@[simp] theorem State.updLine_lineOf (s : State) (f : Line → Line) (k : Nat) : (s.updLine f).lineOf k = s.lineOf k := rfl
@[simp] theorem State.updLine_lockOf (s : State) (f : Line → Line) (k : Nat) : (s.updLine f).lockOf k = s.lockOf k := rfl
@[simp] theorem State.updLine_lineIx (s : State) (f : Line → Line) : (s.updLine f).lineIx = s.lineIx := rfl
@[simp] theorem State.updLine_lockIx (s : State) (f : Line → Line) : (s.updLine f).lockIx = s.lockIx := rfl
@[simp] theorem State.updLine_engineAt (s : State) (f : Line → Line) (k : Nat) : (s.updLine f).engineAt k = s.engineAt k := rfl
@[simp] theorem State.updLine_eng (s : State) (f : Line → Line) : (s.updLine f).eng = s.eng := rfl
@[simp] theorem State.updLine_lockHeld (s : State) (f : Line → Line) : (s.updLine f).lockHeld = s.lockHeld := rfl

@[simp] theorem State.setLock_lineOf (s : State) (held : Bool) (k : Nat) : (s.setLock held).lineOf k = s.lineOf k := rfl
@[simp] theorem State.setLock_lockOf (s : State) (held : Bool) (k : Nat) : (s.setLock held).lockOf k = s.lockOf k := rfl
@[simp] theorem State.setLock_lineIx (s : State) (held : Bool) : (s.setLock held).lineIx = s.lineIx := rfl
@[simp] theorem State.setLock_lockIx (s : State) (held : Bool) : (s.setLock held).lockIx = s.lockIx := rfl
@[simp] theorem State.setLock_engineAt (s : State) (held : Bool) (k : Nat) : (s.setLock held).engineAt k = s.engineAt k := rfl
@[simp] theorem State.setLock_eng (s : State) (held : Bool) : (s.setLock held).eng = s.eng := rfl
@[simp] theorem State.setLock_lineAt (s : State) (held : Bool) (k : Nat) : (s.setLock held).lineAt k = s.lineAt k := rfl
@[simp] theorem State.setLock_line (s : State) (held : Bool) : (s.setLock held).line = s.line := rfl
@[simp] theorem State.setLock_rxAvail (s : State) (held : Bool) : (s.setLock held).rxAvail = s.rxAvail := rfl

@[simp] theorem State.activate_lineOf (s : State) (e : Nat) (k : Nat) : (s.activate e).lineOf k = s.lineOf k := rfl
@[simp] theorem State.activate_lockOf (s : State) (e : Nat) (k : Nat) : (s.activate e).lockOf k = s.lockOf k := rfl
@[simp] theorem State.activate_engineAt (s : State) (e : Nat) (k : Nat) : (s.activate e).engineAt k = s.engineAt k := rfl
@[simp] theorem State.activate_lineAt (s : State) (e : Nat) (k : Nat) : (s.activate e).lineAt k = s.lineAt k := rfl

@[simp] theorem State.elapse_lineOf (s : State) (k : Nat) : (s.elapse).lineOf k = s.lineOf k := rfl
@[simp] theorem State.elapse_lockOf (s : State) (k : Nat) : (s.elapse).lockOf k = s.lockOf k := rfl
@[simp] theorem State.elapse_lineIx (s : State) : (s.elapse).lineIx = s.lineIx := rfl
@[simp] theorem State.elapse_lockIx (s : State) : (s.elapse).lockIx = s.lockIx := rfl
@[simp] theorem State.elapse_engineAt (s : State) (k : Nat) : (s.elapse).engineAt k = s.engineAt k := rfl
@[simp] theorem State.elapse_eng (s : State) : (s.elapse).eng = s.eng := rfl
@[simp] theorem State.elapse_lineAt (s : State) (k : Nat) : (s.elapse).lineAt k = s.lineAt k := rfl
@[simp] theorem State.elapse_line (s : State) : (s.elapse).line = s.line := rfl
@[simp] theorem State.elapse_rxAvail (s : State) : (s.elapse).rxAvail = s.rxAvail := rfl
@[simp] theorem State.elapse_lockHeld (s : State) : (s.elapse).lockHeld = s.lockHeld := rfl

@[simp] theorem State.activate_eng (s : State) (e : Nat) : (s.activate e).eng = s.engineAt e := rfl
@[simp] theorem State.activate_lineIx (s : State) (e : Nat) : (s.activate e).lineIx = s.lineOf e := rfl
@[simp] theorem State.activate_line (s : State) (e : Nat) : (s.activate e).line = s.lineAt (s.lineOf e) := rfl
@[simp] theorem State.activate_lockIx (s : State) (e : Nat) : (s.activate e).lockIx = s.lockOf e := rfl

/-! ### Wires survive every update -/

theorem State.wired_iff (s : State) (e : Nat) :
    s.wired e = true ↔ e < s.engines.length ∧ s.lineOf e < s.lines.length ∧ s.lockOf e < s.locks.length := by
  simp [State.wired, and_assoc]

@[simp] theorem State.updEngineAt_wired (s : State) (e : Nat) (f : Engine → Engine) (k : Nat) :
    (s.updEngineAt e f).wired k = s.wired k := by
  rw [Bool.eq_iff_iff, State.wired_iff, State.wired_iff]; simp
@[simp] theorem State.updLineAt_wired (s : State) (l : Nat) (f : Line → Line) (k : Nat) :
    (s.updLineAt l f).wired k = s.wired k := by
  rw [Bool.eq_iff_iff, State.wired_iff, State.wired_iff]; simp
@[simp] theorem State.updEngine_wired (s : State) (f : Engine → Engine) (k : Nat) :
    (s.updEngine f).wired k = s.wired k := by
  rw [Bool.eq_iff_iff, State.wired_iff, State.wired_iff]; simp
@[simp] theorem State.updLine_wired (s : State) (f : Line → Line) (k : Nat) :
    (s.updLine f).wired k = s.wired k := by
  rw [Bool.eq_iff_iff, State.wired_iff, State.wired_iff]; simp
@[simp] theorem State.setLock_wired (s : State) (held : Bool) (k : Nat) :
    (s.setLock held).wired k = s.wired k := by
  rw [Bool.eq_iff_iff, State.wired_iff, State.wired_iff]; simp
@[simp] theorem State.activate_wired (s : State) (e k : Nat) : (s.activate e).wired k = s.wired k := rfl
@[simp] theorem State.elapse_wired (s : State) (k : Nat) : s.elapse.wired k = s.wired k := rfl

end Sys2Proof.Machine
end

