-- ==== Sys2Proof/Laws/Ops.lean ====
section
/-! SUPPORT. What each shared operation does, said once: the provers cite these instead of unfolding. -/

namespace Sys2Proof.Machine

theorem State.executing_wired {s : State} {r : Request} (h : s.executing r) :
    s.active < s.engines.length ∧ s.lineIx < s.lines.length ∧ s.lockIx < s.locks.length :=
  (s.wired_iff s.active).1 h.1

/-! ### Reading after an update -/

theorem State.updEngineAt_engineAt_same (s : State) (e : Nat) (f : Engine → Engine) (h : e < s.engines.length) :
    (s.updEngineAt e f).engineAt e = f (s.engineAt e) := by
  simp [State.engineAt, List.getD_eq_getElem?_getD, h]

theorem State.updEngineAt_engineAt_other (s : State) (e k : Nat) (f : Engine → Engine) (h : k ≠ e) :
    (s.updEngineAt e f).engineAt k = s.engineAt k := by
  simp [State.engineAt, List.getD_eq_getElem?_getD, h.symm]

theorem State.updLineAt_lineAt_same (s : State) (l : Nat) (f : Line → Line) (h : l < s.lines.length) :
    (s.updLineAt l f).lineAt l = f (s.lineAt l) := by
  simp [State.lineAt, List.getD_eq_getElem?_getD, h]

theorem State.updLineAt_lineAt_other (s : State) (l k : Nat) (f : Line → Line) (h : k ≠ l) :
    (s.updLineAt l f).lineAt k = s.lineAt k := by
  simp [State.lineAt, List.getD_eq_getElem?_getD, h.symm]

theorem State.updEngine_eng (s : State) (f : Engine → Engine) (h : s.active < s.engines.length) :
    (s.updEngine f).eng = f s.eng := s.updEngineAt_engineAt_same s.active f h

theorem State.updLine_line (s : State) (f : Line → Line) (h : s.lineIx < s.lines.length) :
    (s.updLine f).line = f s.line := s.updLineAt_lineAt_same s.lineIx f h

theorem State.setLock_lockHeld (s : State) (held : Bool) (h : s.lockIx < s.locks.length) :
    (s.setLock held).lockHeld = held := by
  simp [State.lockHeld, List.getD_eq_getElem?_getD, h]

/-- Two changes of the line are one. -/
theorem State.updLine_updLine (s : State) (f g : Line → Line) :
    (s.updLine f).updLine g = s.updLine fun l => g (f l) := by
  have h : ∀ (ls : List Line) (n : Nat), (ls.modify n f).modify n g = ls.modify n fun l => g (f l) := by
    intro ls n
    apply List.ext_getElem?
    intro i
    by_cases hi : n = i
    · simp [hi]; rfl
    · simp [hi]
  show ({ s with lines := (s.lines.modify s.lineIx f).modify s.lineIx g } : State) = _
  rw [h]; rfl

/-- Two changes of the engine are one. -/
theorem State.updEngine_updEngine (s : State) (f g : Engine → Engine) :
    (s.updEngine f).updEngine g = s.updEngine fun e => g (f e) := by
  have h : ∀ (es : List Engine) (n : Nat), (es.modify n f).modify n g = es.modify n fun e => g (f e) := by
    intro es n
    apply List.ext_getElem?
    intro i
    by_cases hi : n = i
    · simp [hi]; rfl
    · simp [hi]
  show ({ s with engines := (s.engines.modify s.active f).modify s.active g } : State) = _
  rw [h]; rfl

/-! ### Responses -/

theorem State.respond_of_cur (s : State) (m : List Byte) (c : Option Cause) {r : Request} (h : s.eng.cur = some r) :
    s.respond m c = { s.updEngine (fun e => { e with cur := none }) with
      responses := s.responses ++ [⟨s.active, r.host, m, c⟩] } := by
  simp [State.respond, h]

theorem State.respond_of_none (s : State) (m : List Byte) (c : Option Cause) (h : s.eng.cur = none) :
    s.respond m c = s := by
  simp [State.respond, h]

@[simp] theorem State.respond_platform (s : State) (m : List Byte) (c : Option Cause) :
    (s.respond m c).platform = s.platform := by unfold State.respond; split <;> rfl
@[simp] theorem State.respond_lines (s : State) (m : List Byte) (c : Option Cause) :
    (s.respond m c).lines = s.lines := by unfold State.respond; split <;> rfl
@[simp] theorem State.respond_locks (s : State) (m : List Byte) (c : Option Cause) :
    (s.respond m c).locks = s.locks := by unfold State.respond; split <;> rfl
@[simp] theorem State.respond_active (s : State) (m : List Byte) (c : Option Cause) :
    (s.respond m c).active = s.active := by unfold State.respond; split <;> rfl
@[simp] theorem State.respond_agenda (s : State) (m : List Byte) (c : Option Cause) :
    (s.respond m c).agenda = s.agenda := by unfold State.respond; split <;> rfl
@[simp] theorem State.respond_tick (s : State) (m : List Byte) (c : Option Cause) :
    (s.respond m c).tick = s.tick := by unfold State.respond; split <;> rfl

/-- Whether or not someone is answered, the engines differ from before only in that engine's `CUR`. -/
theorem State.respond_engines (s : State) (m : List Byte) (c : Option Cause) :
    (s.respond m c).engines = s.engines ∨
      (s.respond m c).engines = s.engines.modify s.active fun e => { e with cur := none } := by
  unfold State.respond; split
  · exact .inr rfl
  · exact .inl rfl

/-- Whether or not someone is answered, at most this one message is added. -/
theorem State.respond_responses (s : State) (m : List Byte) (c : Option Cause) :
    (s.respond m c).responses = s.responses ∨
      ∃ h, (s.respond m c).responses = s.responses ++ [⟨s.active, h, m, c⟩] := by
  unfold State.respond; split
  · exact .inr ⟨_, rfl⟩
  · exact .inl rfl

/-! ### How a request ends -/

theorem State.sameElsewhere_refl (s : State) : s.SameElsewhere s :=
  ⟨rfl, rfl, rfl, rfl, fun _ _ => rfl, fun _ _ => rfl, fun _ _ => rfl⟩

/-- Writing the engine, then its line, then its lock, and answering: all that any request does at its end. -/
theorem State.ends_of_writes {s : State} {r : Request} (h : s.executing r) (f : Engine → Engine) (g : Line → Line)
    (held : Bool) (m : List Byte) (c : Option Cause) (hf : (f s.eng).cur = some r) :
    s.Ends ((((s.updEngine f).updLine g).setLock held).respond m c) r m c (f s.eng) (g s.line) held := by
  obtain ⟨he, hl, hk⟩ := State.executing_wired h
  have hcur : (((s.updEngine f).updLine g).setLock held).eng.cur = some r := by
    simp [State.updEngine_eng s f he, hf]
  rw [State.respond_of_cur _ m c hcur]
  refine ⟨⟨rfl, rfl, rfl, rfl, ?_, ?_, ?_⟩, ?_, ?_, ?_, rfl⟩
  · intro e hne; simp [hne.symm]
  · intro l hne; simp [hne.symm]
  · intro k hne; simp [hne.symm]
  · show State.eng (State.updEngine _ _) = _
    rw [State.updEngine_eng _ _ (by simpa using he)]
    simp [State.updEngine_eng s f he]
  · show ((s.updEngine f).updLine g).line = g s.line
    rw [State.updLine_line (s.updEngine f) g (by simpa using hl)]; simp
  · show (((s.updEngine f).updLine g).setLock held).lockHeld = held
    exact State.setLock_lockHeld _ _ (by simpa using hk)

/-- A lock written with the value it has is as before. -/
theorem State.setLock_self (s : State) : s.setLock s.lockHeld = s := by
  have : s.locks.set s.lockIx s.lockHeld = s.locks := by
    apply List.ext_getElem? ; intro i
    by_cases hi : i = s.lockIx
    · subst hi
      by_cases hl : s.lockIx < s.locks.length
      · simp [State.lockHeld, hl]
      · simp [hl]
    · simp [Ne.symm hi]
  simp [State.setLock, this]

/-- Writing the engine and its line, and answering. -/
theorem State.ends_of_engine_line {s : State} {r : Request} (h : s.executing r) (f : Engine → Engine)
    (g : Line → Line) (m : List Byte) (c : Option Cause) (hf : (f s.eng).cur = some r) :
    s.Ends (((s.updEngine f).updLine g).respond m c) r m c (f s.eng) (g s.line) s.lockHeld := by
  have := State.ends_of_writes h f g s.lockHeld m c hf
  rwa [show s.lockHeld = ((s.updEngine f).updLine g).lockHeld from rfl, State.setLock_self] at this

theorem State.updEngine_id (s : State) : (s.updEngine fun e => e) = s := by
  have : s.engines.modify s.active (fun e => e) = s.engines := List.modify_id _ _
  simp [State.updEngine, State.updEngineAt, this]

theorem State.updLine_id (s : State) : (s.updLine fun l => l) = s := by
  have : s.lines.modify s.lineIx (fun l => l) = s.lines := List.modify_id _ _
  simp [State.updLine, State.updLineAt, this]

/-- Answering and writing nothing else: the shape of the reading requests and of every failure. -/
theorem State.ends_of_respond {s : State} {r : Request} (h : s.executing r) (m : List Byte) (c : Option Cause) :
    s.Ends (s.respond m c) r m c s.eng s.line s.lockHeld := by
  have := State.ends_of_engine_line h (fun e => e) (fun l => l) m c h.2
  rwa [State.updEngine_id, State.updLine_id] at this

theorem State.succeed_answers {s : State} {r : Request} (h : s.executing r) (payload : List Byte) :
    s.Answers (s.succeed payload) r payload := State.ends_of_respond h _ _

theorem State.raiseFail_fails {s : State} {r : Request} (h : s.executing r) (c : Cause) :
    s.Fails (s.raiseFail c) r c := State.ends_of_respond h _ _

/-! ### Frames -/

theorem legalId_iff (id : Byte) : legalId id = true ↔ id.toNat ≤ 239 ∨ id = 0xFF#8 := by
  unfold legalId
  rw [Bool.or_eq_true, decide_eq_true_iff, beq_iff_eq]
  rfl

/-- The response that carries a frame (R81). -/
theorem successMessage_framePayload (id cmd opt : Byte) (params : List Byte) :
    successMessage (framePayload (frameOf id cmd opt params))
      = 0x01#8 :: byteOf (8 + params.length) :: frameOf id cmd opt params := by
  have h : (frameOf id cmd opt params).length = 8 + params.length := by
    simp [frameOf, frameWith, frameHead, bytes16]; omega
  simp [successMessage, framePayload, resultOk, h]

/-- The whole of a frame being sent (R120 to R123). -/
theorem State.sendFrame_eq {s : State} {r : Request} (h : s.executing r) (id cmd opt : Byte) (params : List Byte) :
    s.sendFrame id cmd opt params =
      (s.updLine fun l =>
        { baudIdx := s.eng.cfgBaudIdx.setWidth 3, timeout := s.eng.cfgTimeout, rxq := [],
          out := l.out ++ [⟨s.lineIx, s.eng.cfgBaudIdx.setWidth 3, frameWith s.eng.table id cmd opt params⟩] }).respond
        (successMessage (framePayload (frameWith s.eng.table id cmd opt params))) none := by
  have hl := (State.executing_wired h).2.1
  simp only [State.sendFrame, State.lineApply, State.rxFlush, State.lineSend, State.updLine_updLine]
  rw [State.updLine_line _ _ hl]
  rfl

theorem State.sendFrame_sends {s : State} {r : Request} (h : s.executing r) (ht : s.eng.table = crcTable)
    (id cmd opt : Byte) (params : List Byte) : s.Sends (s.sendFrame id cmd opt params) r id cmd opt params := by
  have e3 : ∀ b : Byte, b.extractLsb' 0 3 = b.setWidth 3 := by intro b; simp [BitVec.extractLsb']
  have hm := successMessage_framePayload id cmd opt params
  have := State.ends_of_engine_line h (fun e => e) (fun l =>
        { baudIdx := s.eng.cfgBaudIdx.setWidth 3, timeout := s.eng.cfgTimeout, rxq := [],
          out := l.out ++ [⟨s.lineIx, s.eng.cfgBaudIdx.setWidth 3, frameOf id cmd opt params⟩] })
        (successMessage (framePayload (frameOf id cmd opt params))) none h.2
  rw [State.updEngine_id, hm] at this
  rw [State.sendFrame_eq h, ht]
  unfold State.Sends
  rw [e3, ← hm]
  rw [← hm] at this
  exact this

theorem State.acceptFrame_accepts {s : State} {r : Request} (h : s.executing r) (ht : s.eng.table = crcTable)
    (id cmd opt : Byte) (params : List Byte) : s.Accepts (s.acceptFrame id cmd opt params) r id cmd opt params := by
  have hm := successMessage_framePayload id cmd opt params
  have := State.ends_of_engine_line h (fun e => { e with lastStatus := opt }) (fun l => l)
    (successMessage (framePayload (frameOf id cmd opt params))) none h.2
  rw [State.updLine_id] at this
  unfold State.Accepts State.acceptFrame
  rw [ht, ← hm]
  exact this

/-- A transmission sends where id and count are legal (R120). -/
theorem State.transmit_legal {s : State} {id : Byte} {params : List Byte} (cmd opt : Byte)
    (hid : id.toNat ≤ 239 ∨ id = 0xFF#8) (hn : params.length ≤ 247) :
    s.transmit id cmd opt params = s.sendFrame id cmd opt params := by
  have h1 := (legalId_iff id).2 hid
  simp [State.transmit, h1, Config.maxParams]; omega

/-- A transmission fails where id or count is not (R124). -/
theorem State.transmit_illegal {s : State} {id : Byte} {params : List Byte} (cmd opt : Byte)
    (h : ¬((id.toNat ≤ 239 ∨ id = 0xFF#8) ∧ params.length ≤ 247)) :
    s.transmit id cmd opt params = s.raiseFail .validation := by
  rw [← legalId_iff] at h
  unfold State.transmit
  cases h1 : legalId id
  · simp
  · simp [h1] at h
    simp [Config.maxParams]; omega

theorem State.carryFrame_rx {s : State} {r : Request} (h : s.eng.cur = some r) (hr : r.isRx = true) (id cmd opt : Byte)
    (params : List Byte) : s.carryFrame id cmd opt params = s.acceptFrame id cmd opt params := by
  simp [State.carryFrame, h, hr]

theorem State.carryFrame_tx {s : State} {r : Request} (h : s.eng.cur = some r) (hr : r.isRx = false) (id cmd opt : Byte)
    (params : List Byte) : s.carryFrame id cmd opt params = s.transmit id cmd opt params := by
  simp [State.carryFrame, h, hr]

end Sys2Proof.Machine
end

