-- ==== Sys2Proof/Laws/Exec.lean ====
section
/-! SUPPORT. Everything a meaning, a receiver step and a step of the machine can do, each said once. -/

namespace Sys2Proof.Machine

theorem success_wellFormed (e h : Nat) (payload : List Byte) :
    Response.WellFormed ⟨e, h, successMessage payload, none⟩ := .inl ⟨payload, rfl, rfl⟩

theorem failure_wellFormed (e h : Nat) (c : Cause) : Response.WellFormed ⟨e, h, failureMessage, some c⟩ :=
  .inr ⟨rfl, rfl⟩

/-- What a meaning can do to the state, whatever the instruction. -/
inductive State.Effect (s : State) : State → Prop where
  /-- It answers with success and writes nothing else. -/
  | read (payload : List Byte) : s.Effect (s.succeed payload)
  /-- It fails and writes nothing else. -/
  | fail (c : Cause) : s.Effect (s.raiseFail c)
  /-- SETBAUD (R170). -/
  | baud (idx : Byte) (h : idx.toNat ≤ 7) :
      s.Effect (((s.updEngine fun e => { e with cfgBaudIdx := idx }).updLine
        fun l => { l with baudIdx := idx.setWidth 3 }).succeed [])
  /-- SETTMO (R171). -/
  | timeout (t : Word32) :
      s.Effect (((s.updEngine fun e => { e with cfgTimeout := t }).updLine fun l => { l with timeout := t }).succeed [])
  /-- LOCKTRY or UNLOCK (R175, R176). -/
  | lock (held : Bool) : s.Effect ((s.setLock held).succeed [])
  /-- The start of an RX (R140). -/
  | start : s.Effect ((s.updEngine fun e => { e with phase := .rxHdr, acc := [] }).startChunk Config.hdrLen)
  /-- A frame is sent (R120). -/
  | send (id cmd opt : Byte) (params : List Byte) (hid : legalId id = true) (hn : params.length ≤ Config.maxParams) :
      s.Effect (s.sendFrame id cmd opt params)
  /-- A frame is accepted by an RX (R145). -/
  | accept (id cmd opt : Byte) (params : List Byte) (h : s.eng.cur.any Request.isRx = true) :
      s.Effect (s.acceptFrame id cmd opt params)

theorem State.transmit_effect (s : State) (id cmd opt : Byte) (params : List Byte) :
    s.Effect (s.transmit id cmd opt params) := by
  unfold State.transmit
  split
  · exact .fail _
  · split
    · exact .fail _
    · rename_i h _
      exact .send _ _ _ _ (by simpa using h) (by omega)

theorem State.carryFrame_effect (s : State) (id cmd opt : Byte) (params : List Byte) :
    s.Effect (s.carryFrame id cmd opt params) := by
  unfold State.carryFrame
  split
  · exact .accept _ _ _ _ ‹_›
  · exact s.transmit_effect _ _ _ _

/-- Every meaning answers a next state, with one of those effects. -/
theorem exec_effect (i : Instr) (s : State) : ∃ t, exec i s = .next t ∧ s.Effect t := by
  cases i with
  | crc data => exact ⟨_, rfl, .read _⟩
  | tx id cmd opt params => exact ⟨_, rfl, s.transmit_effect _ _ _ _⟩
  | rx => exact ⟨_, rfl, .start⟩
  | setBaud idx =>
    by_cases h : idx.toNat ≤ 7
    · exact ⟨_, by simp [exec, execSetBaud, h], .baud idx h⟩
    · exact ⟨_, by simp [exec, execSetBaud, h], .fail .validation⟩
  | setTmo t => exact ⟨_, rfl, .timeout t⟩
  | getBaud => exact ⟨_, rfl, .read _⟩
  | getTmo => exact ⟨_, rfl, .read _⟩
  | getStat => exact ⟨_, rfl, .read _⟩
  | lockTry =>
    cases h : s.lockHeld
    · exact ⟨_, by simp [exec, execLockTry, h], .lock true⟩
    · exact ⟨_, by simp [exec, execLockTry, h], .fail .lockBusy⟩
  | unlock =>
    cases h : s.lockHeld
    · exact ⟨_, by simp [exec, execUnlock, h], .fail .lockFree⟩
    · exact ⟨_, by simp [exec, execUnlock, h], .lock false⟩
  | rxAvail => exact ⟨_, rfl, .read _⟩
  | tblRd i => exact ⟨_, rfl, .read _⟩
  | memRead id opt params => exact ⟨_, rfl, s.carryFrame_effect _ _ _ _⟩
  | memWrite id opt params => exact ⟨_, rfl, s.carryFrame_effect _ _ _ _⟩
  | load id opt params => exact ⟨_, rfl, s.carryFrame_effect _ _ _ _⟩
  | save id opt params => exact ⟨_, rfl, s.carryFrame_effect _ _ _ _⟩
  | motorRead id opt params => exact ⟨_, rfl, s.carryFrame_effect _ _ _ _⟩
  | motorWrite id opt params => exact ⟨_, rfl, s.carryFrame_effect _ _ _ _⟩
  | systemRead id opt params => exact ⟨_, rfl, s.carryFrame_effect _ _ _ _⟩
  | systemWrite id opt params => exact ⟨_, rfl, s.carryFrame_effect _ _ _ _⟩
  | reboot id opt params => exact ⟨_, rfl, s.carryFrame_effect _ _ _ _⟩
  | factoryReset id opt params => exact ⟨_, rfl, s.carryFrame_effect _ _ _ _⟩
  | systemInit id opt params => exact ⟨_, rfl, s.carryFrame_effect _ _ _ _⟩
  | memReadAck id status params => exact ⟨_, rfl, s.carryFrame_effect _ _ _ _⟩
  | memWriteAck id status params => exact ⟨_, rfl, s.carryFrame_effect _ _ _ _⟩
  | loadAck id status params => exact ⟨_, rfl, s.carryFrame_effect _ _ _ _⟩
  | saveAck id status params => exact ⟨_, rfl, s.carryFrame_effect _ _ _ _⟩
  | motorReadAck id status params => exact ⟨_, rfl, s.carryFrame_effect _ _ _ _⟩
  | motorWriteAck id status params => exact ⟨_, rfl, s.carryFrame_effect _ _ _ _⟩
  | systemReadAck id status params => exact ⟨_, rfl, s.carryFrame_effect _ _ _ _⟩
  | systemWriteAck id status params => exact ⟨_, rfl, s.carryFrame_effect _ _ _ _⟩
  | rebootAck id status params => exact ⟨_, rfl, s.carryFrame_effect _ _ _ _⟩
  | factoryResetAck id status params => exact ⟨_, rfl, s.carryFrame_effect _ _ _ _⟩

/-- A wire row's meaning is its frame being carried (R74). -/
theorem exec_wire {i : Instr} {w : WireFields} (h : i.wireFields = some w) (s : State) :
    exec i s = .next (s.carryFrame w.id w.cmd w.opt w.params) := by
  cases i <;> simp [Instr.wireFields] at h <;> subst h <;> rfl

/-- The wire row of a command byte has that byte and those operands. -/
theorem wireInstr_wireFields {cmd id opt : Byte} {params : List Byte} {i : Instr}
    (h : wireInstr cmd id opt params = some i) : i.wireFields = some ⟨cmd, id, opt, params⟩ := by
  have key : ∀ n : Nat, cmd.toNat = n → n < 256 → cmd = BitVec.ofNat 8 n := by
    intro n hn _; apply BitVec.eq_of_toNat_eq; simp; omega
  unfold wireInstr at h
  split at h <;> first
    | (cases h; rename_i hc; rw [key _ hc (by decide)]; rfl)
    | cases h

/-! ### The receiver -/

/-- What the verdict can be: a failure, or the acceptance of a well-formed frame (R140, R145, R146). -/
theorem State.verdict_cases (s : State) :
    (∃ c, s.verdict = .moved (s.raiseFail c)) ∨
      (frameWellFormedWith s.eng.table s.eng.acc = true ∧
        s.verdict = .accepted (frameId s.eng.acc) (frameCmd s.eng.acc) (frameOpt s.eng.acc) (frameParams s.eng.acc) s) := by
  unfold State.verdict
  dsimp only
  split
  · exact .inl ⟨_, rfl⟩
  · split
    · exact .inl ⟨_, rfl⟩
    · split
      · exact .inl ⟨_, rfl⟩
      · split
        · exact .inl ⟨_, rfl⟩
        · split
          · exact .inl ⟨_, rfl⟩
          · rename_i h1 h2 h3 h4 h5
            refine .inr ⟨?_, rfl⟩
            simp [frameWellFormedWith] at *
            exact ⟨⟨⟨by omega, h3⟩, by omega⟩, h5⟩

/-- What one engine step of an RX can do (R141, R143, R144). -/
theorem State.rxAdvance_cases (s : State) :
    (s.eng.chunkReturned = true ∧ s.rxAdvance = s.chunkDone) ∨
      (s.eng.chunkReturned = false ∧ ∃ b rest, s.line.rxq = b :: rest ∧ s.rxAdvance = .moved (s.rxTake b rest)) ∨
      (s.eng.chunkReturned = false ∧ s.line.rxq = [] ∧ s.rxAdvance = .moved s) := by
  unfold State.rxAdvance Engine.chunkReturned
  by_cases h1 : s.eng.want = 0
  · exact .inl ⟨by simp [h1], by simp [h1]⟩
  by_cases h2 : s.eng.timer = .expired
  · exact .inl ⟨by simp [h2], by simp [h1, h2]⟩
  cases h3 : s.line.rxq with
  | nil => exact .inr (.inr ⟨by simp [h1, h2], rfl, by simp [h1, h2]⟩)
  | cons b rest => exact .inr (.inl ⟨by simp [h1, h2], b, rest, rfl, by simp [h1, h2]⟩)

/-! ### The step -/

/-- A step is the next event happening (R62). -/
theorem step_eq (s : State) : step s = s.elapse.perform s.nextEvent := rfl

/-- What an engine's move can do: nothing, dispatch its oldest request, or go on with an RX. -/
theorem State.engineMove_cases (s : State) :
    (s.eng.phase = .idle ∧ (s.eng.cur ≠ none ∨ s.eng.reqq = []) ∧ s.engineMove = .next s) ∨
      (∃ r rest, s.eng.phase = .idle ∧ s.eng.cur = none ∧ s.eng.reqq = r :: rest ∧
        s.engineMove = s.dispatch r rest) ∨
      (s.eng.phase ≠ .idle ∧ s.engineMove = s.rxAdvance.conclude) := by
  unfold State.engineMove
  cases hp : s.eng.phase with
  | idle =>
    cases hc : s.eng.cur with
    | some r => exact .inl ⟨rfl, .inl (by simp), rfl⟩
    | none =>
      cases hq : s.eng.reqq with
      | nil => exact .inl ⟨rfl, .inr rfl, rfl⟩
      | cons r rest => exact .inr (.inl ⟨r, rest, rfl, rfl, rfl, rfl⟩)
  | rxHdr => exact .inr (.inr ⟨by simp, rfl⟩)
  | rxBody => exact .inr (.inr ⟨by simp, rfl⟩)

end Sys2Proof.Machine
end

