-- ==== Sys2Proof/Laws/PerInstr.lean ====
section
/-! SUPPORT. For each instruction: its encoding holds its opcode-table row's match value at the row's match byte,
byte 0 of a host request (R81), byte 4 of a frame (R74). -/

namespace Sys2Proof.Laws.EncodingMatchesTable

/-- The table's match byte (first) and match value (second) of an instruction's row. -/
def row : Instr → Nat × Byte
  | .crc _ => (0, 0x01#8)
  | .tx _ _ _ _ => (0, 0x02#8)
  | .rx => (0, 0x03#8)
  | .setBaud _ => (0, 0x04#8)
  | .setTmo _ => (0, 0x05#8)
  | .getBaud => (0, 0x06#8)
  | .getTmo => (0, 0x07#8)
  | .getStat => (0, 0x08#8)
  | .lockTry => (0, 0x09#8)
  | .unlock => (0, 0x0A#8)
  | .rxAvail => (0, 0x0B#8)
  | .tblRd _ => (0, 0x0C#8)
  | .memRead _ _ _ => (4, 0xA0#8)
  | .memWrite _ _ _ => (4, 0xA1#8)
  | .load _ _ _ => (4, 0xA2#8)
  | .save _ _ _ => (4, 0xA3#8)
  | .motorRead _ _ _ => (4, 0xA4#8)
  | .motorWrite _ _ _ => (4, 0xA5#8)
  | .systemRead _ _ _ => (4, 0xBB#8)
  | .systemWrite _ _ _ => (4, 0xBC#8)
  | .reboot _ _ _ => (4, 0xBD#8)
  | .factoryReset _ _ _ => (4, 0xBE#8)
  | .systemInit _ _ _ => (4, 0xBF#8)
  | .memReadAck _ _ _ => (4, 0x20#8)
  | .memWriteAck _ _ _ => (4, 0x21#8)
  | .loadAck _ _ _ => (4, 0x22#8)
  | .saveAck _ _ _ => (4, 0x23#8)
  | .motorReadAck _ _ _ => (4, 0x24#8)
  | .motorWriteAck _ _ _ => (4, 0x25#8)
  | .systemReadAck _ _ _ => (4, 0x3B#8)
  | .systemWriteAck _ _ _ => (4, 0x3C#8)
  | .rebootAck _ _ _ => (4, 0x3D#8)
  | .factoryResetAck _ _ _ => (4, 0x3E#8)

/-- The instruction's encoding carries its row's match value at its row's match byte. -/
def Statement (i : Instr) : Prop := Machine.byteAt (encode i) (row i).1 = (row i).2

theorem crc (data : List Byte) : Statement (.crc data) := rfl
theorem tx (id cmd opt : Byte) (params : List Byte) : Statement (.tx id cmd opt params) := rfl
theorem rx : Statement (.rx) := rfl
theorem setBaud (idx : Byte) : Statement (.setBaud idx) := rfl
theorem setTmo (t : Word32) : Statement (.setTmo t) := rfl
theorem getBaud : Statement (.getBaud) := rfl
theorem getTmo : Statement (.getTmo) := rfl
theorem getStat : Statement (.getStat) := rfl
theorem lockTry : Statement (.lockTry) := rfl
theorem unlock : Statement (.unlock) := rfl
theorem rxAvail : Statement (.rxAvail) := rfl
theorem tblRd (i : Byte) : Statement (.tblRd i) := rfl
theorem memRead (id opt : Byte) (params : List Byte) : Statement (.memRead id opt params) := rfl
theorem memWrite (id opt : Byte) (params : List Byte) : Statement (.memWrite id opt params) := rfl
theorem load (id opt : Byte) (params : List Byte) : Statement (.load id opt params) := rfl
theorem save (id opt : Byte) (params : List Byte) : Statement (.save id opt params) := rfl
theorem motorRead (id opt : Byte) (params : List Byte) : Statement (.motorRead id opt params) := rfl
theorem motorWrite (id opt : Byte) (params : List Byte) : Statement (.motorWrite id opt params) := rfl
theorem systemRead (id opt : Byte) (params : List Byte) : Statement (.systemRead id opt params) := rfl
theorem systemWrite (id opt : Byte) (params : List Byte) : Statement (.systemWrite id opt params) := rfl
theorem reboot (id opt : Byte) (params : List Byte) : Statement (.reboot id opt params) := rfl
theorem factoryReset (id opt : Byte) (params : List Byte) : Statement (.factoryReset id opt params) := rfl
theorem systemInit (id opt : Byte) (params : List Byte) : Statement (.systemInit id opt params) := rfl
theorem memReadAck (id status : Byte) (params : List Byte) : Statement (.memReadAck id status params) := rfl
theorem memWriteAck (id status : Byte) (params : List Byte) : Statement (.memWriteAck id status params) := rfl
theorem loadAck (id status : Byte) (params : List Byte) : Statement (.loadAck id status params) := rfl
theorem saveAck (id status : Byte) (params : List Byte) : Statement (.saveAck id status params) := rfl
theorem motorReadAck (id status : Byte) (params : List Byte) : Statement (.motorReadAck id status params) := rfl
theorem motorWriteAck (id status : Byte) (params : List Byte) : Statement (.motorWriteAck id status params) := rfl
theorem systemReadAck (id status : Byte) (params : List Byte) : Statement (.systemReadAck id status params) := rfl
theorem systemWriteAck (id status : Byte) (params : List Byte) : Statement (.systemWriteAck id status params) := rfl
theorem rebootAck (id status : Byte) (params : List Byte) : Statement (.rebootAck id status params) := rfl
theorem factoryResetAck (id status : Byte) (params : List Byte) : Statement (.factoryResetAck id status params) := rfl

end Sys2Proof.Laws.EncodingMatchesTable
end

