-- ==== Sys2Proof/Laws/Receiver.lean ====
section
/-! SUPPORT. What an engine's step is in each of its situations, and what the receiver does at the end of a chunk:
one equation for each case. -/

namespace Sys2Proof.Machine

/-! ### The engine's step -/

/-- The step of a wired engine is its move. -/
theorem step_engine {s : State} {e : Nat} (h : s.nextEvent = .engine e) (hw : s.wired e = true) :
    step s = (s.elapse.activate e).engineMove := by
  have he := ((s.wired_iff e).1 hw).1
  rw [step_eq, h]
  simp [State.perform, State.engineStep, he, hw]

/-- An engine about to start a request dispatches it. -/
theorem step_start {s : State} {e : Nat} {r : Request} {rest : List Request} (h : s.AboutToStart e r rest) :
    step s = (s.elapse.activate e).dispatch r rest := by
  rw [step_engine h.event h.wired]
  simp [State.engineMove, h.phase, h.cur, h.reqq]

/-- A dispatched message that decodes runs its instruction as the row it carries. -/
theorem State.dispatch_ok {s : State} {r : Request} {rest : List Request} {i : Instr}
    (h : decodeRequest r.message = .ok i) :
    s.dispatch r rest = exec i.carried (s.updEngine fun e => { e with reqq := rest, cur := some r }) := by
  simp only [State.dispatch, h]

/-- A dispatched message that does not decode fails. -/
theorem State.dispatch_error {s : State} {r : Request} {rest : List Request} {x : DecodeError}
    (h : decodeRequest r.message = .error x) :
    s.dispatch r rest = .next ((s.updEngine fun e => { e with reqq := rest, cur := some r }).raiseFail .illegalRequest) := by
  simp only [State.dispatch, h]

/-- The state in which a request has just become `CUR` executes it. -/
theorem State.begun_executing {s : State} {e : Nat} {r : Request} {rest : List Request}
    (h : s.AboutToStart e r rest) : (s.begun e r rest).executing r := by
  have he := ((s.wired_iff e).1 h.wired).1
  refine ⟨by simp [State.begun, h.wired], ?_⟩
  unfold State.begun
  rw [State.updEngine_eng _ _ (by simpa using he)]

/-- An engine in an RX goes on with it. -/
theorem step_receive {s : State} {e : Nat} {r : Request} (h : s.AboutToReceive e r) :
    step s = (s.elapse.activate e).rxAdvance.conclude := by
  rw [step_engine h.event h.wired]
  have := h.phase
  unfold State.engineMove
  simp only [State.activate_eng, State.elapse_engineAt]
  split <;> simp_all

/-- That engine executes the RX. -/
theorem State.receive_executing {s : State} {e : Nat} {r : Request} (h : s.AboutToReceive e r) :
    (s.elapse.activate e).executing r := ⟨by simp [h.wired], by simp [h.cur]⟩

/-! ### The end of a chunk -/

theorem State.rxAdvance_returned {s : State} (h : s.eng.chunkReturned = true) : s.rxAdvance = s.chunkDone := by
  rcases s.rxAdvance_cases with ⟨_, h2⟩ | ⟨h1, _⟩ | ⟨h1, _⟩
  · exact h2
  · simp [h] at h1
  · simp [h] at h1

theorem State.rxAdvance_take {s : State} (h : s.eng.chunkReturned = false) {b : Byte} {rest : List Byte}
    (hq : s.line.rxq = b :: rest) : s.rxAdvance = .moved (s.rxTake b rest) := by
  rcases s.rxAdvance_cases with ⟨h1, _⟩ | ⟨_, b', rest', h2, h3⟩ | ⟨_, h2, _⟩
  · simp [h] at h1
  · rw [hq] at h2; cases h2; exact h3
  · rw [hq] at h2; cases h2

theorem State.rxAdvance_wait {s : State} (h : s.eng.chunkReturned = false) (hq : s.line.rxq = []) :
    s.rxAdvance = .moved s := by
  rcases s.rxAdvance_cases with ⟨h1, _⟩ | ⟨_, b', rest', h2, _⟩ | ⟨_, _, h3⟩
  · simp [h] at h1
  · rw [hq] at h2; cases h2
  · exact h3

/-- A whole header that declares more than 6 bytes starts the remainder (R144). -/
theorem State.chunkDone_remainder {s : State} (hp : s.eng.phase = .rxHdr) (ha : s.eng.acc.length = 6)
    (hl : 6 < declaredLength s.eng.acc) :
    s.chunkDone = .moved ((s.updEngine fun e => { e with phase := .rxBody }).startChunk
      (declaredLength s.eng.acc - s.eng.acc.length)) := by
  unfold State.chunkDone
  rw [hp]
  exact if_pos ⟨ha, hl⟩

/-- Any other header ends the reads (R143, R144). -/
theorem State.chunkDone_header {s : State} (hp : s.eng.phase = .rxHdr)
    (h : ¬(s.eng.acc.length = 6 ∧ 6 < declaredLength s.eng.acc)) : s.chunkDone = s.rxFinish := by
  unfold State.chunkDone
  rw [hp]
  exact if_neg h

/-- A complete frame, or an empty queue, ends the reads of the remainder (R144). -/
theorem State.chunkDone_over {s : State} (hp : s.eng.phase = .rxBody)
    (h : s.eng.acc.length = declaredLength s.eng.acc ∨ s.rxAvail = 0) : s.chunkDone = s.rxFinish := by
  unfold State.chunkDone
  rw [hp]
  exact if_pos h

/-- Otherwise another chunk starts (R144). -/
theorem State.chunkDone_again {s : State} (hp : s.eng.phase = .rxBody)
    (h : ¬(s.eng.acc.length = declaredLength s.eng.acc ∨ s.rxAvail = 0)) :
    s.chunkDone = .moved (s.startChunk (declaredLength s.eng.acc - s.eng.acc.length)) := by
  unfold State.chunkDone
  rw [hp]
  exact if_neg h

/-- What the end of a chunk can be. -/
theorem State.chunkDone_cases (s : State) :
    (s.eng.phase = .idle ∧ s.chunkDone = .moved s) ∨
      (s.eng.phase = .rxHdr ∧ s.eng.acc.length = 6 ∧ 6 < declaredLength s.eng.acc ∧
        s.chunkDone = .moved ((s.updEngine fun e => { e with phase := .rxBody }).startChunk
          (declaredLength s.eng.acc - s.eng.acc.length))) ∨
      (s.eng.phase = .rxBody ∧ s.eng.acc.length ≠ declaredLength s.eng.acc ∧ s.rxAvail ≠ 0 ∧
        s.chunkDone = .moved (s.startChunk (declaredLength s.eng.acc - s.eng.acc.length))) ∨
      (s.eng.phase ≠ .idle ∧ s.chunkDone = s.rxFinish) := by
  cases hp : s.eng.phase with
  | idle => exact .inl ⟨rfl, by unfold State.chunkDone; rw [hp]⟩
  | rxHdr =>
    by_cases h : s.eng.acc.length = 6 ∧ 6 < declaredLength s.eng.acc
    · exact .inr (.inl ⟨rfl, h.1, h.2, State.chunkDone_remainder hp h.1 h.2⟩)
    · exact .inr (.inr (.inr ⟨by simp, State.chunkDone_header hp h⟩))
  | rxBody =>
    by_cases h : s.eng.acc.length = declaredLength s.eng.acc ∨ s.rxAvail = 0
    · exact .inr (.inr (.inr ⟨by simp, State.chunkDone_over hp h⟩))
    · refine .inr (.inr (.inl ⟨rfl, fun x => h (.inl x), fun x => h (.inr x), State.chunkDone_again hp h⟩))

/-- `readsOver` is exactly when the receiver's next move is its verdict. -/
theorem State.rxAdvance_readsOver {s : State} (h : s.readsOver = true) : s.rxAdvance = s.rxFinish := by
  unfold State.readsOver at h
  rw [Bool.and_eq_true] at h
  obtain ⟨h1, h2⟩ := h
  rw [State.rxAdvance_returned h1]
  cases hp : s.eng.phase with
  | idle => simp [hp] at h2
  | rxHdr =>
    refine State.chunkDone_header hp ?_
    simp only [hp, Config.hdrLen, Bool.or_eq_true, bne_iff_ne, decide_eq_true_eq] at h2
    omega
  | rxBody =>
    refine State.chunkDone_over hp ?_
    simpa [hp] using h2

/-! ### The verdict -/

/-- Bytes that are no well-formed frame are rejected, with the first cause in the order of R235. -/
theorem State.verdict_reject {s : State} (h : frameWellFormedWith s.eng.table s.eng.acc = false) :
    s.verdict = .moved (s.raiseFail (rejectCause s.eng.acc)) := by
  unfold State.verdict rejectCause
  simp only [Config.hdrLen, Config.minFrame]
  by_cases h1 : s.eng.acc.length < 6
  · simp [h1]
  by_cases h2 : declaredLength s.eng.acc < 8
  · simp [h1, h2]
  cases hs : syncOk s.eng.acc with
  | false =>
    have : byteAt s.eng.acc 0 ≠ 0xFE#8 ∨ byteAt s.eng.acc 1 ≠ 0xFE#8 := by
      simp [syncOk, Config.sync] at hs
      tauto
    simp [h1, h2, this]
  | true =>
    have hn : ¬(byteAt s.eng.acc 0 ≠ 0xFE#8 ∨ byteAt s.eng.acc 1 ≠ 0xFE#8) := by
      simp [syncOk, Config.sync] at hs
      tauto
    simp only [h1, h2, hn, if_false]
    by_cases h3 : s.eng.acc.length = declaredLength s.eng.acc
    · have ht : trailerOk s.eng.table s.eng.acc = false := by
        cases ht : trailerOk s.eng.table s.eng.acc with
        | false => rfl
        | true => simp [frameWellFormedWith, hs, ht, h3, Config.minFrame] at h; omega
      simp [h3, ht]
    · simp [h3]

/-- A well-formed frame is accepted, with its fields. -/
theorem State.verdict_accept {s : State} (h : frameWellFormedWith s.eng.table s.eng.acc = true) :
    s.verdict =
      .accepted (frameId s.eng.acc) (frameCmd s.eng.acc) (frameOpt s.eng.acc) (frameParams s.eng.acc) s := by
  simp only [frameWellFormedWith, Config.minFrame, Bool.and_eq_true, decide_eq_true_eq, beq_iff_eq] at h
  obtain ⟨⟨⟨h1, h2⟩, h3⟩, h4⟩ := h
  unfold State.verdict
  simp [Config.hdrLen, Config.minFrame, h2, h4, show ¬ s.eng.acc.length < 6 by omega, h3,
    show ¬ s.eng.acc.length < 8 by omega]

/-- An accepted frame is accepted alike whether or not the source assigns its command byte (R74, R148). -/
theorem RxResult.conclude_accepted {s : State} {r : Request} (h : s.eng.cur = some r) (hr : r.isRx = true)
    (id cmd opt : Byte) (params : List Byte) :
    (RxResult.accepted id cmd opt params s).conclude = .next (s.acceptFrame id cmd opt params) := by
  simp only [RxResult.conclude]
  cases hi : wireInstr cmd id opt params with
  | none => rfl
  | some i =>
    show exec i s = _
    rw [exec_wire (wireInstr_wireFields hi), State.carryFrame_rx h hr]

/-! ### A well-formed frame is the frame of its fields -/

theorem bytes16_le16 (lo hi : Byte) : bytes16 (le16 lo hi) = [lo, hi] := by
  have h1 : lo8 (le16 lo hi) = lo := by
    apply BitVec.eq_of_getLsbD_eq
    intro i h
    simp [lo8, le16, h, show i < 16 by omega]
  have h2 : hi8 (le16 lo hi) = hi := by
    apply BitVec.eq_of_getLsbD_eq
    intro i h
    simp [hi8, le16, h, show 8 + i < 16 by omega]
  simp [bytes16, h1, h2]

theorem append_last_two (l : List Byte) (h : 2 ≤ l.length) :
    l.take (l.length - 2) ++ [byteAt l (l.length - 2), byteAt l (l.length - 1)] = l := by
  apply List.ext_getElem
  · simp; omega
  · intro i h1 h2
    by_cases h3 : i < l.length - 2
    · rw [List.getElem_append_left (by simp; omega)]; simp
    · have : i = l.length - 2 ∨ i = l.length - 1 := by omega
      rw [List.getElem_append_right (by simp; omega)]
      rcases this with rfl | rfl
      · simp [byteAt, List.getD_eq_getElem?_getD, show l.length - 2 < l.length by omega]
      · simp [byteAt, List.getD_eq_getElem?_getD, show l.length - 1 < l.length by omega, show l.length - 1 - (l.length - 2) = 1 by omega]

/-- A well-formed frame is what the framer builds from its fields, which leave its length in one byte. -/
theorem frameWith_fields {table : List Word16} {f : List Byte} (h : frameWellFormedWith table f = true) :
    frameWith table (frameId f) (frameCmd f) (frameOpt f) (frameParams f) = f ∧
      (frameParams f).length = f.length - 8 ∧ f.length ≤ 255 := by
  simp [frameWellFormedWith, Config.minFrame] at h
  obtain ⟨⟨⟨h1, h2⟩, h3⟩, h4⟩ := h
  match f, h1 with
  | b0 :: b1 :: b2 :: b3 :: b4 :: b5 :: tl, h1 =>
    simp [syncOk, byteAt] at h2
    simp [declaredLength, byteAt] at h3
    have hb3 := b3.isLt
    have hp : frameParams (b0 :: b1 :: b2 :: b3 :: b4 :: b5 :: tl) = tl.take (tl.length - 2) := by
      simp [frameParams, Config.frameOverhead]
    have hpl : (tl.take (tl.length - 2)).length = tl.length - 2 := by simp
    simp at h1
    rw [hp]
    refine ⟨?_, by rw [hpl]; simp, by simp; omega⟩
    have hb : byteOf (8 + (tl.length - 2)) = b3 := by
      apply BitVec.eq_of_toNat_eq; simp [byteOf]; omega
    have hh : frameHead b2 b4 b5 (tl.take (tl.length - 2)) = (b0 :: b1 :: b2 :: b3 :: b4 :: b5 :: tl).take
        ((b0 :: b1 :: b2 :: b3 :: b4 :: b5 :: tl).length - 2) := by
      have e : (b0 :: b1 :: b2 :: b3 :: b4 :: b5 :: tl).length - 2 = (tl.length - 2) + 6 := by simp; omega
      rw [e]
      simp [frameHead, hpl, Config.frameOverhead, hb, h2]
    show frameWith table b2 b4 b5 _ = _
    unfold frameWith
    rw [hh]
    simp only [trailerOk, beq_iff_eq] at h4
    rw [← h4, bytes16_le16]
    exact append_last_two _ (by simp)

/-- What the framer builds is well formed where its length fits a byte (R128). -/
theorem frameWith_wellFormed (table : List Word16) (id cmd opt : Byte) (params : List Byte)
    (h : params.length ≤ 247) : frameWellFormedWith table (frameWith table id cmd opt params) = true := by
  have h0 : syncOk (frameWith table id cmd opt params) = true := by
    simp [syncOk]
  have h1 : trailerOk table (frameWith table id cmd opt params) = true := by
    obtain ⟨ha, hb⟩ := frameWith_trailer table id cmd opt params
    simp only [trailerOk, frameWith_length, show params.length + 8 - 2 = params.length + 6 by omega,
      show params.length + 8 - 1 = params.length + 7 by omega, ha, hb, le16_lo8_hi8, frameWith_take, beq_self_eq_true]
  simp [frameWellFormedWith, h0, h1, frameWith_declaredLength table id cmd opt params h, Config.minFrame]

/-- The params of a built frame (R77). -/
@[simp] theorem frameWith_params (table : List Word16) (id cmd opt : Byte) (params : List Byte) :
    frameParams (frameWith table id cmd opt params) = params := by
  simp [frameParams, frameWith, frameHead, Config.frameOverhead]

end Sys2Proof.Machine
end

