-- ==== Sys2Proof/Laws/Step.lean ====
section
/-! SUPPORT. Everything a step can do, said once: the invariants follow from this case distinction. -/

namespace Sys2Proof.Machine

/-- The state in which an RX's reads have just ended: `PHASE` is IDLE and the timer stopped (R140). -/
def State.finished (s : State) (e : Nat) : State :=
  (s.elapse.activate e).updEngine fun x => { x with phase := .idle, timer := .stopped }

/-- What a step that answers a next state can have done. -/
inductive State.Stepped (s : State) : State → Prop where
  /-- A host delivered a message (R14). -/
  | deliver (e h : Nat) (m : List Byte) (hv : s.nextEvent = .deliver e h m) : s.Stepped (s.elapse.deliver e h m)
  /-- A byte arrived (R16). -/
  | arrive (l : Nat) (b : Byte) (hv : s.nextEvent = .arrive l b) : s.Stepped (s.elapse.arrive l b)
  /-- A timer's expiry (R141). -/
  | expire (e : Nat) (hv : s.nextEvent = .expire e) : s.Stepped (s.elapse.expire e)
  /-- An engine's reset (R264). -/
  | reset (e : Nat) (hv : s.nextEvent = .resetEngine e) : s.Stepped (s.elapse.resetEngine e)
  /-- An engine that does not exist took no step. -/
  | absent (e : Nat) (hv : s.nextEvent = .engine e) (he : s.engines.length ≤ e) : s.Stepped s.elapse
  /-- An idle engine with nothing to do took no step (R241). -/
  | rest (e : Nat) (hv : s.nextEvent = .engine e) (hw : s.wired e = true) (hp : (s.engineAt e).phase = .idle)
      (hn : (s.engineAt e).cur ≠ none ∨ (s.engineAt e).reqq = []) : s.Stepped (s.elapse.activate e)
  /-- An RX with no byte to take waited (R141, R241). -/
  | wait (e : Nat) (hv : s.nextEvent = .engine e) (hw : s.wired e = true) (hp : (s.engineAt e).phase ≠ .idle)
      (hc : (s.engineAt e).chunkReturned = false) (hq : (s.lineAt (s.lineOf e)).rxq = []) :
      s.Stepped (s.elapse.activate e)
  /-- An illegal request was answered (R178). -/
  | illegal (e : Nat) (r : Request) (q : List Request) (h : s.AboutToStart e r q) :
      s.Stepped ((s.begun e r q).raiseFail .illegalRequest)
  /-- A request was executed (R179). -/
  | run (e : Nat) (r : Request) (q : List Request) (i : Instr) (h : s.AboutToStart e r q)
      (hd : decodeRequest r.message = .ok i) (t : State) (hx : exec i.carried (s.begun e r q) = .next t) : s.Stepped t
  /-- An RX took a byte (R141). -/
  | take (e : Nat) (b : Byte) (q : List Byte) (hv : s.nextEvent = .engine e) (hw : s.wired e = true)
      (hp : (s.engineAt e).phase ≠ .idle) (hc : (s.engineAt e).chunkReturned = false)
      (hq : (s.lineAt (s.lineOf e)).rxq = b :: q) : s.Stepped ((s.elapse.activate e).rxTake b q)
  /-- An RX went on to the remainder (R144). -/
  | body (e : Nat) (hv : s.nextEvent = .engine e) (hw : s.wired e = true) (hp : (s.engineAt e).phase = .rxHdr)
      (hc : (s.engineAt e).chunkReturned = true) (ha : (s.engineAt e).acc.length = 6) (hl : 6 < declaredLength (s.engineAt e).acc) :
      s.Stepped (((s.elapse.activate e).updEngine fun x => { x with phase := .rxBody }).startChunk
        (declaredLength (s.engineAt e).acc - (s.engineAt e).acc.length))
  /-- An RX read another chunk of the remainder (R144). -/
  | again (e : Nat) (hv : s.nextEvent = .engine e) (hw : s.wired e = true) (hp : (s.engineAt e).phase = .rxBody)
      (hc : (s.engineAt e).chunkReturned = true) (ha : (s.engineAt e).acc.length ≠ declaredLength (s.engineAt e).acc)
      (hq : (s.lineAt (s.lineOf e)).rxq ≠ []) :
      s.Stepped ((s.elapse.activate e).startChunk
        (declaredLength (s.engineAt e).acc - (s.engineAt e).acc.length))
  /-- An RX rejected (R146). -/
  | reject (e : Nat) (hv : s.nextEvent = .engine e) (hw : s.wired e = true)
      (hp : (s.engineAt e).phase ≠ .idle) (hr : (s.elapse.activate e).readsOver = true)
      (c : Cause) : s.Stepped ((s.finished e).raiseFail c)
  /-- An RX's reads gave a well-formed frame, which is carried on (R145). -/
  | accept (e : Nat) (hv : s.nextEvent = .engine e) (hw : s.wired e = true)
      (hp : (s.engineAt e).phase ≠ .idle) (hr : (s.elapse.activate e).readsOver = true)
      (hf : frameWellFormedWith (s.engineAt e).table (s.engineAt e).acc = true) (t : State)
      (ht : t = (s.finished e).acceptFrame (frameId (s.engineAt e).acc) (frameCmd (s.engineAt e).acc)
          (frameOpt (s.engineAt e).acc) (frameParams (s.engineAt e).acc) ∨
        t = (s.finished e).carryFrame (frameId (s.engineAt e).acc) (frameCmd (s.engineAt e).acc)
          (frameOpt (s.engineAt e).acc) (frameParams (s.engineAt e).acc)) : s.Stepped t

/-- The engine of `finished`. -/
theorem State.finished_eng {s : State} {e : Nat} (hw : s.wired e = true) :
    (s.finished e).eng = { s.engineAt e with phase := .idle, timer := .stopped } := by
  unfold State.finished
  rw [State.updEngine_eng _ _ (by simpa using ((s.wired_iff e).1 hw).1)]
  rfl

/-- The end of a chunk, when it is no further chunk, is `readsOver`. -/
theorem State.readsOver_of_finish {s : State} (hp : s.eng.phase ≠ .idle) (hc : s.eng.chunkReturned = true)
    (h1 : ¬(s.eng.phase = .rxHdr ∧ s.eng.acc.length = 6 ∧ 6 < declaredLength s.eng.acc))
    (h2 : ¬(s.eng.phase = .rxBody ∧ s.eng.acc.length ≠ declaredLength s.eng.acc ∧ s.rxAvail ≠ 0)) :
    s.readsOver = true := by
  unfold State.readsOver
  rw [hc, Bool.true_and]
  cases h : s.eng.phase with
  | idle => exact absurd h hp
  | rxHdr =>
    simp only [h, true_and, Config.hdrLen, Bool.or_eq_true, bne_iff_ne, decide_eq_true_eq] at h1 ⊢
    omega
  | rxBody =>
    simp only [h, true_and, Bool.or_eq_true, beq_iff_eq] at h2 ⊢
    omega

/-- Every step is one of these. -/
theorem step_cases {s t : State} (h : step s = .next t) : s.Stepped t := by
  rw [step_eq] at h
  cases hv : s.nextEvent with
  | deliver e host m => rw [hv] at h; cases h; exact .deliver e host m hv
  | arrive l b => rw [hv] at h; cases h; exact .arrive l b hv
  | expire e => rw [hv] at h; cases h; exact .expire e hv
  | resetEngine e => rw [hv] at h; cases h; exact .reset e hv
  | engine e =>
    by_cases he : s.engines.length ≤ e
    · rw [hv] at h
      simp only [State.perform, State.engineStep, State.elapse_engines, Nat.not_lt.2 he, if_false] at h
      cases h
      exact .absent e hv he
    by_cases hw : s.wired e = true
    swap
    · rw [hv] at h
      simp [State.perform, State.engineStep, Nat.lt_of_not_le he, hw] at h
    rw [← step_eq, step_engine hv hw] at h
    rcases (s.elapse.activate e).engineMove_cases with ⟨h1, h2, h3⟩ | ⟨r, q, h1, h2, h3, h4⟩ | ⟨h1, h2⟩
    · rw [h3] at h; cases h; exact .rest e hv hw h1 h2
    · rw [h4] at h
      have ha : s.AboutToStart e r q := ⟨hv, hw, h1, h2, h3⟩
      cases hd : decodeRequest r.message with
      | ok i => rw [State.dispatch_ok hd] at h; exact .run e r q i ha hd t h
      | error x => rw [State.dispatch_error hd] at h; cases h; exact .illegal e r q ha
    · rw [h2] at h
      rcases (s.elapse.activate e).rxAdvance_cases with ⟨h3, h4⟩ | ⟨h3, b, q, h4, h5⟩ | ⟨h3, h4, h5⟩
      · rw [h4] at h
        have hover : (s.elapse.activate e).chunkDone = (s.elapse.activate e).rxFinish →
            (s.elapse.activate e).readsOver = true → s.Stepped t := by
          intro hc ho
          rw [hc] at h
          have heng := State.finished_eng (s := s) (e := e) hw
          change (s.finished e).verdict.conclude = _ at h
          rcases (s.finished e).verdict_cases with ⟨c, hvd⟩ | ⟨hwf, hvd⟩
          · rw [hvd] at h; cases h; exact .reject e hv hw h1 ho c
          · rw [heng] at hwf hvd
            rw [hvd] at h
            simp only [RxResult.conclude] at h
            refine .accept e hv hw h1 ho hwf t ?_
            cases hi : wireInstr (frameCmd (s.engineAt e).acc) (frameId (s.engineAt e).acc)
                (frameOpt (s.engineAt e).acc) (frameParams (s.engineAt e).acc) with
            | none => rw [hi] at h; cases h; exact .inl rfl
            | some i =>
              rw [hi] at h
              dsimp only at h
              rw [exec_wire (wireInstr_wireFields hi)] at h
              cases h; exact .inr rfl
        by_cases hb : (s.elapse.activate e).eng.phase = .rxHdr ∧ (s.elapse.activate e).eng.acc.length = 6 ∧
            6 < declaredLength (s.elapse.activate e).eng.acc
        · rw [State.chunkDone_remainder hb.1 hb.2.1 hb.2.2] at h
          cases h; exact .body e hv hw hb.1 h3 hb.2.1 hb.2.2
        by_cases hg : (s.elapse.activate e).eng.phase = .rxBody ∧
            (s.elapse.activate e).eng.acc.length ≠ declaredLength (s.elapse.activate e).eng.acc ∧
            (s.elapse.activate e).rxAvail ≠ 0
        · rw [State.chunkDone_again hg.1 (by rintro (h | h); exacts [hg.2.1 h, hg.2.2 h])] at h
          cases h
          exact .again e hv hw hg.1 h3 hg.2.1 fun hq => hg.2.2 (List.length_eq_zero_iff.2 hq)
        · have ho := State.readsOver_of_finish h1 h3 hb hg
          refine hover ?_ ho
          rw [← h4]; exact State.rxAdvance_readsOver ho
      · rw [h5] at h; cases h; exact .take e b q hv hw h1 h3 h4
      · rw [h5] at h; cases h; exact .wait e hv hw h1 h3 h4

end Sys2Proof.Machine
end

