-- ==== Sys2Proof/Laws/Run.lean ====
section
/-! SUPPORT. What a step does to the agenda and the step count, how runs compose, and when the schedule's turns come
(R142). -/

namespace Sys2Proof.Machine

/-! ### The agenda and the step count -/

/-- Wherever a meaning ends, the agenda, the step count and the platform are as before. -/
theorem State.Effect.unchanged {s t : State} (h : s.Effect t) :
    t.agenda = s.agenda ∧ t.tick = s.tick ∧ t.platform = s.platform := by
  cases h <;> simp [State.succeed, State.raiseFail, State.startChunk, State.sendFrame, State.lineApply, State.rxFlush,
    State.lineSend, State.acceptFrame]

/-- A step drops the head of the agenda and counts one; the platform stays. -/
theorem State.Stepped.elapsed {s t : State} (h : s.Stepped t) :
    t.agenda = s.agenda.tail ∧ t.tick = s.tick + 1 ∧ t.platform = s.platform := by
  cases h with
  | deliver e h m hv => unfold State.deliver; split <;> simp
  | arrive l b hv => unfold State.arrive; split <;> simp
  | expire e hv => unfold State.expire; split <;> simp
  | reset e hv => simp [State.resetEngine]
  | absent e hv he => simp
  | rest e hv hw hp hn => simp
  | wait e hv hw hp hc hq => simp
  | illegal e r q h => simp [State.raiseFail, State.begun]
  | run e r q i h hd t hx =>
    obtain ⟨t', h1, h2⟩ := exec_effect i.carried (s.begun e r q)
    rw [hx] at h1
    cases h1
    simpa [State.begun] using h2.unchanged
  | take e b q hv hw hp hc hq => simp [State.rxTake]
  | body e hv hw hp hc ha hl => simp [State.startChunk]
  | again e hv hw hp hc ha hq => simp [State.startChunk]
  | reject e hv hw hp hr c => simp [State.raiseFail, State.finished]
  | accept e hv hw hp hr hf t ht =>
    rcases ht with rfl | rfl
    · simp [State.acceptFrame, State.succeed, State.finished]
    · simpa [State.finished] using (State.carryFrame_effect (s.finished e) _ _ _ _).unchanged

/-! ### Runs -/

/-- A run of no steps. -/
@[simp] theorem run_zero (s : State) : Host.Core.run Sys2Proof.core 0 s = .next s := rfl

/-- A run whose first step answers a next state goes on from there. -/
theorem run_succ {s t : State} (k : Nat) (h : step s = .next t) :
    Host.Core.run Sys2Proof.core (k + 1) s = Host.Core.run Sys2Proof.core k t := by
  have h' : Sys2Proof.core.step s = .next t := h
  simp only [Host.Core.run, h']

/-- A run of one step more that answers a next state begins with a step that does. -/
theorem run_succ_inv {s t : State} {k : Nat} (h : Host.Core.run Sys2Proof.core (k + 1) s = .next t) :
    ∃ u, step s = .next u ∧ Host.Core.run Sys2Proof.core k u = .next t := by
  simp only [Host.Core.run] at h
  split at h
  · exact ⟨_, ‹_›, h⟩
  · cases h
  · cases h

/-- Two runs in a row are one. -/
theorem run_add {s t : State} {j : Nat} (k : Nat) (h : Host.Core.run Sys2Proof.core j s = .next t) :
    Host.Core.run Sys2Proof.core (j + k) s = Host.Core.run Sys2Proof.core k t := by
  induction j generalizing s with
  | zero => cases h; rw [Nat.zero_add]
  | succ j ih =>
    obtain ⟨u, hs, hr⟩ := run_succ_inv h
    rw [Nat.succ_add, run_succ _ hs]
    exact ih hr

/-- The agenda, the step count and the platform after a run. -/
theorem run_elapsed {s t : State} {k : Nat} (h : Host.Core.run Sys2Proof.core k s = .next t) :
    t.agenda = s.agenda.drop k ∧ t.tick = s.tick + k ∧ t.platform = s.platform := by
  induction k generalizing s with
  | zero => cases h; simp
  | succ k ih =>
    obtain ⟨u, hs, hr⟩ := run_succ_inv h
    obtain ⟨h1, h2, h3⟩ := ih hr
    obtain ⟨g1, g2, g3⟩ := (step_cases hs).elapsed
    exact ⟨by rw [h1, g1]; simp, by omega, by rw [h3, g3]⟩

/-! ### Turns of the schedule -/

/-- With no event chosen, the next event is the schedule's. -/
theorem State.nextEvent_of_nil {s : State} (h : s.agenda = []) : s.nextEvent = Config.schedule.event s.tick := by
  unfold State.nextEvent; rw [h]

/-- After the chosen events, a timer's turn comes again (R142). -/
theorem timer_turn (s : State) (e : Nat) :
    ∃ k, s.agenda.length ≤ k ∧ ∀ t : State, Host.Core.run Sys2Proof.core k s = .next t → t.nextEvent = .expire e := by
  obtain ⟨m, h1, h2⟩ := Config.schedule.timer e (s.tick + s.agenda.length)
  refine ⟨m - s.tick, by omega, fun t ht => ?_⟩
  obtain ⟨g1, g2, _⟩ := run_elapsed ht
  rw [State.nextEvent_of_nil (by rw [g1]; exact List.drop_eq_nil_of_le (by omega)), g2,
    show s.tick + (m - s.tick) = m by omega, h2]

/-- After the chosen events, an engine's turn comes again (R278). -/
theorem engine_turn (s : State) (e : Nat) :
    ∃ k, s.agenda.length ≤ k ∧ ∀ t : State, Host.Core.run Sys2Proof.core k s = .next t → t.nextEvent = .engine e := by
  obtain ⟨m, h1, h2⟩ := Config.schedule.engine e (s.tick + s.agenda.length)
  refine ⟨m - s.tick, by omega, fun t ht => ?_⟩
  obtain ⟨g1, g2, _⟩ := run_elapsed ht
  rw [State.nextEvent_of_nil (by rw [g1]; exact List.drop_eq_nil_of_le (by omega)), g2,
    show s.tick + (m - s.tick) = m by omega, h2]

end Sys2Proof.Machine
end

