-- ==== Sys2Proof/Machine/HostProgram.lean ====
section
/-! DEFINITION. What a host writes and runs: the assembler text of a request (R86) and the pseudo-instructions
LOCK and XACT (R87), which the engine sees only as the requests they expand to. Log 21. -/

namespace Sys2Proof.Machine

/-- Numbers of a list, separated by commas. -/
def asmNumbers : List Byte → String
  | [] => ""
  | [b] => toString b.toNat
  | b :: rest => toString b.toNat ++ ", " ++ asmNumbers rest

/-- A byte list (R86). -/
def asmBytes (bs : List Byte) : String := "[" ++ asmNumbers bs ++ "]"

/-- The text of a TX (R86). -/
def asmTx (id cmd opt : Byte) (params : List Byte) : String :=
  "TX " ++ toString id.toNat ++ ", " ++ toString cmd.toNat ++ ", " ++ toString opt.toNat ++ ", " ++ asmBytes params

/-- The textual form of a host request, numbers in decimal (R86). A wire row has no text of its own. -/
def asmText : Instr → Option String
  | .crc data => some ("CRC " ++ asmBytes data)
  | .tx id cmd opt params => some (asmTx id cmd opt params)
  | .rx => some "RX"
  | .setBaud idx => some ("SETBAUD " ++ toString idx.toNat)
  | .setTmo t => some ("SETTMO " ++ toString t.toNat)
  | .getBaud => some "GETBAUD"
  | .getTmo => some "GETTMO"
  | .getStat => some "GETSTAT"
  | .lockTry => some "LOCKTRY"
  | .unlock => some "UNLOCK"
  | .rxAvail => some "RXAVAIL"
  | .tblRd i => some ("TBLRD " ++ toString i.toNat)
  | .memRead _ _ _ => none
  | .memWrite _ _ _ => none
  | .load _ _ _ => none
  | .save _ _ _ => none
  | .motorRead _ _ _ => none
  | .motorWrite _ _ _ => none
  | .systemRead _ _ _ => none
  | .systemWrite _ _ _ => none
  | .reboot _ _ _ => none
  | .factoryReset _ _ _ => none
  | .systemInit _ _ _ => none
  | .memReadAck _ _ _ => none
  | .memWriteAck _ _ _ => none
  | .loadAck _ _ _ => none
  | .saveAck _ _ _ => none
  | .motorReadAck _ _ _ => none
  | .motorWriteAck _ _ _ => none
  | .systemReadAck _ _ _ => none
  | .systemWriteAck _ _ _ => none
  | .rebootAck _ _ _ => none
  | .factoryResetAck _ _ _ => none

/-- Where a host stands in `XACT id, cmd, opt, [p...]` (R87): which request it waits for. -/
inductive XactPlace where
  | locking
  | sending
  | receiving
  | unlocking
  | done
deriving DecidableEq, Repr

/-- The request a host issues at a place of an `XACT` (R87); none when it is done. -/
def xactRequest (id cmd opt : Byte) (params : List Byte) : XactPlace → Option (List Byte)
  | .locking => some (encode .lockTry)
  | .sending => some (encode (.tx id cmd opt params))
  | .receiving => some (encode .rx)
  | .unlocking => some (encode .unlock)
  | .done => none

/-- The place after the response to that request (R87): `LOCK` retries until it gets `01`; an RX follows a TX
that answered `01`, unless the id is the broadcast id. -/
def xactNext (id : Byte) (response : List Byte) : XactPlace → XactPlace
  | .locking => if response = [0x01#8] then .sending else .locking
  | .sending => if byteAt response 0 = 0x01#8 ∧ id ≠ Config.idBcast then .receiving else .unlocking
  | .receiving => .unlocking
  | .unlocking => .done
  | .done => .done

end Sys2Proof.Machine
end

