-- ==== Sys2Proof/Tests/Slice0.lean ====
section
/-! SUPPORT. Tests. Expected bytes are those of 95_test_vectors.md (named in each comment) or computed outside Lean
from R70, R81 and R100 to R103. The witnesses show states and operands that meet the statements' hypotheses. -/

namespace Sys2Proof.Tests

open Sys2Proof.Machine

/-! ### Small states -/

/-- The platform of 95_test_vectors.md, with a second engine on the same line and lock. -/
def demoPlatform : Platform := ⟨1#3, 100000#32, 300, 2, [⟨0, 0⟩, ⟨0, 0⟩]⟩

/-- Right after reset (R260). -/
def demo : State := State.resetOn demoPlatform

/-- Engine 0 executes this message of host 1; these bytes wait and this is the lock. -/
def running (m rxq : List Byte) (held : Bool) : State :=
  { (demo.updEngineAt 0 fun e => { e with cur := some ⟨1, m⟩ }).updLineAt 0 fun l => { l with rxq := rxq } with
    locks := [held] }

/-- Engine 0 steps next, and this message of host 1 is its oldest request. -/
def starting (m rxq : List Byte) : State :=
  { (demo.updEngineAt 0 fun e => { e with reqq := [⟨1, m⟩] }).updLineAt 0 fun l => { l with rxq := rxq } with
    agenda := [.engine 0] }

/-- Engine 0 steps next and is in an RX of host 1. -/
def receiving (phase : Phase) (acc : List Byte) (want : Nat) (timer : Timer) (rxq : List Byte) : State :=
  { (demo.updEngineAt 0 fun e => { e with cur := some ⟨1, [0x03#8]⟩, phase := phase, acc := acc, want := want, timer := timer }).updLineAt 0
      fun l => { l with rxq := rxq } with
    agenda := [.engine 0] }

/-- This event happens next. -/
def awaiting (ev : Event) (s : State) : State := { s with agenda := [ev] }

/-- The request every state `running` executes. -/
def req (m : List Byte) : Request := ⟨1, m⟩

/-- What a step's next state shows. -/
def onNext {α : Type} (f : State → α) : Host.Outcome State Fault Refusal → Option α
  | .next t => some (f t)
  | .fault _ => none
  | .refused _ => none

/-- The response messages of a state. -/
def answers (s : State) : List (List Byte) := s.responses.map Response.message

/-- The response messages after one step. -/
def stepAnswers (s : State) : Option (List (List Byte)) := onNext answers (step s)

/-- The frames on line 0 after one step. -/
def stepOut (s : State) : Option (List Sent) := onNext (fun t => (t.lineAt 0).out) (step s)

/-- The bytes waiting on line 0 after one step. -/
def stepRxq (s : State) : Option (List Byte) := onNext (fun t => (t.lineAt 0).rxq) (step s)

/-- Engine 0's cached status after one step. -/
def stepStatus (s : State) : Option Byte := onNext (fun t => (t.engineAt 0).lastStatus) (step s)

/-! ### WellFormed: an ill-formed term for each check -/

theorem wf_crc_count_refused : (Instr.crc (List.replicate 65536 0#8)).wellFormed = false := by
  show decide ((List.replicate 65536 0#8).length ≤ 65535) = false
  rw [List.length_replicate]; decide
theorem wf_crc_largest : (Instr.crc (List.replicate 65535 0#8)).wellFormed = true := by
  show decide ((List.replicate 65535 0#8).length ≤ 65535) = true
  rw [List.length_replicate]; decide
theorem wf_tx_count_refused : (Instr.tx 0#8 0#8 0#8 (List.replicate 256 0#8)).wellFormed = false := by decide +kernel
theorem wf_tx_largest : (Instr.tx 0#8 0#8 0#8 (List.replicate 255 0#8)).wellFormed = true := by decide +kernel
theorem wf_frame_largest : (Instr.memRead 0#8 0#8 (List.replicate 247 0#8)).wellFormed = true := by decide +kernel

/-- Every wire row with 248 params is refused (R73, C2). -/
theorem wf_frames_refused :
    ([Instr.memRead 0#8 0#8 (List.replicate 248 0#8), Instr.memWrite 0#8 0#8 (List.replicate 248 0#8),
      Instr.load 0#8 0#8 (List.replicate 248 0#8), Instr.save 0#8 0#8 (List.replicate 248 0#8),
      Instr.motorRead 0#8 0#8 (List.replicate 248 0#8), Instr.motorWrite 0#8 0#8 (List.replicate 248 0#8),
      Instr.systemRead 0#8 0#8 (List.replicate 248 0#8), Instr.systemWrite 0#8 0#8 (List.replicate 248 0#8),
      Instr.reboot 0#8 0#8 (List.replicate 248 0#8), Instr.factoryReset 0#8 0#8 (List.replicate 248 0#8),
      Instr.systemInit 0#8 0#8 (List.replicate 248 0#8), Instr.memReadAck 0#8 0#8 (List.replicate 248 0#8),
      Instr.memWriteAck 0#8 0#8 (List.replicate 248 0#8), Instr.loadAck 0#8 0#8 (List.replicate 248 0#8),
      Instr.saveAck 0#8 0#8 (List.replicate 248 0#8), Instr.motorReadAck 0#8 0#8 (List.replicate 248 0#8),
      Instr.motorWriteAck 0#8 0#8 (List.replicate 248 0#8), Instr.systemReadAck 0#8 0#8 (List.replicate 248 0#8),
      Instr.systemWriteAck 0#8 0#8 (List.replicate 248 0#8), Instr.rebootAck 0#8 0#8 (List.replicate 248 0#8),
      Instr.factoryResetAck 0#8 0#8 (List.replicate 248 0#8)].all
      fun i => !i.wellFormed) = true := by decide +kernel

/-! ### Decoding: a word written out for every row (R70, R81) -/

/-- V-CRC-16. -/
theorem decode_crc : decode [0x01#8, 0x03#8, 0x00#8, 0x50#8, 0x4D#8, 0x58#8]
    = .ok (.crc [0x50#8, 0x4D#8, 0x58#8]) := by decide
/-- V-TX-1. -/
theorem decode_tx : decode [0x02#8, 0x01#8, 0xA1#8, 0x01#8, 0x03#8, 0xF5#8, 0x01#8, 0x01#8]
    = .ok (.tx 0x01#8 0xA1#8 0x01#8 [0xF5#8, 0x01#8, 0x01#8]) := by decide
/-- R140. -/
theorem decode_rx : decode [0x03#8] = .ok (.rx) := by decide
/-- V-CTL-3. -/
theorem decode_setBaud : decode [0x04#8, 0x07#8] = .ok (.setBaud 0x07#8) := by decide
/-- V-CTL-8. -/
theorem decode_setTmo : decode [0x05#8, 0x50#8, 0xC3#8, 0x00#8, 0x00#8] = .ok (.setTmo 50000#32) := by decide
/-- V-CTL-1. -/
theorem decode_getBaud : decode [0x06#8] = .ok (.getBaud) := by decide
/-- V-CTL-2. -/
theorem decode_getTmo : decode [0x07#8] = .ok (.getTmo) := by decide
/-- V-CTL-12. -/
theorem decode_getStat : decode [0x08#8] = .ok (.getStat) := by decide
/-- V-CTL-13. -/
theorem decode_lockTry : decode [0x09#8] = .ok (.lockTry) := by decide
/-- V-CTL-15. -/
theorem decode_unlock : decode [0x0A#8] = .ok (.unlock) := by decide
/-- V-CTL-17. -/
theorem decode_rxAvail : decode [0x0B#8] = .ok (.rxAvail) := by decide
/-- V-CRC-6. -/
theorem decode_tblRd : decode [0x0C#8, 0xFE#8] = .ok (.tblRd 0xFE#8) := by decide
/-- V-TX-5. -/
theorem decode_memRead : decode [0xFE#8, 0xFE#8, 0x00#8, 0x0B#8, 0xA0#8, 0x00#8, 0x00#8, 0x00#8, 0x01#8, 0x65#8, 0x4D#8]
    = .ok (.memRead 0x00#8 0x00#8 [0x00#8, 0x00#8, 0x01#8]) := by decide
/-- V-TX-1, E1. -/
theorem decode_memWrite : decode [0xFE#8, 0xFE#8, 0x01#8, 0x0B#8, 0xA1#8, 0x01#8, 0xF5#8, 0x01#8, 0x01#8, 0x72#8, 0x12#8]
    = .ok (.memWrite 0x01#8 0x01#8 [0xF5#8, 0x01#8, 0x01#8]) := by decide
/-- V-TX-4. -/
theorem decode_load : decode [0xFE#8, 0xFE#8, 0xEF#8, 0x08#8, 0xA2#8, 0x00#8, 0x58#8, 0x63#8]
    = .ok (.load 0xEF#8 0x00#8 []) := by decide
/-- V-TX-3. -/
theorem decode_save : decode [0xFE#8, 0xFE#8, 0xFF#8, 0x08#8, 0xA3#8, 0x00#8, 0xCE#8, 0x4B#8]
    = .ok (.save 0xFF#8 0x00#8 []) := by decide
/-- R70 with R204. -/
theorem decode_motorRead : decode [0xFE#8, 0xFE#8, 0x07#8, 0x09#8, 0xA4#8, 0x02#8, 0x10#8, 0xA3#8, 0x8D#8]
    = .ok (.motorRead 0x07#8 0x02#8 [0x10#8]) := by decide
/-- R70 with R205. -/
theorem decode_motorWrite : decode [0xFE#8, 0xFE#8, 0x08#8, 0x0A#8, 0xA5#8, 0x03#8, 0xFE#8, 0xFE#8, 0x1C#8, 0xB4#8]
    = .ok (.motorWrite 0x08#8 0x03#8 [0xFE#8, 0xFE#8]) := by decide
/-- P6 step 3. -/
theorem decode_systemRead : decode [0xFE#8, 0xFE#8, 0x03#8, 0x08#8, 0xBB#8, 0x00#8, 0x6B#8, 0x11#8]
    = .ok (.systemRead 0x03#8 0x00#8 []) := by decide
/-- R70 with R207. -/
theorem decode_systemWrite : decode [0xFE#8, 0xFE#8, 0x04#8, 0x0B#8, 0xBC#8, 0x09#8, 0x01#8, 0x02#8, 0x03#8, 0xB5#8, 0x81#8]
    = .ok (.systemWrite 0x04#8 0x09#8 [0x01#8, 0x02#8, 0x03#8]) := by decide
/-- V-TX-2. -/
theorem decode_reboot : decode [0xFE#8, 0xFE#8, 0x03#8, 0x08#8, 0xBD#8, 0x00#8, 0xCD#8, 0xBB#8]
    = .ok (.reboot 0x03#8 0x00#8 []) := by decide
/-- R70 with R209. -/
theorem decode_factoryReset : decode [0xFE#8, 0xFE#8, 0x05#8, 0x09#8, 0xBE#8, 0x00#8, 0xAA#8, 0x71#8, 0x2D#8]
    = .ok (.factoryReset 0x05#8 0x00#8 [0xAA#8]) := by decide
/-- R70 with R210. -/
theorem decode_systemInit : decode [0xFE#8, 0xFE#8, 0x06#8, 0x08#8, 0xBF#8, 0x00#8, 0xEA#8, 0x61#8]
    = .ok (.systemInit 0x06#8 0x00#8 []) := by decide
/-- V-RX-20. -/
theorem decode_memReadAck : decode [0xFE#8, 0xFE#8, 0x05#8, 0x09#8, 0x20#8, 0x00#8, 0x2A#8, 0xC1#8, 0xDF#8]
    = .ok (.memReadAck 0x05#8 0x00#8 [0x2A#8]) := by decide
/-- V-RX-2. -/
theorem decode_memWriteAck : decode [0xFE#8, 0xFE#8, 0x01#8, 0x08#8, 0x21#8, 0x04#8, 0xA7#8, 0x4B#8]
    = .ok (.memWriteAck 0x01#8 0x04#8 []) := by decide
/-- R70 with R211. -/
theorem decode_loadAck : decode [0xFE#8, 0xFE#8, 0xEF#8, 0x08#8, 0x22#8, 0x00#8, 0xC0#8, 0x78#8]
    = .ok (.loadAck 0xEF#8 0x00#8 []) := by decide
/-- R70 with R211. -/
theorem decode_saveAck : decode [0xFE#8, 0xFE#8, 0x09#8, 0x08#8, 0x23#8, 0x01#8, 0xA3#8, 0xF8#8]
    = .ok (.saveAck 0x09#8 0x01#8 []) := by decide
/-- R70 with R211. -/
theorem decode_motorReadAck : decode [0xFE#8, 0xFE#8, 0x07#8, 0x0B#8, 0x24#8, 0x00#8, 0x01#8, 0x34#8, 0x12#8, 0xC4#8, 0x23#8]
    = .ok (.motorReadAck 0x07#8 0x00#8 [0x01#8, 0x34#8, 0x12#8]) := by decide
/-- R70 with R211. -/
theorem decode_motorWriteAck : decode [0xFE#8, 0xFE#8, 0x08#8, 0x09#8, 0x25#8, 0x80#8, 0x00#8, 0xFB#8, 0x8B#8]
    = .ok (.motorWriteAck 0x08#8 0x80#8 [0x00#8]) := by decide
/-- R70 with R211. -/
theorem decode_systemReadAck : decode [0xFE#8, 0xFE#8, 0x03#8, 0x15#8, 0x3B#8, 0x00#8, 0x01#8, 0x02#8, 0x03#8, 0x04#8, 0x05#8, 0x06#8, 0x07#8, 0x08#8, 0x09#8, 0x0A#8, 0x0B#8, 0x0C#8, 0x0D#8, 0xCA#8, 0x61#8]
    = .ok (.systemReadAck 0x03#8 0x00#8 [0x01#8, 0x02#8, 0x03#8, 0x04#8, 0x05#8, 0x06#8, 0x07#8, 0x08#8, 0x09#8, 0x0A#8, 0x0B#8, 0x0C#8, 0x0D#8]) := by decide +kernel
/-- R70 with R211. -/
theorem decode_systemWriteAck : decode [0xFE#8, 0xFE#8, 0x04#8, 0x08#8, 0x3C#8, 0xFF#8, 0xB9#8, 0xDC#8]
    = .ok (.systemWriteAck 0x04#8 0xFF#8 []) := by decide
/-- R70 with R211. -/
theorem decode_rebootAck : decode [0xFE#8, 0xFE#8, 0x03#8, 0x08#8, 0x3D#8, 0x00#8, 0x55#8, 0xA0#8]
    = .ok (.rebootAck 0x03#8 0x00#8 []) := by decide
/-- R70 with R211. -/
theorem decode_factoryResetAck : decode [0xFE#8, 0xFE#8, 0x05#8, 0x08#8, 0x3E#8, 0x02#8, 0xDD#8, 0xF2#8]
    = .ok (.factoryResetAck 0x05#8 0x02#8 []) := by decide

/-- Reserved opcodes, wrong lengths and an empty message are no instruction (V-CTL-19 to V-CTL-24, V-CRC-22, V-TX-15). -/
theorem decode_refuses : ([[], [0x00#8], [0x0D#8], [0xFF#8, 0x01#8, 0x02#8], [0x04#8, 0x01#8, 0x02#8], [0x06#8, 0x00#8],
    [0x05#8, 0x50#8, 0xC3#8, 0x00#8], [0x01#8, 0x02#8, 0x00#8, 0x41#8],
    [0x02#8, 0x01#8, 0xA1#8, 0x01#8, 0x03#8, 0xF5#8, 0x01#8]].all fun m => (decode m).toOption.isNone) = true := by decide

/-- A wrong sync byte, length or checksum, too few bytes and an unassigned command are no instruction, each by name
(V-RX-9, V-RX-10, V-RX-12, V-TX-11). -/
theorem decode_frame_refuses :
    decode [0xFE#8, 0xFD#8, 0x01#8, 0x08#8, 0x21#8, 0x00#8, 0x23#8, 0x0B#8] = .error .badSync ∧
    decode [0xFE#8, 0xFE#8, 0x01#8, 0x09#8, 0x21#8, 0x00#8, 0x23#8, 0x0B#8] = .error .badLength ∧
    decode [0xFE#8, 0xFE#8, 0x01#8, 0x06#8, 0xB3#8, 0x96#8] = .error .shortFrame ∧
    decode [0xFE#8, 0xFE#8, 0x01#8, 0x08#8, 0x21#8, 0x00#8, 0x23#8, 0x0C#8] = .error .badChecksum ∧
    decode [0xFE#8, 0xFE#8, 0x01#8, 0x08#8, 0x00#8, 0xFF#8, 0x04#8, 0x20#8] = .error (.unassignedCommand 0x00#8) := by
  decide

/-! ### The table of R101 -/

/-- Entries 0 to 31 (R101). -/
def table0 : List Word16 := [
  0x0000#16, 0x1021#16, 0x2042#16, 0x3063#16, 0x4084#16, 0x50A5#16, 0x60C6#16, 0x70E7#16,
  0x8108#16, 0x9129#16, 0xA14A#16, 0xB16B#16, 0xC18C#16, 0xD1AD#16, 0xE1CE#16, 0xF1EF#16,
  0x1231#16, 0x0210#16, 0x3273#16, 0x2252#16, 0x52B5#16, 0x4294#16, 0x72F7#16, 0x62D6#16,
  0x9339#16, 0x8318#16, 0xB37B#16, 0xA35A#16, 0xD3BD#16, 0xC39C#16, 0xF3FF#16, 0xE3DE#16]
/-- Entries 32 to 63 (R101). -/
def table1 : List Word16 := [
  0x2462#16, 0x3443#16, 0x0420#16, 0x1401#16, 0x64E6#16, 0x74C7#16, 0x44A4#16, 0x5485#16,
  0xA56A#16, 0xB54B#16, 0x8528#16, 0x9509#16, 0xE5EE#16, 0xF5CF#16, 0xC5AC#16, 0xD58D#16,
  0x3653#16, 0x2672#16, 0x1611#16, 0x0630#16, 0x76D7#16, 0x66F6#16, 0x5695#16, 0x46B4#16,
  0xB75B#16, 0xA77A#16, 0x9719#16, 0x8738#16, 0xF7DF#16, 0xE7FE#16, 0xD79D#16, 0xC7BC#16]
/-- Entries 64 to 95 (R101). -/
def table2 : List Word16 := [
  0x48C4#16, 0x58E5#16, 0x6886#16, 0x78A7#16, 0x0840#16, 0x1861#16, 0x2802#16, 0x3823#16,
  0xC9CC#16, 0xD9ED#16, 0xE98E#16, 0xF9AF#16, 0x8948#16, 0x9969#16, 0xA90A#16, 0xB92B#16,
  0x5AF5#16, 0x4AD4#16, 0x7AB7#16, 0x6A96#16, 0x1A71#16, 0x0A50#16, 0x3A33#16, 0x2A12#16,
  0xDBFD#16, 0xCBDC#16, 0xFBBF#16, 0xEB9E#16, 0x9B79#16, 0x8B58#16, 0xBB3B#16, 0xAB1A#16]
/-- Entries 96 to 127 (R101). -/
def table3 : List Word16 := [
  0x6CA6#16, 0x7C87#16, 0x4CE4#16, 0x5CC5#16, 0x2C22#16, 0x3C03#16, 0x0C60#16, 0x1C41#16,
  0xEDAE#16, 0xFD8F#16, 0xCDEC#16, 0xDDCD#16, 0xAD2A#16, 0xBD0B#16, 0x8D68#16, 0x9D49#16,
  0x7E97#16, 0x6EB6#16, 0x5ED5#16, 0x4EF4#16, 0x3E13#16, 0x2E32#16, 0x1E51#16, 0x0E70#16,
  0xFF9F#16, 0xEFBE#16, 0xDFDD#16, 0xCFFC#16, 0xBF1B#16, 0xAF3A#16, 0x9F59#16, 0x8F78#16]
/-- Entries 128 to 159 (R101). -/
def table4 : List Word16 := [
  0x9188#16, 0x81A9#16, 0xB1CA#16, 0xA1EB#16, 0xD10C#16, 0xC12D#16, 0xF14E#16, 0xE16F#16,
  0x1080#16, 0x00A1#16, 0x30C2#16, 0x20E3#16, 0x5004#16, 0x4025#16, 0x7046#16, 0x6067#16,
  0x83B9#16, 0x9398#16, 0xA3FB#16, 0xB3DA#16, 0xC33D#16, 0xD31C#16, 0xE37F#16, 0xF35E#16,
  0x02B1#16, 0x1290#16, 0x22F3#16, 0x32D2#16, 0x4235#16, 0x5214#16, 0x6277#16, 0x7256#16]
/-- Entries 160 to 191 (R101). -/
def table5 : List Word16 := [
  0xB5EA#16, 0xA5CB#16, 0x95A8#16, 0x8589#16, 0xF56E#16, 0xE54F#16, 0xD52C#16, 0xC50D#16,
  0x34E2#16, 0x24C3#16, 0x14A0#16, 0x0481#16, 0x7466#16, 0x6447#16, 0x5424#16, 0x4405#16,
  0xA7DB#16, 0xB7FA#16, 0x8799#16, 0x97B8#16, 0xE75F#16, 0xF77E#16, 0xC71D#16, 0xD73C#16,
  0x26D3#16, 0x36F2#16, 0x0691#16, 0x16B0#16, 0x6657#16, 0x7676#16, 0x4615#16, 0x5634#16]
/-- Entries 192 to 223 (R101). -/
def table6 : List Word16 := [
  0xD94C#16, 0xC96D#16, 0xF90E#16, 0xE92F#16, 0x99C8#16, 0x89E9#16, 0xB98A#16, 0xA9AB#16,
  0x5844#16, 0x4865#16, 0x7806#16, 0x6827#16, 0x18C0#16, 0x08E1#16, 0x3882#16, 0x28A3#16,
  0xCB7D#16, 0xDB5C#16, 0xEB3F#16, 0xFB1E#16, 0x8BF9#16, 0x9BD8#16, 0xABBB#16, 0xBB9A#16,
  0x4A75#16, 0x5A54#16, 0x6A37#16, 0x7A16#16, 0x0AF1#16, 0x1AD0#16, 0x2AB3#16, 0x3A92#16]
/-- Entries 224 to 255 (R101). -/
def table7 : List Word16 := [
  0xFD2E#16, 0xED0F#16, 0xDD6C#16, 0xCD4D#16, 0xBDAA#16, 0xAD8B#16, 0x9DE8#16, 0x8DC9#16,
  0x7C26#16, 0x6C07#16, 0x5C64#16, 0x4C45#16, 0x3CA2#16, 0x2C83#16, 0x1CE0#16, 0x0CC1#16,
  0xEF1F#16, 0xFF3E#16, 0xCF5D#16, 0xDF7C#16, 0xAF9B#16, 0xBFBA#16, 0x8FD9#16, 0x9FF8#16,
  0x6E17#16, 0x7E36#16, 0x4E55#16, 0x5E74#16, 0x2E93#16, 0x3EB2#16, 0x0ED1#16, 0x1EF0#16]

/-- The construction of R100 gives the printed contents of R101. -/
theorem table_is_R101 : crcTable = table0 ++ table1 ++ table2 ++ table3 ++ table4 ++ table5 ++ table6 ++ table7 := by
  decide +kernel

/-! ### One step of each request -/

/-- V-CRC-15. -/
theorem test_crc_check_value : stepAnswers (starting [0x01#8, 0x09#8, 0x00#8, 0x31#8, 0x32#8, 0x33#8, 0x34#8, 0x35#8, 0x36#8, 0x37#8, 0x38#8, 0x39#8] []) = some [[0x01#8, 0xC3#8, 0x31#8]] := by decide
/-- V-CRC-13. -/
theorem test_crc_ff_ff : stepAnswers (starting [0x01#8, 0x02#8, 0x00#8, 0xFF#8, 0xFF#8] []) = some [[0x01#8, 0x0F#8, 0x1D#8]] := by decide
/-- V-TX-1 and V-TX-12: the frame, and the flush. -/
theorem test_tx_memwrite : stepAnswers (starting [0x02#8, 0x01#8, 0xA1#8, 0x01#8, 0x03#8, 0xF5#8, 0x01#8, 0x01#8] [0x68#8, 0x23#8]) = some [[0x01#8, 0x0B#8, 0xFE#8, 0xFE#8, 0x01#8, 0x0B#8, 0xA1#8, 0x01#8, 0xF5#8, 0x01#8, 0x01#8, 0x72#8, 0x12#8]] ∧
    stepRxq (starting [0x02#8, 0x01#8, 0xA1#8, 0x01#8, 0x03#8, 0xF5#8, 0x01#8, 0x01#8] [0x68#8, 0x23#8]) = some [] := by decide
/-- V-TX-6 and V-TX-13: nothing flushed, nothing sent. -/
theorem test_tx_bad_id : stepAnswers (starting [0x02#8, 0xF0#8, 0xA0#8, 0x00#8, 0x00#8] [0x68#8]) = some [[0x00#8]] ∧
    stepRxq (starting [0x02#8, 0xF0#8, 0xA0#8, 0x00#8, 0x00#8] [0x68#8]) = some [0x68#8] ∧ stepOut (starting [0x02#8, 0xF0#8, 0xA0#8, 0x00#8, 0x00#8] [0x68#8]) = some [] := by decide
/-- R140, R143. -/
theorem test_rx_starts : stepAnswers (starting [0x03#8] [0x68#8]) = some [] ∧ stepRxq (starting [0x03#8] [0x68#8]) = some [0x68#8] ∧
    onNext (fun t => ((t.engineAt 0).phase, (t.engineAt 0).want, (t.engineAt 0).timer, (t.engineAt 0).cur)) (step (starting [0x03#8] [0x68#8]))
      = some (.rxHdr, 6, .running, some ⟨1, [0x03#8]⟩) := by decide
/-- V-RX-12. -/
theorem test_rx_rejects_checksum : stepAnswers (receiving .rxBody [0xFE#8, 0xFE#8, 0x01#8, 0x08#8, 0x21#8, 0x00#8, 0x23#8, 0x0C#8] 0 .running []) = some [[0x00#8]] ∧
    onNext (fun t => t.responses.map Response.cause) (step (receiving .rxBody [0xFE#8, 0xFE#8, 0x01#8, 0x08#8, 0x21#8, 0x00#8, 0x23#8, 0x0C#8] 0 .running [])) = some [some .integrity] := by decide
/-- V-CTL-3. -/
theorem test_setbaud_7 : stepAnswers (starting [0x04#8, 0x07#8] []) = some [[0x01#8]] ∧
    onNext (fun t => ((t.engineAt 0).cfgBaudIdx, (t.engineAt 0).cfgTimeout, (t.lineAt 0).baudIdx, (t.lineAt 0).timeout)) (step (starting [0x04#8, 0x07#8] []))
      = some (0x07#8, 100000#32, 7#3, 100000#32) := by decide
/-- V-CTL-4. -/
theorem test_setbaud_8 : stepAnswers (starting [0x04#8, 0x08#8] []) = some [[0x00#8]] ∧
    onNext (fun t => ((t.engineAt 0).cfgBaudIdx, (t.engineAt 0).cfgTimeout, (t.lineAt 0).baudIdx, (t.lineAt 0).timeout)) (step (starting [0x04#8, 0x08#8] []))
      = some (0x01#8, 100000#32, 1#3, 100000#32) := by decide
/-- V-CTL-8. -/
theorem test_settmo : stepAnswers (starting [0x05#8, 0x50#8, 0xC3#8, 0x00#8, 0x00#8] []) = some [[0x01#8]] ∧
    onNext (fun t => ((t.engineAt 0).cfgBaudIdx, (t.engineAt 0).cfgTimeout, (t.lineAt 0).baudIdx, (t.lineAt 0).timeout)) (step (starting [0x05#8, 0x50#8, 0xC3#8, 0x00#8, 0x00#8] []))
      = some (0x01#8, 50000#32, 1#3, 50000#32) := by decide
/-- V-CTL-1. -/
theorem test_getbaud : stepAnswers (starting [0x06#8] []) = some [[0x01#8, 0x01#8]] := by decide
/-- V-CTL-2. -/
theorem test_gettmo : stepAnswers (starting [0x07#8] []) = some [[0x01#8, 0xA0#8, 0x86#8, 0x01#8, 0x00#8]] := by decide
/-- V-CTL-12, R174: the cached byte, here the one an accepted frame left. -/
theorem test_getstat : stepAnswers ((starting [0x08#8] []).updEngineAt 0 fun e => { e with lastStatus := 0x04#8 })
    = some [[0x01#8, 0x04#8]] := by decide
/-- V-CTL-13. -/
theorem test_locktry_free : stepAnswers { starting [0x09#8] [] with locks := [false] } = some [[0x01#8]] ∧
    onNext State.locks (step { starting [0x09#8] [] with locks := [false] }) = some [true] := by decide
/-- V-CTL-14. -/
theorem test_locktry_held : stepAnswers { starting [0x09#8] [] with locks := [true] } = some [[0x00#8]] ∧
    onNext State.locks (step { starting [0x09#8] [] with locks := [true] }) = some [true] := by decide
/-- V-CTL-15. -/
theorem test_unlock_held : stepAnswers { starting [0x0A#8] [] with locks := [true] } = some [[0x01#8]] ∧
    onNext State.locks (step { starting [0x0A#8] [] with locks := [true] }) = some [false] := by decide
/-- V-CTL-16. -/
theorem test_unlock_free : stepAnswers { starting [0x0A#8] [] with locks := [false] } = some [[0x00#8]] ∧
    onNext State.locks (step { starting [0x0A#8] [] with locks := [false] }) = some [false] := by decide
/-- V-CTL-18: 300 bytes, and the queue is as it was. -/
theorem test_rxavail_300 : stepAnswers (starting [0x0B#8] (List.replicate 300 0x55#8)) = some [[0x01#8, 0x2C#8, 0x01#8]] ∧
    stepRxq (starting [0x0B#8] (List.replicate 300 0x55#8)) = some (List.replicate 300 0x55#8) := by decide +kernel
/-- V-CTL-17. -/
theorem test_rxavail_empty : stepAnswers (starting [0x0B#8] []) = some [[0x01#8, 0x00#8, 0x00#8]] := by decide
/-- V-CRC-6. -/
theorem test_tblrd_fe : stepAnswers (starting [0x0C#8, 0xFE#8] []) = some [[0x01#8, 0xD1#8, 0x0E#8]] := by decide
/-- V-CRC-4. -/
theorem test_tblrd_10 : stepAnswers (starting [0x0C#8, 0x10#8] []) = some [[0x01#8, 0x31#8, 0x12#8]] := by decide
/-- V-CTL-20. -/
theorem test_illegal_opcode : stepAnswers (starting [0x0D#8] [0x68#8]) = some [[0x00#8]] := by decide
/-- V-CRC-22. -/
theorem test_malformed_crc : stepAnswers (starting [0x01#8, 0x02#8, 0x00#8, 0x41#8] [0x68#8]) = some [[0x00#8]] := by decide

/-! ### One step of each wire row: a request is sent by the TX that carries it, an acknowledgement is accepted by the RX -/

/-- V-TX-5. -/
theorem test_memRead_sent : stepOut (starting [0x02#8, 0x00#8, 0xA0#8, 0x00#8, 0x03#8, 0x00#8, 0x00#8, 0x01#8] [])
    = some [⟨0, 1#3, [0xFE#8, 0xFE#8, 0x00#8, 0x0B#8, 0xA0#8, 0x00#8, 0x00#8, 0x00#8, 0x01#8, 0x65#8, 0x4D#8]⟩] := by decide
/-- V-TX-1, E1. -/
theorem test_memWrite_sent : stepOut (starting [0x02#8, 0x01#8, 0xA1#8, 0x01#8, 0x03#8, 0xF5#8, 0x01#8, 0x01#8] [])
    = some [⟨0, 1#3, [0xFE#8, 0xFE#8, 0x01#8, 0x0B#8, 0xA1#8, 0x01#8, 0xF5#8, 0x01#8, 0x01#8, 0x72#8, 0x12#8]⟩] := by decide
/-- V-TX-4. -/
theorem test_load_sent : stepOut (starting [0x02#8, 0xEF#8, 0xA2#8, 0x00#8, 0x00#8] [])
    = some [⟨0, 1#3, [0xFE#8, 0xFE#8, 0xEF#8, 0x08#8, 0xA2#8, 0x00#8, 0x58#8, 0x63#8]⟩] := by decide
/-- V-TX-3. -/
theorem test_save_sent : stepOut (starting [0x02#8, 0xFF#8, 0xA3#8, 0x00#8, 0x00#8] [])
    = some [⟨0, 1#3, [0xFE#8, 0xFE#8, 0xFF#8, 0x08#8, 0xA3#8, 0x00#8, 0xCE#8, 0x4B#8]⟩] := by decide
/-- R120 with R204. -/
theorem test_motorRead_sent : stepOut (starting [0x02#8, 0x07#8, 0xA4#8, 0x02#8, 0x01#8, 0x10#8] [])
    = some [⟨0, 1#3, [0xFE#8, 0xFE#8, 0x07#8, 0x09#8, 0xA4#8, 0x02#8, 0x10#8, 0xA3#8, 0x8D#8]⟩] := by decide
/-- R120 with R205. -/
theorem test_motorWrite_sent : stepOut (starting [0x02#8, 0x08#8, 0xA5#8, 0x03#8, 0x02#8, 0xFE#8, 0xFE#8] [])
    = some [⟨0, 1#3, [0xFE#8, 0xFE#8, 0x08#8, 0x0A#8, 0xA5#8, 0x03#8, 0xFE#8, 0xFE#8, 0x1C#8, 0xB4#8]⟩] := by decide
/-- P6 step 3. -/
theorem test_systemRead_sent : stepOut (starting [0x02#8, 0x03#8, 0xBB#8, 0x00#8, 0x00#8] [])
    = some [⟨0, 1#3, [0xFE#8, 0xFE#8, 0x03#8, 0x08#8, 0xBB#8, 0x00#8, 0x6B#8, 0x11#8]⟩] := by decide
/-- R120 with R207. -/
theorem test_systemWrite_sent : stepOut (starting [0x02#8, 0x04#8, 0xBC#8, 0x09#8, 0x03#8, 0x01#8, 0x02#8, 0x03#8] [])
    = some [⟨0, 1#3, [0xFE#8, 0xFE#8, 0x04#8, 0x0B#8, 0xBC#8, 0x09#8, 0x01#8, 0x02#8, 0x03#8, 0xB5#8, 0x81#8]⟩] := by decide
/-- V-TX-2. -/
theorem test_reboot_sent : stepOut (starting [0x02#8, 0x03#8, 0xBD#8, 0x00#8, 0x00#8] [])
    = some [⟨0, 1#3, [0xFE#8, 0xFE#8, 0x03#8, 0x08#8, 0xBD#8, 0x00#8, 0xCD#8, 0xBB#8]⟩] := by decide
/-- R120 with R209. -/
theorem test_factoryReset_sent : stepOut (starting [0x02#8, 0x05#8, 0xBE#8, 0x00#8, 0x01#8, 0xAA#8] [])
    = some [⟨0, 1#3, [0xFE#8, 0xFE#8, 0x05#8, 0x09#8, 0xBE#8, 0x00#8, 0xAA#8, 0x71#8, 0x2D#8]⟩] := by decide
/-- R120 with R210. -/
theorem test_systemInit_sent : stepOut (starting [0x02#8, 0x06#8, 0xBF#8, 0x00#8, 0x00#8] [])
    = some [⟨0, 1#3, [0xFE#8, 0xFE#8, 0x06#8, 0x08#8, 0xBF#8, 0x00#8, 0xEA#8, 0x61#8]⟩] := by decide
/-- V-RX-20. -/
theorem test_memReadAck_accepted :
    stepAnswers (receiving .rxBody [0xFE#8, 0xFE#8, 0x05#8, 0x09#8, 0x20#8, 0x00#8, 0x2A#8, 0xC1#8, 0xDF#8] 0 .running [0x68#8])
      = some [[0x01#8, 0x09#8, 0xFE#8, 0xFE#8, 0x05#8, 0x09#8, 0x20#8, 0x00#8, 0x2A#8, 0xC1#8, 0xDF#8]] ∧
    stepStatus (receiving .rxBody [0xFE#8, 0xFE#8, 0x05#8, 0x09#8, 0x20#8, 0x00#8, 0x2A#8, 0xC1#8, 0xDF#8] 0 .running [0x68#8])
      = some 0x00#8 := by decide
/-- V-RX-2. -/
theorem test_memWriteAck_accepted :
    stepAnswers (receiving .rxBody [0xFE#8, 0xFE#8, 0x01#8, 0x08#8, 0x21#8, 0x04#8, 0xA7#8, 0x4B#8] 0 .running [0x68#8])
      = some [[0x01#8, 0x08#8, 0xFE#8, 0xFE#8, 0x01#8, 0x08#8, 0x21#8, 0x04#8, 0xA7#8, 0x4B#8]] ∧
    stepStatus (receiving .rxBody [0xFE#8, 0xFE#8, 0x01#8, 0x08#8, 0x21#8, 0x04#8, 0xA7#8, 0x4B#8] 0 .running [0x68#8])
      = some 0x04#8 := by decide
/-- R145 with R211. -/
theorem test_loadAck_accepted :
    stepAnswers (receiving .rxBody [0xFE#8, 0xFE#8, 0xEF#8, 0x08#8, 0x22#8, 0x00#8, 0xC0#8, 0x78#8] 0 .running [0x68#8])
      = some [[0x01#8, 0x08#8, 0xFE#8, 0xFE#8, 0xEF#8, 0x08#8, 0x22#8, 0x00#8, 0xC0#8, 0x78#8]] ∧
    stepStatus (receiving .rxBody [0xFE#8, 0xFE#8, 0xEF#8, 0x08#8, 0x22#8, 0x00#8, 0xC0#8, 0x78#8] 0 .running [0x68#8])
      = some 0x00#8 := by decide
/-- R145 with R211. -/
theorem test_saveAck_accepted :
    stepAnswers (receiving .rxBody [0xFE#8, 0xFE#8, 0x09#8, 0x08#8, 0x23#8, 0x01#8, 0xA3#8, 0xF8#8] 0 .running [0x68#8])
      = some [[0x01#8, 0x08#8, 0xFE#8, 0xFE#8, 0x09#8, 0x08#8, 0x23#8, 0x01#8, 0xA3#8, 0xF8#8]] ∧
    stepStatus (receiving .rxBody [0xFE#8, 0xFE#8, 0x09#8, 0x08#8, 0x23#8, 0x01#8, 0xA3#8, 0xF8#8] 0 .running [0x68#8])
      = some 0x01#8 := by decide
/-- R145 with R211. -/
theorem test_motorReadAck_accepted :
    stepAnswers (receiving .rxBody [0xFE#8, 0xFE#8, 0x07#8, 0x0B#8, 0x24#8, 0x00#8, 0x01#8, 0x34#8, 0x12#8, 0xC4#8, 0x23#8] 0 .running [0x68#8])
      = some [[0x01#8, 0x0B#8, 0xFE#8, 0xFE#8, 0x07#8, 0x0B#8, 0x24#8, 0x00#8, 0x01#8, 0x34#8, 0x12#8, 0xC4#8, 0x23#8]] ∧
    stepStatus (receiving .rxBody [0xFE#8, 0xFE#8, 0x07#8, 0x0B#8, 0x24#8, 0x00#8, 0x01#8, 0x34#8, 0x12#8, 0xC4#8, 0x23#8] 0 .running [0x68#8])
      = some 0x00#8 := by decide
/-- R145 with R211. -/
theorem test_motorWriteAck_accepted :
    stepAnswers (receiving .rxBody [0xFE#8, 0xFE#8, 0x08#8, 0x09#8, 0x25#8, 0x80#8, 0x00#8, 0xFB#8, 0x8B#8] 0 .running [0x68#8])
      = some [[0x01#8, 0x09#8, 0xFE#8, 0xFE#8, 0x08#8, 0x09#8, 0x25#8, 0x80#8, 0x00#8, 0xFB#8, 0x8B#8]] ∧
    stepStatus (receiving .rxBody [0xFE#8, 0xFE#8, 0x08#8, 0x09#8, 0x25#8, 0x80#8, 0x00#8, 0xFB#8, 0x8B#8] 0 .running [0x68#8])
      = some 0x80#8 := by decide
/-- R145 with R211. -/
theorem test_systemReadAck_accepted :
    stepAnswers (receiving .rxBody [0xFE#8, 0xFE#8, 0x03#8, 0x15#8, 0x3B#8, 0x00#8, 0x01#8, 0x02#8, 0x03#8, 0x04#8, 0x05#8, 0x06#8, 0x07#8, 0x08#8, 0x09#8, 0x0A#8, 0x0B#8, 0x0C#8, 0x0D#8, 0xCA#8, 0x61#8] 0 .running [0x68#8])
      = some [[0x01#8, 0x15#8, 0xFE#8, 0xFE#8, 0x03#8, 0x15#8, 0x3B#8, 0x00#8, 0x01#8, 0x02#8, 0x03#8, 0x04#8, 0x05#8, 0x06#8, 0x07#8, 0x08#8, 0x09#8, 0x0A#8, 0x0B#8, 0x0C#8, 0x0D#8, 0xCA#8, 0x61#8]] ∧
    stepStatus (receiving .rxBody [0xFE#8, 0xFE#8, 0x03#8, 0x15#8, 0x3B#8, 0x00#8, 0x01#8, 0x02#8, 0x03#8, 0x04#8, 0x05#8, 0x06#8, 0x07#8, 0x08#8, 0x09#8, 0x0A#8, 0x0B#8, 0x0C#8, 0x0D#8, 0xCA#8, 0x61#8] 0 .running [0x68#8])
      = some 0x00#8 := by decide +kernel
/-- R145 with R211. -/
theorem test_systemWriteAck_accepted :
    stepAnswers (receiving .rxBody [0xFE#8, 0xFE#8, 0x04#8, 0x08#8, 0x3C#8, 0xFF#8, 0xB9#8, 0xDC#8] 0 .running [0x68#8])
      = some [[0x01#8, 0x08#8, 0xFE#8, 0xFE#8, 0x04#8, 0x08#8, 0x3C#8, 0xFF#8, 0xB9#8, 0xDC#8]] ∧
    stepStatus (receiving .rxBody [0xFE#8, 0xFE#8, 0x04#8, 0x08#8, 0x3C#8, 0xFF#8, 0xB9#8, 0xDC#8] 0 .running [0x68#8])
      = some 0xFF#8 := by decide
/-- R145 with R211. -/
theorem test_rebootAck_accepted :
    stepAnswers (receiving .rxBody [0xFE#8, 0xFE#8, 0x03#8, 0x08#8, 0x3D#8, 0x00#8, 0x55#8, 0xA0#8] 0 .running [0x68#8])
      = some [[0x01#8, 0x08#8, 0xFE#8, 0xFE#8, 0x03#8, 0x08#8, 0x3D#8, 0x00#8, 0x55#8, 0xA0#8]] ∧
    stepStatus (receiving .rxBody [0xFE#8, 0xFE#8, 0x03#8, 0x08#8, 0x3D#8, 0x00#8, 0x55#8, 0xA0#8] 0 .running [0x68#8])
      = some 0x00#8 := by decide
/-- R145 with R211. -/
theorem test_factoryResetAck_accepted :
    stepAnswers (receiving .rxBody [0xFE#8, 0xFE#8, 0x05#8, 0x08#8, 0x3E#8, 0x02#8, 0xDD#8, 0xF2#8] 0 .running [0x68#8])
      = some [[0x01#8, 0x08#8, 0xFE#8, 0xFE#8, 0x05#8, 0x08#8, 0x3E#8, 0x02#8, 0xDD#8, 0xF2#8]] ∧
    stepStatus (receiving .rxBody [0xFE#8, 0xFE#8, 0x05#8, 0x08#8, 0x3E#8, 0x02#8, 0xDD#8, 0xF2#8] 0 .running [0x68#8])
      = some 0x02#8 := by decide

/-! ### The receiver and the other agents, one step each -/

/-- V-RX-7: a chunk that expired short starts another while a byte waits. -/
theorem test_rx_reads_on : onNext (fun t => ((t.engineAt 0).phase, (t.engineAt 0).want, (t.engineAt 0).timer))
    (step (receiving .rxBody [0xFE#8, 0xFE#8, 0x01#8, 0x08#8, 0x21#8, 0x00#8, 0x23#8] 1 .expired [0x0B#8]))
      = some (.rxBody, 1, .running) := by decide
/-- V-RX-8: with none waiting it fails, and nothing is put back. -/
theorem test_rx_short_body : stepAnswers (receiving .rxBody [0xFE#8, 0xFE#8, 0x01#8, 0x08#8, 0x21#8, 0x00#8, 0x23#8] 1 .expired [])
    = some [[0x00#8]] := by decide
/-- V-RX-9: bad sync, and still the remainder of 2 is read. -/
theorem test_rx_bad_sync_reads_remainder : onNext (fun t => ((t.engineAt 0).phase, (t.engineAt 0).want))
    (step (receiving .rxHdr [0xFE#8, 0xFD#8, 0x01#8, 0x08#8, 0x21#8, 0x00#8] 0 .running [0x23#8, 0x0B#8]))
      = some (.rxBody, 2) := by decide
/-- V-RX-10: a length of 6 reads no remainder and fails. -/
theorem test_rx_length_6 : stepAnswers (receiving .rxHdr [0xFE#8, 0xFE#8, 0x01#8, 0x06#8, 0xB3#8, 0x96#8] 0 .running [])
    = some [[0x00#8]] := by decide
/-- R141: a waiting byte is taken, oldest first, and a waiting byte keeps the timer from expiring. -/
theorem test_rx_takes_before_expiry :
    stepRxq (receiving .rxHdr [0xFE#8] 5 .running [0xFE#8, 0x01#8]) = some [0x01#8] ∧
    onNext (fun t => (t.engineAt 0).timer) (step (awaiting (.expire 0) (receiving .rxHdr [0xFE#8] 5 .running [0xFE#8])))
      = some .running ∧
    onNext (fun t => (t.engineAt 0).timer) (step (awaiting (.expire 0) (receiving .rxHdr [0xFE#8] 5 .running [])))
      = some .expired := by decide
/-- R16: the 300th byte is kept, the 301st lost. -/
theorem test_rxq_overflow :
    onNext (fun t => (t.lineAt 0).rxq.length) (step (awaiting (.arrive 0 0x55#8) (starting [] (List.replicate 299 0#8)))) = some 300 ∧
    onNext (fun t => (t.lineAt 0).rxq) (step (awaiting (.arrive 0 0x55#8) (starting [] (List.replicate 300 0#8))))
      = some (List.replicate 300 0#8) := by decide +kernel
/-- R179: requests queue in arrival order with their hosts; a host beyond N_HOSTS delivers nothing. -/
theorem test_delivery :
    onNext (fun t => (t.engineAt 0).reqq) (step (awaiting (.deliver 0 0 [0x06#8]) (starting [0x09#8] [])))
      = some [⟨1, [0x09#8]⟩, ⟨0, [0x06#8]⟩] ∧
    onNext (fun t => (t.engineAt 0).reqq) (step (awaiting (.deliver 0 2 [0x06#8]) (starting [0x09#8] [])))
      = some [⟨1, [0x09#8]⟩] := by decide
/-- V-TX-14: a shared line gets the sending engine's settings. -/
theorem test_tx_applies_settings :
    stepOut ((starting [0x02#8, 0x03#8, 0xBD#8, 0x00#8, 0x00#8] []).updLineAt 0 fun l => { l with baudIdx := 5#3 })
      = some [⟨0, 1#3, [0xFE#8, 0xFE#8, 0x03#8, 0x08#8, 0xBD#8, 0x00#8, 0xCD#8, 0xBB#8]⟩] := by decide

/-! ### Words of the opcode table from State.reset -/

/-- The decoder reads every row from its match value alone, and the step runs it after reset. -/
theorem test_table_words :
    decodeTableWord 8 0x04 = some (.setBaud 0#8) ∧ decodeTableWord 8 0xA0 = some (.memRead 0#8 0#8 []) ∧
    decodeTableWord 8 0x21 = some (.memWriteAck 0#8 0#8 []) ∧ decodeTableWord 8 0x0D = none := by decide
theorem test_fetch_locktry : onNext State.lockHeld (step (State.reset.withFetchWord 8 0x09)) = some true := by decide
theorem test_fetch_memread : onNext (fun t => t.line.out.map Sent.frame) (step (State.reset.withFetchWord 8 0xA0))
    = some [[0xFE#8, 0xFE#8, 0x00#8, 0x08#8, 0xA0#8, 0x00#8, 0x3E#8, 0x55#8]] := by decide
theorem test_fetch_memwriteack : onNext (fun t => answers t) (step (State.reset.withFetchWord 8 0x21))
    = some [[0x01#8, 0x08#8, 0xFE#8, 0xFE#8, 0x00#8, 0x08#8, 0x21#8, 0x00#8, 0x97#8, 0x7D#8]] := by decide

/-! ### The host's side -/

/-- R86: the text of a TX. -/
theorem test_asm_tx : asmText (.tx 0x01#8 0xA1#8 0x01#8 [0xF5#8, 0x01#8, 0x01#8]) = some "TX 1, 161, 1, [245, 1, 1]" := by
  decide
/-- R87: an XACT to a broadcast id has no RX. -/
theorem test_xact_broadcast : xactNext 0xFF#8 [0x01#8, 0x08#8] .sending = .unlocking ∧
    xactNext 0x01#8 [0x01#8, 0x08#8] .sending = .receiving ∧ xactNext 0x01#8 [0x00#8] .sending = .unlocking ∧
    xactNext 0x01#8 [0x00#8] .locking = .locking := by decide
/-- R200, R201, R207 (E3, E4): the ranges a host checks. -/
theorem test_host_ranges : memReadArgsOk 0x4FF 247 = true ∧ memReadArgsOk 0x500 1 = false ∧ memReadArgsOk 0 0 = false ∧
    memReadArgsOk 0 248 = false ∧ memWriteArgsOk 0x500 = false ∧ systemWriteArgsOk 239 7 2 255 = true ∧
    systemWriteArgsOk 240 7 2 255 = false ∧ systemWriteArgsOk 0 8 0 1 = false ∧ systemWriteArgsOk 0 0 3 1 = false ∧
    systemWriteArgsOk 0 0 0 0 = false := by decide
/-- R213: the ack of E1 answers a MemWrite to id 1, and not one to id 2, nor another command, nor with a status bit. -/
theorem test_response_check :
    responseAnswers 0x01#8 .memWrite [0xFE#8, 0xFE#8, 0x01#8, 0x08#8, 0x21#8, 0x00#8, 0x23#8, 0x0B#8] = true ∧
    responseAnswers 0x02#8 .memWrite [0xFE#8, 0xFE#8, 0x01#8, 0x08#8, 0x21#8, 0x00#8, 0x23#8, 0x0B#8] = false ∧
    responseAnswers 0x01#8 .memRead [0xFE#8, 0xFE#8, 0x01#8, 0x08#8, 0x21#8, 0x00#8, 0x23#8, 0x0B#8] = false ∧
    responseAnswers 0x01#8 .memWrite [0xFE#8, 0xFE#8, 0x01#8, 0x08#8, 0x21#8, 0x04#8, 0xA7#8, 0x4B#8] = false := by
  decide

/-! ### Witnesses: each statement with hypotheses has states and operands that meet them, at the ends of its clauses -/

/-- A running request is being executed. -/
theorem running_executing (m q : List Byte) (held : Bool) : (running m q held).executing (req m) := ⟨rfl, rfl⟩
theorem running_table (m q : List Byte) (held : Bool) : (running m q held).eng.table = crcTable := rfl
theorem starting_aboutToStart (m q : List Byte) : (starting m q).AboutToStart 0 (req m) [] := ⟨rfl, rfl, rfl, rfl, rfl⟩
theorem starting_table (m q : List Byte) : ((starting m q).engineAt 0).table = crcTable := rfl

/-- An accepted response, whose reads are over. -/
def received : State := receiving .rxBody [0xFE#8, 0xFE#8, 0x01#8, 0x08#8, 0x21#8, 0x04#8, 0xA7#8, 0x4B#8] 0 .running [0x68#8]

/-- The same with a wrong trailer. -/
def garbled : State := receiving .rxBody [0xFE#8, 0xFE#8, 0x01#8, 0x08#8, 0x21#8, 0x04#8, 0xA7#8, 0x4C#8] 0 .running []

theorem witness_DecodeOfEncodeIsIdentity : (Instr.tx 0x01#8 0xA1#8 0x00#8 (List.replicate 255 0#8)).wellFormed = true ∧
    (Instr.systemInit 0x01#8 0x00#8 (List.replicate 247 0#8)).wellFormed = true := by decide +kernel
theorem witness_DecodedRequestIsItsEncoding : decodeRequest [0x01#8, 0x00#8, 0x00#8] = .ok (.crc []) ∧
    decodeRequest [0x02#8, 0x01#8, 0xA0#8, 0x00#8, 0x01#8, 0xFF#8] = .ok (.tx 0x01#8 0xA0#8 0x00#8 [0xFF#8]) := by decide
theorem witness_DecodedFrameIsItsEncoding :
    decodeFrame [0xFE#8, 0xFE#8, 0x05#8, 0x09#8, 0x20#8, 0x00#8, 0x2A#8, 0xC1#8, 0xDF#8]
      = .ok (.memReadAck 0x05#8 0x00#8 [0x2A#8]) := by decide
theorem witness_StepRunsDecodedRequest : (starting [0x0C#8, 0x01#8] []).AboutToStart 0 (req [0x0C#8, 0x01#8]) [] ∧
    decodeRequest (req [0x0C#8, 0x01#8]).message = .ok (.tblRd 0x01#8) := ⟨starting_aboutToStart _ _, by decide⟩
theorem witness_StepRunsDecodedFrame : received.AboutToReceive 0 (req [0x03#8]) ∧
    (received.elapse.activate 0).readsOver = true ∧ (received.engineAt 0).table = crcTable ∧
    decodeFrame (received.engineAt 0).acc = .ok (.memWriteAck 0x01#8 0x04#8 []) :=
  ⟨⟨rfl, rfl, by decide, rfl, rfl⟩, by decide, rfl, by decide⟩
theorem witness_IllegalRequestAnswersZero : ((0x00#8).toNat = 0 ∧ 13 ≤ (0x0D#8).toNat ∧ 13 ≤ (0xFF#8).toNat) ∧
    (starting [0x01#8, 0x02#8, 0x00#8, 0x41#8] []).AboutToStart 0 (req [0x01#8, 0x02#8, 0x00#8, 0x41#8]) [] ∧
    requestLength [0x01#8, 0x02#8, 0x00#8, 0x41#8] ≠ some 4 ∧ requestLength [] ≠ some 0 :=
  ⟨by decide, starting_aboutToStart _ _, by decide, by decide⟩
theorem witness_OtherRequestsCompleteAtOnce : (starting [0x09#8] []).AboutToStart 0 (req [0x09#8]) [] ∧
    (req [0x09#8]).message ≠ [0x03#8] ∧ (starting [0x03#8, 0x00#8] []).AboutToStart 0 (req [0x03#8, 0x00#8]) [] ∧
    (req [0x03#8, 0x00#8]).message ≠ [0x03#8] :=
  ⟨starting_aboutToStart _ _, by decide, starting_aboutToStart _ _, by decide⟩
theorem witness_ChecksumIsLinearAndSeesOneBit :
    ([0xFE#8, 0xFE#8] : List Byte).length = ([0x00#8, 0x01#8] : List Byte).length ∧
    1 < ([0xFE#8, 0xFE#8] : List Byte).length ∧ 7 < 8 := by decide
theorem witness_IdleEngineTakesNoStep : (awaiting (.engine 1) demo).nextEvent = .engine 1 ∧
    (awaiting (.engine 1) demo).wired 1 = true ∧ ((awaiting (.engine 1) demo).engineAt 1).phase = .idle ∧
    ((awaiting (.engine 1) demo).engineAt 1).reqq = [] := ⟨rfl, by decide, rfl, rfl⟩
theorem witness_CrcAnswersTheChecksum : ((List.replicate 65535 0#8 : List Byte).length ≤ 65535 ∧ ([] : List Byte).length ≤ 65535) ∧
    (running [0x01#8, 0x00#8, 0x00#8] [] false).executing (req [0x01#8, 0x00#8, 0x00#8]) ∧
    (running [0x01#8, 0x00#8, 0x00#8] [] false).eng.table = crcTable :=
  ⟨⟨by rw [List.length_replicate], by decide⟩, running_executing _ _ _, rfl⟩
theorem witness_TblrdAnswersTheEntry : (running [0x0C#8, 0xFF#8] [] false).executing (req [0x0C#8, 0xFF#8]) ∧
    (running [0x0C#8, 0xFF#8] [] false).eng.table = crcTable := ⟨running_executing _ _ _, rfl⟩
/-- Both outcomes: ids 239 and 255 with 247 params are sent, id 240, id 254 and 248 params are not. -/
theorem witness_TxFollowsItsRule : (running [0x02#8, 0xEF#8, 0xA0#8, 0x00#8, 0x00#8] [] false).executing
      (req [0x02#8, 0xEF#8, 0xA0#8, 0x00#8, 0x00#8]) ∧
    (running [0x02#8, 0xEF#8, 0xA0#8, 0x00#8, 0x00#8] [] false).eng.table = crcTable ∧
    (List.replicate 255 0#8 : List Byte).length ≤ 255 ∧
    (((0xEF#8).toNat ≤ 239 ∨ 0xEF#8 = 0xFF#8) ∧ ((0xFF#8).toNat ≤ 239 ∨ 0xFF#8 = 0xFF#8) ∧
      (List.replicate 247 0#8 : List Byte).length ≤ 247) ∧
    ¬((0xF0#8).toNat ≤ 239 ∨ 0xF0#8 = 0xFF#8) ∧ ¬((0xFE#8).toNat ≤ 239 ∨ 0xFE#8 = 0xFF#8) ∧
    ¬(List.replicate 248 0#8 : List Byte).length ≤ 247 :=
  ⟨running_executing _ _ _, rfl, by decide +kernel, by decide +kernel, by decide, by decide, by decide +kernel⟩
theorem witness_SentFrameGivesItsFieldsBack : (running [0x02#8, 0xFF#8, 0xA3#8, 0x00#8, 0x00#8] [] false).executing
      (req [0x02#8, 0xFF#8, 0xA3#8, 0x00#8, 0x00#8]) ∧
    (running [0x02#8, 0xFF#8, 0xA3#8, 0x00#8, 0x00#8] [] false).eng.table = crcTable ∧
    ((0xFF#8).toNat ≤ 239 ∨ 0xFF#8 = 0xFF#8) ∧ ([] : List Byte).length ≤ 247 :=
  ⟨running_executing _ _ _, rfl, by decide, by decide⟩
theorem witness_TxIgnoresTheLock :
    ∃ t, exec (.tx 0x01#8 0xA1#8 0x01#8 []) (running [0x02#8, 0x01#8, 0xA1#8, 0x01#8, 0x00#8] [] true) = .next t := ⟨_, rfl⟩
theorem witness_TxTreatsEveryCommandAlike : (running [0x02#8, 0x01#8, 0x20#8, 0x00#8, 0x00#8] [] false).executing
      (req [0x02#8, 0x01#8, 0x20#8, 0x00#8, 0x00#8]) ∧ (req [0x02#8, 0x01#8, 0x20#8, 0x00#8, 0x00#8]).isRx = false ∧
    wireInstr 0x20#8 0x01#8 0x00#8 [] = some (.memReadAck 0x01#8 0x00#8 []) ∧
    wireInstr 0xBF#8 0x01#8 0x00#8 [] = some (.systemInit 0x01#8 0x00#8 []) := ⟨running_executing _ _ _, rfl, rfl, rfl⟩
theorem witness_RequestRowsAreSent : (running [0x02#8, 0xEF#8, 0xA0#8, 0x00#8, 0x00#8] [] false).executing
      (req [0x02#8, 0xEF#8, 0xA0#8, 0x00#8, 0x00#8]) ∧ (req [0x02#8, 0xEF#8, 0xA0#8, 0x00#8, 0x00#8]).isRx = false ∧
    (running [0x02#8, 0xEF#8, 0xA0#8, 0x00#8, 0x00#8] [] false).eng.table = crcTable ∧
    ((0xEF#8).toNat ≤ 239 ∨ 0xEF#8 = 0xFF#8) ∧ (List.replicate 247 0#8 : List Byte).length ≤ 247 :=
  ⟨running_executing _ _ _, rfl, rfl, by decide, by decide +kernel⟩
theorem witness_AckRowsAreAccepted : (running [0x03#8] [] false).executing (req [0x03#8]) ∧ (req [0x03#8]).isRx = true ∧
    (running [0x03#8] [] false).eng.table = crcTable ∧ (List.replicate 247 0#8 : List Byte).length ≤ 247 ∧
    ackRow .factoryReset 0x05#8 0x02#8 (List.replicate 247 0#8) = some (.factoryResetAck 0x05#8 0x02#8 (List.replicate 247 0#8)) :=
  ⟨running_executing _ _ _, rfl, rfl, by decide +kernel, rfl⟩
theorem witness_WireRowsGoBothWays :
    ((running [0x03#8] [] false).executing (req [0x03#8]) ∧ (req [0x03#8]).isRx = true ∧
      (running [0x03#8] [] false).eng.table = crcTable ∧ ([] : List Byte).length ≤ 247) ∧
    (running [0x02#8, 0xFF#8, 0x20#8, 0x00#8, 0x00#8] [] false).executing (req [0x02#8, 0xFF#8, 0x20#8, 0x00#8, 0x00#8]) ∧
    (req [0x02#8, 0xFF#8, 0x20#8, 0x00#8, 0x00#8]).isRx = false ∧ ((0xFF#8).toNat ≤ 239 ∨ 0xFF#8 = 0xFF#8) ∧
    ackRow .memRead 0xFF#8 0x00#8 [] = some (.memReadAck 0xFF#8 0x00#8 []) :=
  ⟨⟨running_executing _ _ _, rfl, rfl, by decide⟩, running_executing _ _ _, rfl, by decide, rfl⟩
theorem witness_RxStartsItsHeaderChunk : (running [0x03#8] [0x68#8] true).executing (req [0x03#8]) := running_executing _ _ _
/-- Both cases: a byte waits, or none does. -/
theorem witness_ReceiverTakesOneByteOrWaits :
    (receiving .rxHdr [] 6 .running [0xFE#8]).AboutToReceive 0 (req [0x03#8]) ∧
    ((receiving .rxHdr [] 6 .running [0xFE#8]).engineAt 0).chunkReturned = false ∧
    (receiving .rxBody [0xFE#8] 1 .running []).AboutToReceive 0 (req [0x03#8]) ∧
    ((receiving .rxBody [0xFE#8] 1 .running []).engineAt 0).chunkReturned = false :=
  ⟨⟨rfl, rfl, by decide, rfl, rfl⟩, rfl, ⟨rfl, rfl, by decide, rfl, rfl⟩, rfl⟩
/-- Both cases: enabled, and, with a byte waiting, not. -/
theorem witness_ExpireOnlyWhenEnabled :
    (awaiting (.expire 1) (receiving .rxHdr [] 6 .running [])).nextEvent = .expire 1 ∧
    1 < (awaiting (.expire 1) (receiving .rxHdr [] 6 .running [])).engines.length ∧
    (awaiting (.expire 0) (receiving .rxHdr [] 6 .running [])).expireEnabled 0 = true ∧
    (awaiting (.expire 0) (receiving .rxHdr [] 6 .running [0xFE#8])).expireEnabled 0 = false := ⟨rfl, by decide, rfl, rfl⟩
/-- Both cases at their ends: a length of 7 is read on, a length of 6 and a header of 5 bytes are not. -/
theorem witness_HeaderDecidesTheRemainder :
    (∀ acc want timer q, (receiving .rxHdr acc want timer q).AboutToReceive 0 (req [0x03#8]) ∧
      ((receiving .rxHdr acc want timer q).engineAt 0).phase = .rxHdr) ∧
    ((receiving .rxHdr [0xFE#8, 0xFE#8, 0x01#8, 0x07#8, 0x21#8, 0x0D#8] 0 .running []).engineAt 0).chunkReturned = true ∧
    6 < (byteAt [0xFE#8, 0xFE#8, 0x01#8, 0x07#8, 0x21#8, 0x0D#8] 3).toNat ∧
    ((receiving .rxHdr [0xFE#8, 0xFE#8, 0x01#8, 0x06#8, 0x21#8, 0x0D#8] 0 .running []).engineAt 0).chunkReturned = true ∧
    ¬6 < (byteAt [0xFE#8, 0xFE#8, 0x01#8, 0x06#8, 0x21#8, 0x0D#8] 3).toNat ∧
    ((receiving .rxHdr [0xFE#8, 0xFE#8, 0x01#8, 0x08#8, 0x21#8] 1 .expired []).engineAt 0).chunkReturned = true :=
  ⟨fun _ _ _ _ => ⟨⟨rfl, rfl, by simp [receiving, demo, State.resetOn, demoPlatform, State.engineAt, State.updEngineAt, State.updLineAt], rfl, rfl⟩, rfl⟩,
    rfl, by decide, rfl, by decide, rfl⟩
theorem witness_RemainderReadsOnWhileBytesWait :
    (receiving .rxBody [0xFE#8, 0xFE#8, 0x01#8, 0x08#8, 0x21#8, 0x00#8, 0x23#8] 1 .expired [0x0B#8]).AboutToReceive 0 (req [0x03#8]) ∧
    ((receiving .rxBody [0xFE#8, 0xFE#8, 0x01#8, 0x08#8, 0x21#8, 0x00#8, 0x23#8] 1 .expired [0x0B#8]).engineAt 0).chunkReturned = true ∧
    ((receiving .rxBody [0xFE#8, 0xFE#8, 0x01#8, 0x08#8, 0x21#8, 0x00#8, 0x23#8] 1 .expired [0x0B#8]).engineAt 0).acc.length
      ≠ (byteAt [0xFE#8, 0xFE#8, 0x01#8, 0x08#8, 0x21#8, 0x00#8, 0x23#8] 3).toNat ∧
    ((receiving .rxBody [0xFE#8, 0xFE#8, 0x01#8, 0x08#8, 0x21#8, 0x00#8, 0x23#8] 1 .expired [0x0B#8]).lineAt 0).rxq ≠ [] :=
  ⟨⟨rfl, rfl, by decide, rfl, rfl⟩, rfl, by decide, by decide⟩
/-- Both verdicts. -/
theorem witness_RxAcceptsExactlyWellFormedFrames :
    received.AboutToReceive 0 (req [0x03#8]) ∧ (received.elapse.activate 0).readsOver = true ∧
    (received.engineAt 0).table = crcTable ∧ frameWellFormed (received.engineAt 0).acc = true ∧
    garbled.AboutToReceive 0 (req [0x03#8]) ∧ (garbled.elapse.activate 0).readsOver = true ∧
    (garbled.engineAt 0).table = crcTable ∧ frameWellFormed (garbled.engineAt 0).acc = false :=
  ⟨⟨rfl, rfl, by decide, rfl, rfl⟩, by decide, rfl, by decide, ⟨rfl, rfl, by decide, rfl, rfl⟩, by decide, rfl, by decide⟩
theorem demo_members {P : Engine → Prop} {s : State} (h : s.engines.length = 2) (h0 : P (s.engineAt 0))
    (h1 : P (s.engineAt 1)) : ∀ e ∈ s.engines, P e := by
  intro e he
  obtain ⟨n, hn, rfl⟩ := List.mem_iff_getElem.1 he
  have : n = 0 ∨ n = 1 := by omega
  rcases this with rfl | rfl
  · simpa [State.engineAt, List.getD_eq_getElem?_getD, hn] using h0
  · simpa [State.engineAt, List.getD_eq_getElem?_getD, hn] using h1
/-- Engine 1 on a line of its own. -/
def apart (s : State) : State :=
  { s with platform := { s.platform with wiring := [⟨0, 0⟩, ⟨1, 0⟩] }, lines := s.lines ++ [Line.reset demoPlatform] }

/-- The smallest and the largest frame. -/
theorem witness_RxAcceptsTheFrameTxBuilt (p : List Byte) (hp : p = [] ∨ p = List.replicate 247 0x00#8) :
    let s := { starting [0x03#8] (frameOf 0x01#8 0x21#8 0x00#8 p ++ [0x68#8]) with
      agenda := List.replicate (p.length + 11) (Event.engine 0) ++ [] }
    s.AboutToStart 0 ⟨1, [0x03#8]⟩ [] ∧ (s.engineAt 0).table = crcTable ∧ p.length ≤ 247 ∧
    (s.lineAt (s.lineOf 0)).rxq = frameOf 0x01#8 0x21#8 0x00#8 p ++ [0x68#8] ∧
    s.agenda = List.replicate (p.length + 11) (Event.engine 0) ++ [] := by
  refine ⟨⟨rfl, rfl, rfl, rfl, rfl⟩, rfl, ?_, rfl, rfl⟩
  rcases hp with rfl | rfl
  · decide
  · rw [List.length_replicate]
/-- Arrivals, a delivery, an expiry, and the step and the reset of an engine of another line between the 11 steps of
the engine. -/
theorem witness_RxAcceptsTheFrameAmidOtherSteps :
    let events := [Event.arrive 0 0x01#8, .expire 0, .engine 1] ++ List.replicate 9 (Event.engine 0) ++
      [.deliver 0 1 [0x06#8], .resetEngine 1, .engine 0, .engine 1]
    let s := { apart (starting [0x03#8] (frameOf 0x01#8 0x21#8 0x00#8 [] ++ [0x68#8])) with
      agenda := .engine 0 :: (events ++ []) }
    s.Wired ∧ s.AboutToStart 0 ⟨1, [0x03#8]⟩ [] ∧ (s.engineAt 0).table = crcTable ∧
    (s.lineAt (s.lineOf 0)).rxq = frameOf 0x01#8 0x21#8 0x00#8 [] ++ [0x68#8] ∧
    events.count (Event.engine 0) = ([] : List Byte).length + 10 ∧ Event.engine 1 ∈ events ∧
    (∀ k, Event.engine k ∈ events → k ≠ 0 → s.lineOf k ≠ s.lineOf 0) ∧ Event.resetEngine 0 ∉ events := by
  refine ⟨⟨rfl, by decide, by decide, by decide⟩, ⟨rfl, rfl, rfl, rfl, rfl⟩, rfl, rfl, by decide, by decide, ?_, by decide⟩
  intro k hk hne
  have : k = 1 := by simp at hk; omega
  subst this
  decide
theorem witness_RxOnSilentLineFails :
    let s := { starting [0x03#8] [] with agenda := [.engine 0, .expire 0, .engine 0] }
    s.AboutToStart 0 ⟨1, [0x03#8]⟩ [] ∧ (s.lineAt (s.lineOf 0)).rxq = [] ∧
    s.agenda = Event.engine 0 :: Event.expire 0 :: Event.engine 0 :: [] := ⟨⟨rfl, rfl, rfl, rfl, rfl⟩, rfl, rfl⟩
/-- Both cases: an expiry that is enabled, and one that is not. -/
theorem witness_EnabledExpireComesAbout : (receiving .rxHdr [] 6 .running []).Wired ∧
    0 < (receiving .rxHdr [] 6 .running []).engines.length ∧
    (receiving .rxHdr [] 6 .running []).expireEnabled 0 = true ∧ demo.expireEnabled 0 = false :=
  ⟨⟨rfl, by decide, by decide, by decide⟩, by decide, rfl, rfl⟩
/-- A remainder of which one byte is missing, on a line that no other engine drives. -/
theorem witness_EveryReceiveEnds :
    let s := apart (receiving .rxBody [0xFE#8, 0xFE#8, 0x01#8, 0x08#8, 0x21#8, 0x00#8, 0x23#8] 1 .running [])
    s.Wired ∧ s.ReceiversFit ∧ 0 < s.engines.length ∧ (s.engineAt 0).phase ≠ .idle ∧
    (s.engineAt 0).cur = some (req [0x03#8]) ∧
    (∀ k, k < s.engines.length → k ≠ 0 → s.lineOf k ≠ s.lineOf 0) :=
  ⟨⟨rfl, by decide, by decide, by decide⟩,
    demo_members rfl ⟨⟨_, rfl, rfl⟩, by decide, by decide, by decide, by decide⟩ ⟨rfl, rfl⟩, by decide, by decide, rfl,
    by decide⟩
theorem witness_FlippedBitIsRejected :
    frameWellFormed [0xFE#8, 0xFE#8, 0x01#8, 0x08#8, 0x21#8, 0x04#8, 0xA7#8, 0x4B#8] = true ∧ 7 < 8 ∧ 0 < 8 ∧ 2 ≠ 3 ∧ 4 ≠ 3 := by
  decide
/-- Both outcomes: 7 and 8. -/
theorem witness_SetbaudFollowsItsRule : (running [0x04#8, 0x07#8] [] false).executing (req [0x04#8, 0x07#8]) ∧
    (0x07#8).toNat ≤ 7 ∧ ¬(0x08#8).toNat ≤ 7 := ⟨running_executing _ _ _, by decide, by decide⟩
theorem witness_SettmoFollowsItsRule : (running [0x05#8, 0x00#8, 0x00#8, 0x00#8, 0x00#8] [] false).executing
    (req [0x05#8, 0x00#8, 0x00#8, 0x00#8, 0x00#8]) := running_executing _ _ _
theorem witness_GetbaudAnswersTheIndex : (running [0x06#8] [] false).executing (req [0x06#8]) := running_executing _ _ _
theorem witness_GettmoAnswersTheTimeout : (running [0x07#8] [] false).executing (req [0x07#8]) := running_executing _ _ _
theorem witness_GetstatAnswersTheStatus : (running [0x08#8] [] false).executing (req [0x08#8]) := running_executing _ _ _
/-- Both outcomes: held and free. -/
theorem witness_LocktryTakesAFreeLock : (running [0x09#8] [] true).executing (req [0x09#8]) ∧
    (running [0x09#8] [] true).lockHeld = true ∧ (running [0x09#8] [] false).executing (req [0x09#8]) ∧
    (running [0x09#8] [] false).lockHeld = false := ⟨running_executing _ _ _, rfl, running_executing _ _ _, rfl⟩
theorem witness_UnlockFreesAHeldLock : (running [0x0A#8] [] true).executing (req [0x0A#8]) ∧
    (running [0x0A#8] [] true).lockHeld = true ∧ (running [0x0A#8] [] false).executing (req [0x0A#8]) ∧
    (running [0x0A#8] [] false).lockHeld = false := ⟨running_executing _ _ _, rfl, running_executing _ _ _, rfl⟩
theorem witness_RxavailAnswersTheCount : (running [0x0B#8] [0x68#8] false).executing (req [0x0B#8]) := running_executing _ _ _
/-- The last engine and the last host. -/
theorem witness_DeliveryEntersTheQueue : (awaiting (.deliver 1 1 [0x06#8]) demo).nextEvent = .deliver 1 1 [0x06#8] ∧
    1 < (awaiting (.deliver 1 1 [0x06#8]) demo).engines.length ∧
    1 < (awaiting (.deliver 1 1 [0x06#8]) demo).platform.nHosts := ⟨rfl, by decide, by decide⟩
/-- Both outcomes: 299 bytes, and 300, which is `RXQ_DEPTH` here. -/
theorem witness_ArrivalAppendsOrIsLost :
    (awaiting (.arrive 0 0xFE#8) (starting [] (List.replicate 299 0#8))).nextEvent = .arrive 0 0xFE#8 ∧
    0 < (awaiting (.arrive 0 0xFE#8) (starting [] (List.replicate 299 0#8))).lines.length ∧
    ((starting [] (List.replicate 299 0#8)).lineAt 0).rxq.length < 300 ∧
    ¬((starting [] (List.replicate 300 0#8)).lineAt 0).rxq.length < 300 := ⟨rfl, by decide, by decide +kernel, by decide +kernel⟩
theorem witness_EngineResetLeavesLineAndLock : (awaiting (.resetEngine 1) demo).nextEvent = .resetEngine 1 ∧
    1 < (awaiting (.resetEngine 1) demo).engines.length := ⟨rfl, by decide⟩
theorem witness_ResetMeetsTheInvariants : 255 ≤ (⟨7#3, 0#32, 255, 1, []⟩ : Platform).rxqDepth ∧
    1 ≤ (⟨7#3, 0#32, 255, 1, []⟩ : Platform).nHosts := by decide
theorem witness_StepKeepsWires : (starting [0x09#8] []).Wired ∧ ∃ t, step (starting [0x09#8] []) = .next t :=
  ⟨⟨rfl, by decide, by decide, by decide⟩, _, rfl⟩
theorem witness_WiredMachineNeverStops : received.Wired := ⟨rfl, by decide, by decide, by decide⟩
theorem witness_StepKeepsTables : received.TablesIntact ∧ ∃ t, step received = .next t :=
  ⟨demo_members rfl rfl rfl, _, rfl⟩
theorem witness_StepKeepsBaudBitsZero : (starting [0x04#8, 0x07#8] []).BaudReserved ∧
    ∃ t, step (starting [0x04#8, 0x07#8] []) = .next t := ⟨demo_members rfl (by decide) (by decide), _, rfl⟩
theorem witness_StepKeepsQueuesBounded :
    (awaiting (.arrive 0 0xFE#8) (starting [] (List.replicate 300 0#8))).QueuesBounded ∧
    ∃ t, step (awaiting (.arrive 0 0xFE#8) (starting [] (List.replicate 300 0#8))) = .next t :=
  ⟨by unfold State.QueuesBounded; decide +kernel, _, rfl⟩
theorem witness_StepKeepsReceiversFit : received.ReceiversFit ∧ ∃ t, step received = .next t :=
  ⟨demo_members rfl ⟨⟨_, rfl, rfl⟩, by decide, by decide, by decide, by decide⟩ ⟨rfl, rfl⟩, _, rfl⟩
theorem witness_StepKeepsSentFramesWellFormed : (starting [0x02#8, 0x03#8, 0xBD#8, 0x00#8, 0x00#8] []).TablesIntact ∧
    (starting [0x02#8, 0x03#8, 0xBD#8, 0x00#8, 0x00#8] []).SentWellFormed ∧
    ∃ t, step (starting [0x02#8, 0x03#8, 0xBD#8, 0x00#8, 0x00#8] []) = .next t := by
  refine ⟨demo_members rfl rfl rfl, ?_, _, rfl⟩
  intro n l hl x hx
  match n, hl with
  | 0, hl => cases hl; cases hx
theorem witness_StepKeepsResponsesWellFormed : (starting [0x09#8] []).ResponsesWellFormed ∧
    ∃ t, step (starting [0x09#8] []) = .next t := ⟨(by intro r hr; cases hr), _, rfl⟩
theorem witness_OnlyLockRequestsChangeLocks : onNext State.locks (step (starting [0x09#8] [])) = some [true] ∧
    (starting [0x09#8] []).locks = [false] := by decide
theorem witness_LastStatusChangesOnlyByAcceptance :
    let s := received.updEngineAt 0 fun e => { e with lastStatus := 0x00#8 }
    stepStatus s = some 0x04#8 ∧ (s.engineAt 0).lastStatus = 0x00#8 := by decide
theorem witness_OnlyTxSends : (starting [0x02#8, 0x03#8, 0xBD#8, 0x00#8, 0x00#8] []).ReceiversFit ∧
    stepOut (starting [0x02#8, 0x03#8, 0xBD#8, 0x00#8, 0x00#8] []) ≠ some [] ∧
    ((starting [0x02#8, 0x03#8, 0xBD#8, 0x00#8, 0x00#8] []).lineAt 0).out = [] :=
  ⟨demo_members rfl ⟨rfl, rfl⟩ ⟨rfl, rfl⟩, by decide, rfl⟩
theorem witness_AckCodesFollowTheFormula : WireCommand.ack .memRead = some 0x20#8 := rfl

end Sys2Proof.Tests
end

section
/-! PROOFS. The scope family: a host's delivery (R14), an arriving byte (R16), and the wires of R13. -/

namespace Sys2Proof.Machine

/-! ### One engine or one line written, all else as before -/

theorem State.updEngineAt_engines_other (s : State) (f : Engine → Engine) {e k : Nat} (h : k ≠ e) :
    (s.updEngineAt e f).engines[k]? = s.engines[k]? := by
  simp [h.symm]

theorem State.updLineAt_lines_other (s : State) (f : Line → Line) {l k : Nat} (h : k ≠ l) :
    (s.updLineAt l f).lines[k]? = s.lines[k]? := by
  simp [h.symm]

/-- With the engines put back, a write to one engine has changed nothing. -/
theorem State.updEngineAt_restore (s : State) (e : Nat) (f : Engine → Engine) :
    { s.updEngineAt e f with engines := s.engines } = s := rfl

/-- With the lines put back, a write to one line has changed nothing. -/
theorem State.updLineAt_restore (s : State) (l : Nat) (f : Line → Line) :
    { s.updLineAt l f with lines := s.lines } = s := rfl

/-! ### Deliveries and arrivals -/

theorem step_deliver {s : State} {e host : Nat} {m : List Byte} (h : s.nextEvent = .deliver e host m) :
    step s = .next (s.elapse.deliver e host m) := by
  rw [step_eq, h]; rfl

theorem step_arrive {s : State} {l : Nat} {b : Byte} (h : s.nextEvent = .arrive l b) :
    step s = .next (s.elapse.arrive l b) := by
  rw [step_eq, h]; rfl

/-- A delivery from a host of the platform to an engine that exists writes that engine's `REQQ` (R14, R26). -/
theorem State.deliver_of_exists {s : State} {e host : Nat} (m : List Byte) (he : e < s.engines.length)
    (hh : host < s.platform.nHosts) :
    s.deliver e host m = s.updEngineAt e fun x => { x with reqq := x.reqq ++ [⟨host, m⟩] } :=
  if_pos ⟨he, hh⟩

/-- A byte that finds room is appended to `RXQ` (R16). -/
theorem State.arrive_of_room {s : State} {l : Nat} (b : Byte) (hl : l < s.lines.length)
    (hroom : (s.lineAt l).rxq.length < s.platform.rxqDepth) :
    s.arrive l b = s.updLineAt l fun x => { x with rxq := x.rxq ++ [b] } :=
  if_pos ⟨hl, hroom⟩

/-- A byte that finds `RXQ` full is lost (R16, U9). -/
theorem State.arrive_of_full {s : State} {l : Nat} (b : Byte)
    (hfull : ¬ (s.lineAt l).rxq.length < s.platform.rxqDepth) : s.arrive l b = s :=
  if_neg fun h => hfull h.2

/-- Settles O44: the delivery is a write to one engine, made in the state in which the event happens. -/
theorem deliveryEntersTheQueue : Obligations.DeliveryEntersTheQueue := by
  intro s e h m hv he hh
  have hd := s.elapse.deliver_of_exists m he hh
  refine ⟨_, step_deliver hv, ?_⟩
  rw [hd]
  exact ⟨s.elapse.updEngineAt_restore e _, fun k hk => s.elapse.updEngineAt_engines_other _ hk,
    s.elapse.updEngineAt_engineAt_same e _ he⟩

/-- Settles O45, by whether the line's queue has room for the byte. -/
theorem arrivalAppendsOrIsLost : Obligations.ArrivalAppendsOrIsLost := by
  intro s l b hv hl
  refine ⟨_, step_arrive hv, ?_⟩
  by_cases hroom : (s.lineAt l).rxq.length < s.platform.rxqDepth
  · rw [s.elapse.arrive_of_room b hl hroom, if_pos hroom]
    exact ⟨s.elapse.updLineAt_restore l _, fun k hk => s.elapse.updLineAt_lines_other _ hk,
      s.elapse.updLineAt_lineAt_same l _ hl⟩
  · rw [s.elapse.arrive_of_full b hroom, if_neg hroom]
    exact ⟨rfl, fun _ _ => rfl, rfl⟩

/-! ### How many engines, lines and locks there are

Whether a state is wired depends on its platform and on these three counts alone, and no operation adds or drops an
engine, a line or a lock. -/

/-- The numbers of engines, lines and locks. -/
def State.sizes (s : State) : Nat × Nat × Nat := (s.engines.length, s.lines.length, s.locks.length)

theorem State.sizes_eq_iff (s t : State) : t.sizes = s.sizes ↔
    t.engines.length = s.engines.length ∧ t.lines.length = s.lines.length ∧ t.locks.length = s.locks.length := by
  simp [State.sizes]

@[simp] theorem State.updEngineAt_sizes (s : State) (e : Nat) (f : Engine → Engine) :
    (s.updEngineAt e f).sizes = s.sizes := by simp [State.sizes]
@[simp] theorem State.updLineAt_sizes (s : State) (l : Nat) (f : Line → Line) :
    (s.updLineAt l f).sizes = s.sizes := by simp [State.sizes]
@[simp] theorem State.updEngine_sizes (s : State) (f : Engine → Engine) : (s.updEngine f).sizes = s.sizes :=
  s.updEngineAt_sizes s.active f
@[simp] theorem State.updLine_sizes (s : State) (f : Line → Line) : (s.updLine f).sizes = s.sizes :=
  s.updLineAt_sizes s.lineIx f
@[simp] theorem State.setLock_sizes (s : State) (held : Bool) : (s.setLock held).sizes = s.sizes := by
  simp [State.sizes]
@[simp] theorem State.activate_sizes (s : State) (e : Nat) : (s.activate e).sizes = s.sizes := rfl
@[simp] theorem State.elapse_sizes (s : State) : s.elapse.sizes = s.sizes := rfl

@[simp] theorem State.respond_sizes (s : State) (m : List Byte) (c : Option Cause) :
    (s.respond m c).sizes = s.sizes := by
  rcases s.respond_engines m c with h | h <;> simp [State.sizes, h]
@[simp] theorem State.succeed_sizes (s : State) (payload : List Byte) : (s.succeed payload).sizes = s.sizes :=
  s.respond_sizes _ _
@[simp] theorem State.raiseFail_sizes (s : State) (c : Cause) : (s.raiseFail c).sizes = s.sizes :=
  s.respond_sizes _ _

@[simp] theorem State.startChunk_sizes (s : State) (n : Nat) : (s.startChunk n).sizes = s.sizes :=
  s.updEngine_sizes _
@[simp] theorem State.rxTake_sizes (s : State) (b : Byte) (rest : List Byte) : (s.rxTake b rest).sizes = s.sizes := by
  simp [State.rxTake]
@[simp] theorem State.sendFrame_sizes (s : State) (id cmd opt : Byte) (params : List Byte) :
    (s.sendFrame id cmd opt params).sizes = s.sizes := by
  simp [State.sendFrame, State.lineApply, State.rxFlush, State.lineSend]
@[simp] theorem State.acceptFrame_sizes (s : State) (id cmd opt : Byte) (params : List Byte) :
    (s.acceptFrame id cmd opt params).sizes = s.sizes := by
  simp [State.acceptFrame]

@[simp] theorem State.begun_sizes (s : State) (e : Nat) (r : Request) (rest : List Request) :
    (s.begun e r rest).sizes = s.sizes := by simp [State.begun]
@[simp] theorem State.finished_sizes (s : State) (e : Nat) : (s.finished e).sizes = s.sizes := by
  simp [State.finished]

@[simp] theorem State.deliver_sizes (s : State) (e host : Nat) (m : List Byte) :
    (s.deliver e host m).sizes = s.sizes := by
  unfold State.deliver; split <;> simp
@[simp] theorem State.arrive_sizes (s : State) (l : Nat) (b : Byte) : (s.arrive l b).sizes = s.sizes := by
  unfold State.arrive; split <;> simp
@[simp] theorem State.expire_sizes (s : State) (e : Nat) : (s.expire e).sizes = s.sizes := by
  unfold State.expire; split <;> simp
@[simp] theorem State.resetEngine_sizes (s : State) (e : Nat) : (s.resetEngine e).sizes = s.sizes :=
  s.updEngineAt_sizes e _

/-- No meaning changes the sizes. -/
theorem State.Effect.sizes {s t : State} (h : s.Effect t) : t.sizes = s.sizes := by
  cases h with
  | read payload => simp
  | fail c => simp
  | baud idx h => simp
  | timeout t => simp
  | lock held => simp
  | start => simp
  | send id cmd opt params hid hn => simp
  | accept id cmd opt params h => simp

/-- No step changes the sizes. -/
theorem State.Stepped.sizes {s t : State} (h : s.Stepped t) : t.sizes = s.sizes := by
  cases h with
  | deliver e h m hv => simp
  | arrive l b hv => simp
  | expire e hv => simp
  | reset e hv => simp
  | absent e hv he => simp
  | rest e hv hw hp hn => simp
  | wait e hv hw hp hc hq => simp
  | illegal e r q h => simp
  | run e r q i h hd t hx =>
    obtain ⟨t', ht', heffect⟩ := exec_effect i.carried (s.begun e r q)
    obtain rfl : t = t' := by simpa [hx] using ht'
    simpa using heffect.sizes
  | take e b q hv hw hp hc hq => simp
  | body e hv hw hp hc ha hl => simp
  | again e hv hw hp hc ha hq => simp
  | reject e hv hw hp hr c => simp
  | accept e hv hw hp hr hf t ht =>
    rcases ht with rfl | rfl
    · simp
    · simpa using (State.carryFrame_effect (s.finished e) _ _ _ _).sizes

/-! ### The wires -/

/-- An engine's wires are read off the platform and the sizes (R13). -/
theorem State.wired_congr {s t : State} (hp : t.platform = s.platform) (hn : t.sizes = s.sizes) (e : Nat) :
    t.wired e = s.wired e := by
  obtain ⟨hengines, hlines, hlocks⟩ := (s.sizes_eq_iff t).1 hn
  simp [State.wired, State.lineOf, State.lockOf, State.wiringOf, hp, hengines, hlines, hlocks]

theorem State.Wired.congr {s t : State} (hs : s.Wired) (hp : t.platform = s.platform) (hn : t.sizes = s.sizes) :
    t.Wired := by
  obtain ⟨hengines, -, -⟩ := (s.sizes_eq_iff t).1 hn
  constructor
  case engines => rw [hengines, hp, hs.engines]
  case wired =>
    intro e he
    rw [State.wired_congr hp hn, hs.wired e (hengines ▸ he)]
  case depth => rw [hp]; exact hs.depth
  case hosts => rw [hp]; exact hs.hosts

/-- Settles O49: a step changes neither the platform nor the sizes. -/
theorem stepKeepsWires : Obligations.StepKeepsWires := by
  intro s t hs h
  have hstep := step_cases h
  obtain ⟨-, -, hplatform⟩ := hstep.elapsed
  exact hs.congr hplatform hstep.sizes

end Sys2Proof.Machine
end

section
/-! PROOFS. The state family: what a step writes (10_state.md). Two facts about steps carry it. `State.Visible` sorts
the steps that answer a next state by what they change of the locks, the cached status bytes and the output histories
(R25, R30, R31, R33). `State.KeptByWrites` says once that what every write of the machine keeps, every step keeps, for
the invariants of settings, receive queues and responses (R22, R23, R29, R32). -/

namespace Sys2Proof.Machine

/-! ### Reading a field that a write leaves alone -/

/-- A field of an element is as before where a change of one element leaves it alone. -/
theorem getD_modify_field {α β : Type} (xs : List α) (n k : Nat) (d : α) {f : α → α} (field : α → β)
    (h : ∀ x, field (f x) = field x) : field ((xs.modify n f).getD k d) = field (xs.getD k d) := by
  rw [List.getD_eq_getElem?_getD, List.getD_eq_getElem?_getD, List.getElem?_modify]
  cases xs[k]? with
  | none => rfl
  | some x =>
    by_cases hn : n = k
    · simp [hn, h]
    · simp [hn]

/-- A field of an engine that a write to an engine leaves alone. -/
theorem State.updEngineAt_field {α : Type} (s : State) (e k : Nat) {f : Engine → Engine} (field : Engine → α)
    (h : ∀ x, field (f x) = field x) : field ((s.updEngineAt e f).engineAt k) = field (s.engineAt k) :=
  getD_modify_field s.engines e k default field h

/-- A field of a line that a write to a line leaves alone. -/
theorem State.updLineAt_field {α : Type} (s : State) (l k : Nat) {g : Line → Line} (field : Line → α)
    (h : ∀ x, field (g x) = field x) : field ((s.updLineAt l g).lineAt k) = field (s.lineAt k) :=
  getD_modify_field s.lines l k default field h

/-! ### Quiet changes -/

/-- Every lock, every cached status byte and every output history is as before. -/
structure State.Quiet (s t : State) : Prop where
  locks : t.locks = s.locks
  status : ∀ k, (t.engineAt k).lastStatus = (s.engineAt k).lastStatus
  out : ∀ l, (t.lineAt l).out = (s.lineAt l).out

theorem State.Quiet.refl (s : State) : s.Quiet s := ⟨rfl, fun _ => rfl, fun _ => rfl⟩

theorem State.Quiet.trans {s t u : State} (h : s.Quiet t) (h' : t.Quiet u) : s.Quiet u :=
  ⟨h'.locks.trans h.locks, fun k => (h'.status k).trans (h.status k), fun l => (h'.out l).trans (h.out l)⟩

theorem State.elapse_quiet (s : State) : s.Quiet s.elapse := ⟨rfl, fun _ => rfl, fun _ => rfl⟩

theorem State.turn_quiet (s : State) (e : Nat) : s.Quiet (s.elapse.activate e) := ⟨rfl, fun _ => rfl, fun _ => rfl⟩

/-! Quiet writes after a quiet change are quiet. -/

theorem State.Quiet.updEngineAt {s t : State} (h : s.Quiet t) (e : Nat) {f : Engine → Engine}
    (hf : ∀ x, (f x).lastStatus = x.lastStatus := by exact fun _ => rfl) : s.Quiet (t.updEngineAt e f) :=
  h.trans ⟨rfl, fun k => t.updEngineAt_field e k Engine.lastStatus hf, fun _ => rfl⟩

theorem State.Quiet.updEngine {s t : State} (h : s.Quiet t) {f : Engine → Engine}
    (hf : ∀ x, (f x).lastStatus = x.lastStatus := by exact fun _ => rfl) : s.Quiet (t.updEngine f) :=
  h.updEngineAt t.active hf

theorem State.Quiet.updLineAt {s t : State} (h : s.Quiet t) (l : Nat) {g : Line → Line}
    (hg : ∀ x, (g x).out = x.out := by exact fun _ => rfl) : s.Quiet (t.updLineAt l g) :=
  h.trans ⟨rfl, fun _ => rfl, fun k => t.updLineAt_field l k Line.out hg⟩

theorem State.Quiet.updLine {s t : State} (h : s.Quiet t) {g : Line → Line}
    (hg : ∀ x, (g x).out = x.out := by exact fun _ => rfl) : s.Quiet (t.updLine g) :=
  h.updLineAt t.lineIx hg

theorem State.Quiet.respond {s t : State} (h : s.Quiet t) (m : List Byte) (c : Option Cause) :
    s.Quiet (t.respond m c) := by
  cases hc : t.eng.cur with
  | none => rwa [State.respond_of_none t m c hc]
  | some r =>
    rw [State.respond_of_cur t m c hc]
    obtain ⟨hlocks, hstatus, hout⟩ := h.updEngine (f := fun e => { e with cur := none })
    exact ⟨hlocks, hstatus, hout⟩

theorem State.Quiet.succeed {s t : State} (h : s.Quiet t) (payload : List Byte) : s.Quiet (t.succeed payload) :=
  h.respond _ _

theorem State.succeed_quiet (s : State) (payload : List Byte) : s.Quiet (s.succeed payload) :=
  (State.Quiet.refl s).succeed payload

theorem State.Quiet.raiseFail {s t : State} (h : s.Quiet t) (c : Cause) : s.Quiet (t.raiseFail c) := h.respond _ _

theorem State.Quiet.startChunk {s t : State} (h : s.Quiet t) (n : Nat) : s.Quiet (t.startChunk n) :=
  h.updEngine

theorem State.Quiet.rxTake {s t : State} (h : s.Quiet t) (b : Byte) (rest : List Byte) : s.Quiet (t.rxTake b rest) :=
  h.updEngine.updLine

theorem State.Quiet.deliver {s t : State} (h : s.Quiet t) (e host : Nat) (m : List Byte) :
    s.Quiet (t.deliver e host m) := by
  unfold State.deliver
  split
  · exact h.updEngineAt e
  · exact h

theorem State.Quiet.arrive {s t : State} (h : s.Quiet t) (l : Nat) (b : Byte) : s.Quiet (t.arrive l b) := by
  unfold State.arrive
  split
  · exact h.updLineAt l
  · exact h

theorem State.Quiet.expire {s t : State} (h : s.Quiet t) (e : Nat) : s.Quiet (t.expire e) := by
  unfold State.expire
  split
  · exact h.updEngineAt e
  · exact h

theorem State.begun_quiet (s : State) (e : Nat) (r : Request) (rest : List Request) : s.Quiet (s.begun e r rest) :=
  (s.turn_quiet e).updEngine

theorem State.finished_quiet (s : State) (e : Nat) : s.Quiet (s.finished e) := (s.turn_quiet e).updEngine

/-! ### The writes that are not quiet -/

/-- What a TX does to its line before it sends is quiet (R121, R122). -/
theorem State.prepareLine_quiet (s : State) (b : BitVec 3) (t : Word32) : s.Quiet (s.lineApply b t).rxFlush :=
  (State.Quiet.refl s).updLine.updLine

/-- `LineSend` adds one event to the history of the engine's line, if that line exists (R15, R30). -/
theorem State.lineSend_out (s : State) (b : BitVec 3) (f : List Byte) (l : Nat) :
    ((s.lineSend b f).lineAt l).out = (s.lineAt l).out ∨
      (l = s.lineIx ∧ ((s.lineSend b f).lineAt l).out = (s.lineAt l).out ++ [⟨l, b, f⟩]) := by
  by_cases hl : l = s.lineIx
  · subst hl
    by_cases hlt : s.lineIx < s.lines.length
    · exact .inr ⟨rfl, congrArg Line.out (s.updLineAt_lineAt_same s.lineIx _ hlt)⟩
    · refine .inl (congrArg Line.out ?_)
      simp [State.lineSend, State.lineAt, List.getD_eq_getElem?_getD, Nat.not_lt.1 hlt]
  · exact .inl (congrArg Line.out (s.updLineAt_lineAt_other s.lineIx l _ hl))

/-- A frame sent writes no lock (R127). -/
@[simp] theorem State.sendFrame_locks (s : State) (id cmd opt : Byte) (params : List Byte) :
    (s.sendFrame id cmd opt params).locks = s.locks :=
  (State.succeed_quiet _ _).locks

/-- A frame sent writes no cached status byte. -/
theorem State.sendFrame_status (s : State) (id cmd opt : Byte) (params : List Byte) (k : Nat) :
    ((s.sendFrame id cmd opt params).engineAt k).lastStatus = (s.engineAt k).lastStatus :=
  (State.succeed_quiet _ _).status k

/-- A frame sent adds one event to the history of the engine's line and none to another's (R30). -/
theorem State.sendFrame_out (s : State) (id cmd opt : Byte) (params : List Byte) (l : Nat) :
    ((s.sendFrame id cmd opt params).lineAt l).out = (s.lineAt l).out ∨
      (l = s.lineIx ∧ ∃ x, ((s.sendFrame id cmd opt params).lineAt l).out = (s.lineAt l).out ++ [x]) := by
  have hprepare := (s.prepareLine_quiet (s.eng.cfgBaudIdx.setWidth 3) s.eng.cfgTimeout).out l
  unfold State.sendFrame
  simp only [(State.succeed_quiet _ _).out l]
  rw [← hprepare]
  rcases State.lineSend_out (s.lineApply (s.eng.cfgBaudIdx.setWidth 3) s.eng.cfgTimeout).rxFlush _
    (frameWith s.eng.table id cmd opt params) l with hsame | ⟨hl, hnew⟩
  · exact .inl hsame
  · exact .inr ⟨hl, _, hnew⟩

/-! A frame accepted writes the cached status byte of its own engine, and is quiet otherwise (R145). -/

theorem State.acceptFrame_locks (s : State) (id cmd opt : Byte) (params : List Byte) :
    (s.acceptFrame id cmd opt params).locks = s.locks :=
  (State.succeed_quiet _ _).locks

theorem State.acceptFrame_out (s : State) (id cmd opt : Byte) (params : List Byte) (l : Nat) :
    ((s.acceptFrame id cmd opt params).lineAt l).out = (s.lineAt l).out :=
  (State.succeed_quiet _ _).out l

theorem State.acceptFrame_status_same (s : State) (id cmd opt : Byte) (params : List Byte)
    (h : s.active < s.engines.length) : ((s.acceptFrame id cmd opt params).engineAt s.active).lastStatus = opt :=
  ((State.succeed_quiet _ _).status s.active).trans
    (congrArg Engine.lastStatus (s.updEngineAt_engineAt_same s.active _ h))

theorem State.acceptFrame_status_other (s : State) (id cmd opt : Byte) (params : List Byte) {k : Nat}
    (h : k ≠ s.active) : ((s.acceptFrame id cmd opt params).engineAt k).lastStatus = (s.engineAt k).lastStatus :=
  ((State.succeed_quiet _ _).status k).trans (congrArg Engine.lastStatus (s.updEngineAt_engineAt_other s.active k _ h))

/-! ### What a request message decodes to -/

/-- No request message is a wire row (R81, R85). -/
theorem decodeRequest_wireFields {m : List Byte} {i : Instr} (h : decodeRequest m = .ok i) : i.wireFields = none := by
  obtain ⟨-, -, hi⟩ := decodeRequest_ok_iff.1 h
  unfold requestInstr at hi
  split at hi <;> cases hi <;> rfl

/-- A message of one byte is its opcode. -/
theorem message_eq_of_length_one {m : List Byte} {op : Byte} (hn : m.length = 1)
    (hop : (byteAt m 0).toNat = op.toNat) : m = [op] := by
  obtain ⟨b, rfl⟩ := List.length_eq_one_iff.1 hn
  rw [BitVec.eq_of_toNat_eq (x := b) (y := op) hop]

/-- The one LOCKTRY message (R81, R82). -/
theorem decodeRequest_lockTry {m : List Byte} (h : decodeRequest m = .ok .lockTry) : m = [0x09#8] := by
  obtain ⟨-, hn, hi⟩ := decodeRequest_ok_iff.1 h
  have hop : (byteAt m 0).toNat = 0x09 := by
    unfold requestInstr at hi
    split at hi <;> cases hi
    assumption
  exact message_eq_of_length_one (by simpa [requestLength, hop] using hn.symm) hop

/-- The one UNLOCK message (R81, R82). -/
theorem decodeRequest_unlock {m : List Byte} (h : decodeRequest m = .ok .unlock) : m = [0x0A#8] := by
  obtain ⟨-, hn, hi⟩ := decodeRequest_ok_iff.1 h
  have hop : (byteAt m 0).toNat = 0x0A := by
    unfold requestInstr at hi
    split at hi <;> cases hi
    assumption
  exact message_eq_of_length_one (by simpa [requestLength, hop] using hn.symm) hop

/-- A request that is an RX decodes to no TX. -/
theorem Request.isRx_of_tx {r : Request} {id cmd opt : Byte} {params : List Byte}
    (h : decodeRequest r.message = .ok (.tx id cmd opt params)) : r.isRx = false := by
  by_contra hrx
  have hm : r.message = [0x03#8] := by simpa [Request.isRx] using hrx
  rw [hm] at h
  cases h

/-! ### What the meanings of requests change -/

/-- A transmission fails, or sends (R120, R124). -/
theorem State.transmit_quiet_or_sends (s : State) (id cmd opt : Byte) (params : List Byte) :
    s.Quiet (s.transmit id cmd opt params) ∨ s.transmit id cmd opt params = s.sendFrame id cmd opt params := by
  by_cases h : (id.toNat ≤ 239 ∨ id = 0xFF#8) ∧ params.length ≤ 247
  · exact .inr (State.transmit_legal cmd opt h.1 h.2)
  · rw [State.transmit_illegal cmd opt h]
    exact .inl (.raiseFail (.refl s) _)

/-- A TX transmits, whichever row names what it carries (R85; log 14). -/
theorem exec_carried_tx {s : State} {r : Request} (hc : s.eng.cur = some r) (hr : r.isRx = false) (id cmd opt : Byte)
    (params : List Byte) : exec (Instr.tx id cmd opt params).carried s = .next (s.transmit id cmd opt params) := by
  change exec (if frameParamsFit params then (wireInstr cmd id opt params).getD (.tx id cmd opt params)
    else .tx id cmd opt params) s = _
  split
  · cases hi : wireInstr cmd id opt params with
    | none => rfl
    | some i =>
      rw [Option.getD_some, exec_wire (wireInstr_wireFields hi), State.carryFrame_tx hc hr]
  · rfl

/-- What executing a decoded request changes of locks, status bytes and output histories: nothing, or the lock by
LOCKTRY or UNLOCK, or the line by a TX that sends. -/
theorem exec_request_cases {s t : State} {r : Request} {i : Instr} (hc : s.eng.cur = some r)
    (hd : decodeRequest r.message = .ok i) (hx : exec i.carried s = .next t) :
    s.Quiet t ∨
      ((r.message = [0x09#8] ∨ r.message = [0x0A#8]) ∧ ∃ held, t = (s.setLock held).succeed []) ∨
      ∃ id cmd opt params, i = .tx id cmd opt params ∧ t = s.sendFrame id cmd opt params := by
  have hw := decodeRequest_wireFields hd
  cases i with
  | crc data => cases hx; exact .inl (.succeed (.refl s) _)
  | tx id cmd opt params =>
    rw [exec_carried_tx hc (Request.isRx_of_tx hd)] at hx
    cases hx
    rcases s.transmit_quiet_or_sends id cmd opt params with hq | hs
    · exact .inl hq
    · exact .inr (.inr ⟨id, cmd, opt, params, rfl, hs⟩)
  | rx => cases hx; exact .inl (.startChunk (.updEngine (.refl s)) _)
  | setBaud idx =>
    change execSetBaud idx s = .next t at hx
    unfold execSetBaud at hx
    split at hx <;> cases hx
    · exact .inl (.succeed (.updLine (.updEngine (.refl s))) _)
    · exact .inl (.raiseFail (.refl s) _)
  | setTmo v =>
    cases hx
    exact .inl (.succeed (.updLine (.updEngine (.refl s))) _)
  | getBaud => cases hx; exact .inl (.succeed (.refl s) _)
  | getTmo => cases hx; exact .inl (.succeed (.refl s) _)
  | getStat => cases hx; exact .inl (.succeed (.refl s) _)
  | lockTry =>
    change execLockTry s = .next t at hx
    unfold execLockTry at hx
    split at hx <;> cases hx
    · exact .inl (.raiseFail (.refl s) _)
    · exact .inr (.inl ⟨.inl (decodeRequest_lockTry hd), true, rfl⟩)
  | unlock =>
    change execUnlock s = .next t at hx
    unfold execUnlock at hx
    split at hx <;> cases hx
    · exact .inr (.inl ⟨.inr (decodeRequest_unlock hd), false, rfl⟩)
    · exact .inl (.raiseFail (.refl s) _)
  | rxAvail => cases hx; exact .inl (.succeed (.refl s) _)
  | tblRd k => cases hx; exact .inl (.succeed (.refl s) _)
  | _ => cases hw

/-! ### What a step changes of locks, status bytes and output histories -/

/-- What a step can do to locks, cached status bytes and output histories. -/
inductive State.Visible (s : State) : State → Prop where
  /-- It leaves them all alone. -/
  | quiet {t : State} (h : s.Quiet t) : s.Visible t
  /-- It resets an engine (R264). -/
  | reset (e : Nat) (hv : s.nextEvent = .resetEngine e) : s.Visible (s.elapse.resetEngine e)
  /-- It executes a LOCKTRY or an UNLOCK that succeeds (R175, R176). -/
  | lock (e : Nat) (r : Request) (rest : List Request) (h : s.AboutToStart e r rest)
      (hm : r.message = [0x09#8] ∨ r.message = [0x0A#8]) (held : Bool) :
      s.Visible (((s.begun e r rest).setLock held).succeed [])
  /-- It executes a TX that sends (R120). -/
  | send (e : Nat) (r : Request) (rest : List Request) (h : s.AboutToStart e r rest) (id cmd opt : Byte)
      (params : List Byte) (hd : decodeRequest r.message = .ok (.tx id cmd opt params)) :
      s.Visible ((s.begun e r rest).sendFrame id cmd opt params)
  /-- An RX accepts the frame it has read (R145). -/
  | accept (e : Nat) (hv : s.nextEvent = .engine e) (hw : s.wired e = true)
      (hr : (s.elapse.activate e).readsOver = true)
      (hf : frameWellFormedWith (s.engineAt e).table (s.engineAt e).acc = true) :
      s.Visible ((s.finished e).acceptFrame (frameId (s.engineAt e).acc) (frameCmd (s.engineAt e).acc)
        (frameOpt (s.engineAt e).acc) (frameParams (s.engineAt e).acc))
  /-- The reads end of an engine that executes no RX, which `ReceiversFit` excludes. -/
  | misfit (e : Nat) (hw : s.wired e = true) (hp : (s.engineAt e).phase ≠ .idle)
      (hc : (s.engineAt e).cur.any Request.isRx = false) (id cmd opt : Byte) (params : List Byte) :
      s.Visible ((s.finished e).sendFrame id cmd opt params)

/-- A frame carried at the end of the reads is accepted, or, where no RX is being executed, transmitted. -/
theorem State.visible_carryFrame {s : State} {e : Nat} (hv : s.nextEvent = .engine e) (hw : s.wired e = true)
    (hp : (s.engineAt e).phase ≠ .idle) (hr : (s.elapse.activate e).readsOver = true)
    (hf : frameWellFormedWith (s.engineAt e).table (s.engineAt e).acc = true) :
    s.Visible ((s.finished e).carryFrame (frameId (s.engineAt e).acc) (frameCmd (s.engineAt e).acc)
      (frameOpt (s.engineAt e).acc) (frameParams (s.engineAt e).acc)) := by
  unfold State.carryFrame
  rw [State.finished_eng hw]
  split
  next => exact .accept e hv hw hr hf
  next hc =>
    rcases (s.finished e).transmit_quiet_or_sends (frameId (s.engineAt e).acc) (frameCmd (s.engineAt e).acc)
      (frameOpt (s.engineAt e).acc) (frameParams (s.engineAt e).acc) with hq | hs
    · exact .quiet ((s.finished_quiet e).trans hq)
    · rw [hs]
      exact .misfit e hw hp (by simpa using hc) _ _ _ _

/-- Every step is one of these. -/
theorem State.Stepped.visible {s t : State} (h : s.Stepped t) : s.Visible t := by
  cases h with
  | deliver e host m hv => exact .quiet (s.elapse_quiet.deliver e host m)
  | arrive l b hv => exact .quiet (s.elapse_quiet.arrive l b)
  | expire e hv => exact .quiet (s.elapse_quiet.expire e)
  | reset e hv => exact .reset e hv
  | absent e hv he => exact .quiet s.elapse_quiet
  | rest e hv hw hp hn => exact .quiet (s.turn_quiet e)
  | wait e hv hw hp hc hq => exact .quiet (s.turn_quiet e)
  | illegal e r q ha => exact .quiet ((s.begun_quiet e r q).raiseFail _)
  | run e r q i ha hd t hx =>
    obtain ⟨-, hc⟩ := State.begun_executing ha
    rcases exec_request_cases hc hd hx with hq | ⟨hm, held, rfl⟩ | ⟨id, cmd, opt, params, rfl, rfl⟩
    · exact .quiet ((s.begun_quiet e r q).trans hq)
    · exact .lock e r q ha hm held
    · exact .send e r q ha id cmd opt params hd
  | take e b q hv hw hp hc hq => exact .quiet ((s.turn_quiet e).rxTake b q)
  | body e hv hw hp hc ha hl =>
    exact .quiet ((s.turn_quiet e).updEngine.startChunk _)
  | again e hv hw hp hc ha hq => exact .quiet ((s.turn_quiet e).startChunk _)
  | reject e hv hw hp hr c => exact .quiet ((s.finished_quiet e).raiseFail c)
  | accept e hv hw hp hr hf t ht =>
    rcases ht with rfl | rfl
    · exact .accept e hv hw hr hf
    · exact State.visible_carryFrame hv hw hp hr hf

/-! ### Locks, status bytes and output histories: the rules of the whole machine -/

/-- Settles O57: of the visible steps only LOCKTRY and UNLOCK write a lock. -/
theorem onlyLockRequestsChangeLocks : Obligations.OnlyLockRequestsChangeLocks := by
  intro s t hstep hne
  cases (step_cases hstep).visible with
  | quiet hq => exact absurd hq.locks hne
  | reset e hv => exact absurd rfl hne
  | lock e r rest h hm held => exact ⟨e, r, rest, h, hm⟩
  | send e r rest h id cmd opt params hd =>
    exact absurd ((State.sendFrame_locks _ _ _ _ _).trans (s.begun_quiet e r rest).locks) hne
  | accept e hv hw hr hf => exact absurd ((State.acceptFrame_locks _ _ _ _ _).trans (s.finished_quiet e).locks) hne
  | misfit e hw hp hc id cmd opt params =>
    exact absurd ((State.sendFrame_locks _ _ _ _ _).trans (s.finished_quiet e).locks) hne

/-- Settles O58: of the visible steps only a reset and an acceptance write a cached status byte, each that of its own
engine. -/
theorem lastStatusChangesOnlyByAcceptance : Obligations.LastStatusChangesOnlyByAcceptance := by
  intro s t k hstep hne
  cases (step_cases hstep).visible with
  | quiet hq => exact absurd (hq.status k) hne
  | reset e hv =>
    obtain rfl : k = e := by
      by_contra hk
      exact hne (congrArg Engine.lastStatus (s.elapse.updEngineAt_engineAt_other e k _ hk))
    exact .inl hv
  | lock e r rest h hm held =>
    have hanswer := ((s.begun e r rest).setLock held).succeed_quiet []
    exact absurd ((hanswer.status k).trans ((s.begun_quiet e r rest).status k)) hne
  | send e r rest h id cmd opt params hd =>
    exact absurd ((State.sendFrame_status _ _ _ _ _ k).trans ((s.begun_quiet e r rest).status k)) hne
  | accept e hv hw hr hf =>
    obtain rfl : k = e := by
      by_contra hk
      exact hne ((State.acceptFrame_status_other _ _ _ _ _ hk).trans ((s.finished_quiet e).status k))
    obtain ⟨hk, -, -⟩ := (s.wired_iff k).1 hw
    exact .inr ⟨hv, hr, hf, (s.finished k).acceptFrame_status_same _ _ _ _ (by simpa [State.finished] using hk)⟩
  | misfit e hw hp hc id cmd opt params =>
    exact absurd ((State.sendFrame_status _ _ _ _ _ k).trans ((s.finished_quiet e).status k)) hne

/-- An engine in a phase of the receiver that fits executes an RX. -/
theorem Engine.ReceiverFits.executes_rx {x : Engine} (h : x.ReceiverFits) (hp : x.phase ≠ .idle) :
    x.cur.any Request.isRx = true := by
  unfold Engine.ReceiverFits at h
  cases hphase : x.phase with
  | idle => exact absurd hphase hp
  | rxHdr =>
    rw [hphase] at h
    obtain ⟨⟨r, hcur, hrx⟩, -⟩ := h
    simp [hcur, hrx]
  | rxBody =>
    rw [hphase] at h
    obtain ⟨⟨r, hcur, hrx⟩, -⟩ := h
    simp [hcur, hrx]

/-- An engine that exists is one of the engines. -/
theorem State.engineAt_mem {s : State} {e : Nat} (h : e < s.engines.length) : s.engineAt e ∈ s.engines := by
  simp [State.engineAt, List.getD_eq_getElem?_getD, h]

/-- Settles O59: of the visible steps only a TX and a misfit receiver put a frame on a line, and the receivers fit. -/
theorem onlyTxSends : Obligations.OnlyTxSends := by
  intro s t l hfit hstep hne
  cases (step_cases hstep).visible with
  | quiet hq => exact absurd (hq.out l) hne
  | reset e hv => exact absurd rfl hne
  | lock e r rest h hm held =>
    have hanswer := ((s.begun e r rest).setLock held).succeed_quiet []
    exact absurd ((hanswer.out l).trans ((s.begun_quiet e r rest).out l)) hne
  | send e r rest h id cmd opt params hd =>
    have hbegun := (s.begun_quiet e r rest).out l
    rcases (s.begun e r rest).sendFrame_out id cmd opt params l with hsame | ⟨hl, x, hx⟩
    · exact absurd (hsame.trans hbegun) hne
    · exact ⟨e, r, rest, id, cmd, opt, params, x, h, hl.symm, hd, hbegun ▸ hx⟩
  | accept e hv hw hr hf => exact absurd ((State.acceptFrame_out _ _ _ _ _ l).trans ((s.finished_quiet e).out l)) hne
  | misfit e hw hp hc id cmd opt params =>
    obtain ⟨he, -, -⟩ := (s.wired_iff e).1 hw
    have hrx := (hfit _ (State.engineAt_mem he)).executes_rx hp
    rw [hc] at hrx
    cases hrx

/-! ### What every write keeps, every step keeps -/

/-- Every write a step is made of keeps `I`. A write to an engine either leaves `TABLE` and `CFG_BAUD_IDX` alone, or is
SETBAUD's (R170), or is a reset; a write to a line leaves `RXQ` no longer than it was, or no longer than `RXQ_DEPTH`; a
response has a result byte. -/
structure State.KeptByWrites (I : State → Prop) : Prop where
  elapse : ∀ s : State, I s → I s.elapse
  activate : ∀ (s : State) (e : Nat), I s → I (s.activate e)
  engine : ∀ (s : State) (e : Nat) (f : Engine → Engine), I s →
    (∀ x, (f x).table = x.table ∧ (f x).cfgBaudIdx = x.cfgBaudIdx) → I (s.updEngineAt e f)
  baud : ∀ (s : State) (e : Nat) (idx : Byte), I s → idx.toNat ≤ 7 →
    I (s.updEngineAt e fun x => { x with cfgBaudIdx := idx })
  reset : ∀ (s : State) (e : Nat), I s → I (s.resetEngine e)
  line : ∀ (s : State) (l : Nat) (g : Line → Line), I s →
    (g (s.lineAt l)).rxq.length ≤ max (s.lineAt l).rxq.length s.platform.rxqDepth → I (s.updLineAt l g)
  lock : ∀ (s : State) (held : Bool), I s → I (s.setLock held)
  respond : ∀ (s : State) (m : List Byte) (c : Option Cause), I s →
    (∀ e h, Response.WellFormed ⟨e, h, m, c⟩) → I (s.respond m c)

section
variable {I : State → Prop} {s : State}

theorem State.KeptByWrites.turn (hI : State.KeptByWrites I) (e : Nat) (hs : I s) : I (s.elapse.activate e) :=
  hI.activate _ e (hI.elapse s hs)

/-- A write to the engine that leaves its settings alone. -/
theorem State.KeptByWrites.updEngine (hI : State.KeptByWrites I) {f : Engine → Engine} (hs : I s)
    (hf : ∀ x, (f x).table = x.table ∧ (f x).cfgBaudIdx = x.cfgBaudIdx := by exact fun _ => ⟨rfl, rfl⟩) :
    I (s.updEngine f) := hI.engine s s.active f hs hf

/-- A write to the line that leaves `RXQ` alone. -/
theorem State.KeptByWrites.updLine (hI : State.KeptByWrites I) {g : Line → Line} (hs : I s)
    (hg : ∀ x, (g x).rxq = x.rxq := by exact fun _ => rfl) : I (s.updLine g) :=
  hI.line s s.lineIx g hs (by rw [hg]; exact Nat.le_max_left _ _)

theorem State.KeptByWrites.succeed (hI : State.KeptByWrites I) (payload : List Byte) (hs : I s) :
    I (s.succeed payload) := hI.respond s _ _ hs fun e h => success_wellFormed e h payload

theorem State.KeptByWrites.raiseFail (hI : State.KeptByWrites I) (c : Cause) (hs : I s) : I (s.raiseFail c) :=
  hI.respond s _ _ hs fun e h => failure_wellFormed e h c

theorem State.KeptByWrites.startChunk (hI : State.KeptByWrites I) (n : Nat) (hs : I s) : I (s.startChunk n) :=
  hI.updEngine hs

theorem State.KeptByWrites.begun (hI : State.KeptByWrites I) (e : Nat) (r : Request) (rest : List Request)
    (hs : I s) : I (s.begun e r rest) := hI.updEngine (hI.turn e hs)

theorem State.KeptByWrites.finished (hI : State.KeptByWrites I) (e : Nat) (hs : I s) : I (s.finished e) :=
  hI.updEngine (hI.turn e hs)

theorem State.KeptByWrites.rxFlush (hI : State.KeptByWrites I) (hs : I s) : I s.rxFlush :=
  hI.line s s.lineIx _ hs (Nat.zero_le _)

/-- The byte taken comes off the queue (R19). -/
theorem State.KeptByWrites.rxTake (hI : State.KeptByWrites I) {b : Byte} {rest : List Byte}
    (hq : s.line.rxq = b :: rest) (hs : I s) : I (s.rxTake b rest) := by
  refine hI.line _ _ _ (hI.updEngine hs) ?_
  change rest.length ≤ max s.line.rxq.length s.platform.rxqDepth
  rw [hq, List.length_cons]
  omega

theorem State.KeptByWrites.sendFrame (hI : State.KeptByWrites I) (id cmd opt : Byte) (params : List Byte)
    (hs : I s) : I (s.sendFrame id cmd opt params) :=
  hI.succeed _ (hI.updLine (hI.rxFlush (hI.updLine hs)))

theorem State.KeptByWrites.acceptFrame (hI : State.KeptByWrites I) (id cmd opt : Byte) (params : List Byte)
    (hs : I s) : I (s.acceptFrame id cmd opt params) :=
  hI.succeed _ (hI.updEngine hs)

theorem State.KeptByWrites.deliver (hI : State.KeptByWrites I) (e host : Nat) (m : List Byte) (hs : I s) :
    I (s.deliver e host m) := by
  unfold State.deliver
  split
  · exact hI.engine s e _ hs fun _ => ⟨rfl, rfl⟩
  · exact hs

/-- A byte is appended only where there is room (R16). -/
theorem State.KeptByWrites.arrive (hI : State.KeptByWrites I) (l : Nat) (b : Byte) (hs : I s) :
    I (s.arrive l b) := by
  unfold State.arrive
  split
  next hroom =>
    refine hI.line s l _ hs ?_
    rw [List.length_append, List.length_singleton]
    omega
  next => exact hs

theorem State.KeptByWrites.expire (hI : State.KeptByWrites I) (e : Nat) (hs : I s) : I (s.expire e) := by
  unfold State.expire
  split
  · exact hI.engine s e _ hs fun _ => ⟨rfl, rfl⟩
  · exact hs

/-- What every write keeps, every meaning keeps. -/
theorem State.KeptByWrites.effect (hI : State.KeptByWrites I) {t : State} (h : s.Effect t) (hs : I s) : I t := by
  cases h with
  | read payload => exact hI.succeed payload hs
  | fail c => exact hI.raiseFail c hs
  | baud idx hidx => exact hI.succeed [] (hI.updLine (hI.baud s s.active idx hs hidx))
  | timeout v => exact hI.succeed [] (hI.updLine (hI.updEngine hs))
  | lock held => exact hI.succeed [] (hI.lock s held hs)
  | start => exact hI.startChunk _ (hI.updEngine hs)
  | send id cmd opt params hid hn => exact hI.sendFrame id cmd opt params hs
  | accept id cmd opt params hrx => exact hI.acceptFrame id cmd opt params hs

/-- What every write keeps, every step keeps. -/
theorem State.KeptByWrites.stepped (hI : State.KeptByWrites I) {t : State} (h : s.Stepped t) (hs : I s) : I t := by
  cases h with
  | deliver e host m hv => exact hI.deliver e host m (hI.elapse s hs)
  | arrive l b hv => exact hI.arrive l b (hI.elapse s hs)
  | expire e hv => exact hI.expire e (hI.elapse s hs)
  | reset e hv => exact hI.reset _ e (hI.elapse s hs)
  | absent e hv he => exact hI.elapse s hs
  | rest e hv hw hp hn => exact hI.turn e hs
  | wait e hv hw hp hc hq => exact hI.turn e hs
  | illegal e r q ha => exact hI.raiseFail _ (hI.begun e r q hs)
  | run e r q i ha hd t hx =>
    obtain ⟨t', ht', heffect⟩ := exec_effect i.carried (s.begun e r q)
    obtain rfl : t = t' := by simpa [hx] using ht'
    exact hI.effect heffect (hI.begun e r q hs)
  | take e b q hv hw hp hc hq => exact hI.rxTake hq (hI.turn e hs)
  | body e hv hw hp hc ha hl => exact hI.startChunk _ (hI.updEngine (hI.turn e hs))
  | again e hv hw hp hc ha hq => exact hI.startChunk _ (hI.turn e hs)
  | reject e hv hw hp hr c => exact hI.raiseFail c (hI.finished e hs)
  | accept e hv hw hp hr hf t ht =>
    rcases ht with rfl | rfl
    · exact hI.acceptFrame _ _ _ _ (hI.finished e hs)
    · exact hI.effect (State.carryFrame_effect _ _ _ _ _) (hI.finished e hs)

end

/-! ### The engines' settings -/

/-- A property of every element survives a change of one element that has it afterwards. -/
theorem forall_mem_modify {α : Type} {P : α → Prop} {xs : List α} (n : Nat) {f : α → α} (h : ∀ x ∈ xs, P x)
    (hf : ∀ x, xs[n]? = some x → P (f x)) : ∀ x ∈ xs.modify n f, P x := by
  intro y hy
  obtain ⟨i, hi⟩ := List.mem_iff_getElem?.1 hy
  rw [List.getElem?_modify] at hi
  obtain ⟨x, hx, rfl⟩ := Option.map_eq_some_iff.1 hi
  split
  next hn => subst hn; exact hf x hx
  next => exact h x (List.mem_of_getElem? hx)

/-- A property of `TABLE` and `CFG_BAUD_IDX` that the reset values have, and that every index SETBAUD takes has, is kept
(R22, R23, R170, R260). -/
theorem State.settings_keptByWrites {Q : List Word16 → Byte → Prop}
    (hreset : ∀ i : BitVec 3, Q crcTable (i.setWidth 8))
    (hbaud : ∀ table b idx, idx.toNat ≤ 7 → Q table b → Q table idx) :
    State.KeptByWrites fun s => ∀ x ∈ s.engines, Q x.table x.cfgBaudIdx where
  elapse _ hs := hs
  activate _ _ hs := hs
  engine s e f hs hf := forall_mem_modify e hs fun x hx => by
    obtain ⟨htable, hidx⟩ := hf x
    rw [htable, hidx]
    exact hs x (List.mem_of_getElem? hx)
  baud s e idx hs hidx := forall_mem_modify e hs fun x hx => hbaud _ _ _ hidx (hs x (List.mem_of_getElem? hx))
  reset s e hs := forall_mem_modify e hs fun _ _ => hreset s.platform.resetBaudIdx
  line _ _ _ hs _ := hs
  lock _ _ hs := hs
  respond s m c hs _ := by
    rcases s.respond_engines m c with h | h <;> rw [h]
    · exact hs
    · exact forall_mem_modify _ hs fun x hx => hs x (List.mem_of_getElem? hx)

/-- Settles O50: no write changes a `TABLE`, and a reset gives it the contents of R100. -/
theorem stepKeepsTables : Obligations.StepKeepsTables := fun _ _ hs h =>
  (State.settings_keptByWrites (Q := fun table _ => table = crcTable) (fun _ => rfl) fun _ _ _ _ ht => ht).stepped
    (step_cases h) hs

/-- Bits 7 to 3 of a byte are 0 exactly when it is at most 7. -/
theorem extractLsb_high_eq_zero_iff (b : Byte) : b.extractLsb' 3 5 = 0#5 ↔ b.toNat ≤ 7 := by
  have hb := b.isLt
  rw [← BitVec.toNat_inj]
  simp only [BitVec.extractLsb'_toNat, Nat.shiftRight_eq_div_pow, Nat.reducePow, BitVec.toNat_ofNat, Nat.zero_mod]
  omega

/-- Settles O51: SETBAUD writes an index of at most 7, and a reset one of 3 bits. -/
theorem stepKeepsBaudBitsZero : Obligations.StepKeepsBaudBitsZero := fun _ _ hs h =>
  (State.settings_keptByWrites (Q := fun _ idx => idx.extractLsb' 3 5 = 0#5)
    (fun i => (extractLsb_high_eq_zero_iff _).2 (by have := i.isLt; simp only [BitVec.toNat_setWidth]; omega))
    fun _ _ idx hidx _ => (extractLsb_high_eq_zero_iff idx).2 hidx).stepped (step_cases h) hs

/-! ### The receive queues -/

/-- A line's queue is within its depth, also where the line does not exist. -/
theorem State.QueuesBounded.lineAt {s : State} (hs : s.QueuesBounded) (l : Nat) :
    (s.lineAt l).rxq.length ≤ s.platform.rxqDepth := by
  unfold State.lineAt
  rw [List.getD_eq_getElem?_getD]
  cases h : s.lines[l]? with
  | none => exact Nat.zero_le _
  | some x => exact hs x (List.mem_of_getElem? h)

theorem State.queuesBounded_congr {s t : State} (hs : s.QueuesBounded) (hl : t.lines = s.lines)
    (hp : t.platform = s.platform) : t.QueuesBounded := by
  unfold State.QueuesBounded
  rw [hl, hp]
  exact hs

theorem State.queuesBounded_keptByWrites : State.KeptByWrites State.QueuesBounded where
  elapse _ hs := hs
  activate _ _ hs := hs
  engine _ _ _ hs _ := hs
  baud _ _ _ hs _ := hs
  reset _ _ hs := hs
  line s l g hs hg := forall_mem_modify l hs fun x hx => by
    have hat : s.lineAt l = x := by simp [State.lineAt, List.getD_eq_getElem?_getD, hx]
    rw [← hat]
    exact hg.trans (max_le (hs.lineAt l) le_rfl)
  lock _ _ hs := hs
  respond s m c hs _ := State.queuesBounded_congr hs (s.respond_lines m c) (s.respond_platform m c)

/-- Settles O52: only an arrival makes a queue longer, and only where there is room. -/
theorem stepKeepsQueuesBounded : Obligations.StepKeepsQueuesBounded := fun _ _ hs h =>
  State.queuesBounded_keptByWrites.stepped (step_cases h) hs

/-! ### The responses -/

theorem State.responsesWellFormed_keptByWrites : State.KeptByWrites State.ResponsesWellFormed where
  elapse _ hs := hs
  activate _ _ hs := hs
  engine _ _ _ hs _ := hs
  baud _ _ _ hs _ := hs
  reset _ _ hs := hs
  line _ _ _ hs _ := hs
  lock _ _ hs := hs
  respond s m c hs hm := by
    unfold State.ResponsesWellFormed
    rcases s.respond_responses m c with h | ⟨host, h⟩ <;> rw [h]
    · exact hs
    · exact List.forall_mem_append.2 ⟨hs, List.forall_mem_singleton.2 (hm s.active host)⟩

/-- Settles O55: every response is `01` with its result bytes, or the one byte `00` of a failure. -/
theorem stepKeepsResponsesWellFormed : Obligations.StepKeepsResponsesWellFormed := fun _ _ hs h =>
  State.responsesWellFormed_keptByWrites.stepped (step_cases h) hs

end Sys2Proof.Machine
end

section
/-! PROOFS. The encoding family (30_encoding.md): what is encoded decodes to itself, what is decoded is its encoding,
a wire row is its frame whichever way it goes, and every frame sent is well formed. -/

namespace Sys2Proof.Machine

/-! ### The wire rows

A wire row is its frame: `Instr.wireFields` gives the frame's fields, and all that the model says of the row is said of
them (R70, R74, R85). -/

theorem encode_wire {i : Instr} {w : WireFields} (h : i.wireFields = some w) :
    encode i = frameOf w.id w.cmd w.opt w.params := by
  cases i <;> cases h <;> rfl

theorem wellFormed_wire {i : Instr} {w : WireFields} (h : i.wireFields = some w) :
    i.wellFormed = frameParamsFit w.params := by
  cases i <;> cases h <;> rfl

/-- A wire row is the row of its command byte; the converse is `wireInstr_wireFields`. -/
theorem wireInstr_of_wireFields {i : Instr} {w : WireFields} (h : i.wireFields = some w) :
    wireInstr w.cmd w.id w.opt w.params = some i := by
  cases i <;> cases h <;> rfl

theorem frameParamsFit_iff (params : List Byte) : frameParamsFit params = true ↔ params.length ≤ 247 :=
  decide_eq_true_iff

theorem requestRow_wireFields (c : WireCommand) (id opt : Byte) (params : List Byte) :
    (requestRow c id opt params).wireFields = some ⟨c.code, id, opt, params⟩ := by
  cases c <;> rfl

/-- An acknowledgement row holds its command's acknowledgement code (R211). -/
theorem ackRow_wireFields {c : WireCommand} {id status : Byte} {params : List Byte} {i : Instr}
    (h : ackRow c id status params = some i) :
    ∃ k, c.ack = some k ∧ i.wireFields = some ⟨k, id, status, params⟩ := by
  cases c <;> cases h <;> exact ⟨_, rfl, rfl⟩

/-! ### A wire row goes both ways (R74, R125, R148; log 14) -/

section
variable {s : State} {r : Request} {i : Instr} {w : WireFields}

theorem exec_wire_of_rx (hw : i.wireFields = some w) (hc : s.eng.cur = some r) (hr : r.isRx = true) :
    exec i s = .next (s.acceptFrame w.id w.cmd w.opt w.params) := by
  rw [exec_wire hw, State.carryFrame_rx hc hr]

theorem exec_wire_of_tx (hw : i.wireFields = some w) (hc : s.eng.cur = some r) (hr : r.isRx = false) :
    exec i s = .next (s.transmit w.id w.cmd w.opt w.params) := by
  rw [exec_wire hw, State.carryFrame_tx hc hr]

/-- Executed for an RX, any wire row is accepted (R145). -/
theorem exec_wire_accepts (hw : i.wireFields = some w) (h : s.executing r) (hr : r.isRx = true)
    (ht : s.eng.table = crcTable) :
    ∃ t, exec i s = .next t ∧ s.Accepts t r w.id w.cmd w.opt w.params :=
  ⟨_, exec_wire_of_rx hw h.2 hr, State.acceptFrame_accepts h ht _ _ _ _⟩

/-- Executed for any other request, any wire row to a legal id is sent (R120). -/
theorem exec_wire_sends (hw : i.wireFields = some w) (h : s.executing r) (hr : r.isRx = false)
    (ht : s.eng.table = crcTable) (hid : w.id.toNat ≤ 239 ∨ w.id = 0xFF#8) (hn : w.params.length ≤ 247) :
    ∃ t, exec i s = .next t ∧ s.Sends t r w.id w.cmd w.opt w.params := by
  refine ⟨_, exec_wire_of_tx hw h.2 hr, ?_⟩
  rw [State.transmit_legal _ _ hid hn]
  exact State.sendFrame_sends h ht _ _ _ _

end

/-- Settles O19: the wire row and the plain TX are both the one transmission. -/
theorem txTreatsEveryCommandAlike : Obligations.TxTreatsEveryCommandAlike := by
  intro s r id cmd opt p i h hr hi
  exact exec_wire_of_tx (wireInstr_wireFields hi) h.2 hr

/-- Settles O22: which way a row goes depends on the request being executed, and not on the row. -/
theorem wireRowsGoBothWays : Obligations.WireRowsGoBothWays := by
  constructor
  · intro c s r id opt p h hr ht _
    exact exec_wire_accepts (requestRow_wireFields c id opt p) h hr ht
  · intro c s r id status p i h hr ht hid hn hi
    obtain ⟨k, hk, hw⟩ := ackRow_wireFields hi
    obtain ⟨t, hx, hsends⟩ := exec_wire_sends hw h hr ht hid hn
    exact ⟨t, k, hx, hk, hsends⟩

/-! ### Frames -/

/-- Settles O4: a frame that is taken is well formed, so it is what the framer builds from its fields, and these are
the row's. -/
theorem decodedFrameIsItsEncoding : Obligations.DecodedFrameIsItsEncoding := by
  intro f i h
  obtain ⟨hf, hi⟩ := decodeFrame_ok_iff.1 h
  obtain ⟨hframe, hparams, hlength⟩ := frameWith_fields hf
  have hw := wireInstr_wireFields hi
  constructor
  · rw [wellFormed_wire hw, frameParamsFit_iff, hparams]
    omega
  · rw [encode_wire hw]
    exact hframe

/-- The frame of a row that fits is taken, and gives the row back (R70, R90). -/
theorem decodeFrame_encode {i : Instr} {w : WireFields} (hw : i.wireFields = some w) (h : i.wellFormed = true) :
    decodeFrame (encode i) = .ok i := by
  rw [wellFormed_wire hw, frameParamsFit_iff] at h
  rw [encode_wire hw]
  refine decodeFrame_ok_iff.2 ⟨frameWith_wellFormed crcTable _ _ _ _ h, ?_⟩
  rw [frameOf, frameWith_cmd, frameWith_id, frameWith_opt, frameWith_params]
  exact wireInstr_of_wireFields hw

/-! ### Request messages -/

/-- A count that fits a `u16` is read back from its two bytes (R51, R81). -/
theorem le16_bytes16_wordOf {n : Nat} (h : n ≤ 65535) : (le16 (lo8 (wordOf n)) (hi8 (wordOf n))).toNat = n := by
  rw [le16_lo8_hi8, wordOf, BitVec.toNat_ofNat]
  omega

/-- A count that fits a byte is read back from it (R81). -/
theorem byteOf_toNat {n : Nat} (h : n ≤ 255) : (byteOf n).toNat = n := by
  rw [byteOf, BitVec.toNat_ofNat]
  omega

/-- The four bytes of the `u32` they make up (R18, R52). -/
theorem bytes32_le32 (b0 b1 b2 b3 : Byte) : bytes32 (le32 b0 b1 b2 b3) = [b0, b1, b2, b3] := by
  have h0 : (le32 b0 b1 b2 b3).extractLsb' 0 8 = b0 := by
    apply BitVec.eq_of_getLsbD_eq
    intro i h
    simp [le32, h, show i < 16 by omega, show i < 24 by omega, show i < 32 by omega]
  have h1 : (le32 b0 b1 b2 b3).extractLsb' 8 8 = b1 := by
    apply BitVec.eq_of_getLsbD_eq
    intro i h
    simp [le32, h, show 8 + i < 16 by omega, show 8 + i < 24 by omega, show 8 + i < 32 by omega]
  have h2 : (le32 b0 b1 b2 b3).extractLsb' 16 8 = b2 := by
    apply BitVec.eq_of_getLsbD_eq
    intro i h
    simp [le32, h, show 16 + i < 24 by omega, show 16 + i < 32 by omega, show 16 + i - 8 = 8 + i by omega,
      BitVec.getLsbD_of_ge b0 (16 + i) (by omega)]
  have h3 : (le32 b0 b1 b2 b3).extractLsb' 24 8 = b3 := by
    apply BitVec.eq_of_getLsbD_eq
    intro i h
    simp [le32, h, show 24 + i < 32 by omega, show 24 + i - 8 = 16 + i by omega, show 24 + i - 16 = 8 + i by omega,
      BitVec.getLsbD_of_ge b0 (24 + i) (by omega), BitVec.getLsbD_of_ge b1 (16 + i) (by omega)]
  rw [bytes32, h0, h1, h2, h3]

/-- The message of a host request is taken, and gives the request back (R81, R82). -/
theorem decodeRequest_encode {i : Instr} (hw : i.wireFields = none) (h : i.wellFormed = true) :
    decodeRequest (encode i) = .ok i := by
  cases i with
  | crc data =>
    have hn : data.length ≤ 65535 := of_decide_eq_true h
    refine decodeRequest_ok_iff.2 ⟨List.cons_ne_nil _ _, ?_, rfl⟩
    change some (3 + (le16 (lo8 (wordOf data.length)) (hi8 (wordOf data.length))).toNat) = some (data.length + 3)
    rw [le16_bytes16_wordOf hn, Nat.add_comm]
  | tx id cmd opt params =>
    have hn : params.length ≤ 255 := of_decide_eq_true h
    refine decodeRequest_ok_iff.2 ⟨List.cons_ne_nil _ _, ?_, rfl⟩
    change some (5 + (byteOf params.length).toNat) = some (params.length + 5)
    rw [byteOf_toNat hn, Nat.add_comm]
  | setTmo t =>
    refine decodeRequest_ok_iff.2 ⟨List.cons_ne_nil _ _, rfl, ?_⟩
    exact congrArg (fun v => some (Instr.setTmo v)) (le32_bytes t)
  | rx => rfl
  | setBaud idx => rfl
  | getBaud => rfl
  | getTmo => rfl
  | getStat => rfl
  | lockTry => rfl
  | unlock => rfl
  | rxAvail => rfl
  | tblRd k => rfl
  | _ => cases hw

/-- Of a message of one byte, the opcode is all there is. -/
theorem alone_of_length {op : Byte} {tl : List Byte} (h : some 1 = some (op :: tl).length) : [op] = op :: tl := by
  obtain rfl : tl = [] := List.length_eq_zero_iff.1 (Nat.succ.inj (Option.some.inj h).symm)
  rfl

/-- Of a message of two bytes, the opcode and one operand byte are all there is. -/
theorem pair_of_length {op : Byte} {tl : List Byte} (h : some 2 = some (op :: tl).length) :
    [op, byteAt tl 0] = op :: tl := by
  obtain ⟨b, rfl⟩ := List.length_eq_one_iff.1 (Nat.succ.inj (Option.some.inj h).symm)
  rfl

/-- A message with the opcode of CRC and the length of its count is the CRC of its data (R81, R82). -/
theorem encode_crc_of_length {tl : List Byte} (h : requestLength (0x01#8 :: tl) = some (tl.length + 1)) :
    (Instr.crc (tl.drop 2)).wellFormed = true ∧ encode (.crc (tl.drop 2)) = 0x01#8 :: tl := by
  have hn : 3 + (le16 (byteAt tl 0) (byteAt tl 1)).toNat = tl.length + 1 := Option.some.inj h
  match tl, hn, (show 2 ≤ tl.length by omega) with
  | lo :: hi :: data, hn, _ =>
    have hcount : (le16 lo hi).toNat = data.length := by
      change 3 + (le16 lo hi).toNat = data.length + 3 at hn
      omega
    have hlt := (le16 lo hi).isLt
    refine ⟨decide_eq_true (by change data.length ≤ 65535; omega), ?_⟩
    change 0x01#8 :: (bytes16 (wordOf data.length) ++ data) = _
    rw [← hcount, wordOf, BitVec.ofNat_toNat, BitVec.setWidth_eq, bytes16_le16]
    rfl

/-- A message with the opcode of TX and the length of its count is the TX of its operands (R81, R82). -/
theorem encode_tx_of_length {tl : List Byte} (h : requestLength (0x02#8 :: tl) = some (tl.length + 1)) :
    (Instr.tx (byteAt tl 0) (byteAt tl 1) (byteAt tl 2) (tl.drop 4)).wellFormed = true ∧
      encode (.tx (byteAt tl 0) (byteAt tl 1) (byteAt tl 2) (tl.drop 4)) = 0x02#8 :: tl := by
  have hn : 5 + (byteAt tl 3).toNat = tl.length + 1 := Option.some.inj h
  match tl, hn, (show 4 ≤ tl.length by omega) with
  | id :: cmd :: opt :: n :: params, hn, _ =>
    have hcount : n.toNat = params.length := by
      change 5 + n.toNat = params.length + 5 at hn
      omega
    have hlt := n.isLt
    refine ⟨decide_eq_true (by change params.length ≤ 255; omega), ?_⟩
    change [0x02#8, id, cmd, opt, byteOf params.length] ++ params = _
    rw [← hcount, byteOf, BitVec.ofNat_toNat, BitVec.setWidth_eq]
    rfl

/-- A message with the opcode of SETTMO and its length is the SETTMO of its value (R81, R82). -/
theorem encode_setTmo_of_length {tl : List Byte} (h : requestLength (0x05#8 :: tl) = some (tl.length + 1)) :
    encode (.setTmo (le32 (byteAt tl 0) (byteAt tl 1) (byteAt tl 2) (byteAt tl 3))) = 0x05#8 :: tl := by
  have hn : 5 = tl.length + 1 := Option.some.inj h
  match tl, hn with
  | [b0, b1, b2, b3], _ =>
    change 0x05#8 :: bytes32 (le32 b0 b1 b2 b3) = _
    rw [bytes32_le32]

/-- A message that has its opcode's length and operands is the encoding of the instruction these make up, opcode by
opcode (R81, R82). -/
theorem encode_of_requestInstr {op : Byte} {tl : List Byte} {i : Instr}
    (hn : requestLength (op :: tl) = some (op :: tl).length) (hi : requestInstr (op :: tl) = some i) :
    i.wellFormed = true ∧ encode i = op :: tl := by
  have hopcode : ∀ b : Byte, (byteAt (op :: tl) 0).toNat = b.toNat → op = b := fun _ => BitVec.eq_of_toNat_eq
  unfold requestInstr at hi
  split at hi <;> cases hi
  next hop =>
    obtain rfl := hopcode 0x01#8 hop
    exact encode_crc_of_length hn
  next hop =>
    obtain rfl := hopcode 0x02#8 hop
    exact encode_tx_of_length hn
  next hop =>
    obtain rfl := hopcode 0x03#8 hop
    exact ⟨rfl, alone_of_length hn⟩
  next hop =>
    obtain rfl := hopcode 0x04#8 hop
    exact ⟨rfl, pair_of_length hn⟩
  next hop =>
    obtain rfl := hopcode 0x05#8 hop
    exact ⟨rfl, encode_setTmo_of_length hn⟩
  next hop =>
    obtain rfl := hopcode 0x06#8 hop
    exact ⟨rfl, alone_of_length hn⟩
  next hop =>
    obtain rfl := hopcode 0x07#8 hop
    exact ⟨rfl, alone_of_length hn⟩
  next hop =>
    obtain rfl := hopcode 0x08#8 hop
    exact ⟨rfl, alone_of_length hn⟩
  next hop =>
    obtain rfl := hopcode 0x09#8 hop
    exact ⟨rfl, alone_of_length hn⟩
  next hop =>
    obtain rfl := hopcode 0x0A#8 hop
    exact ⟨rfl, alone_of_length hn⟩
  next hop =>
    obtain rfl := hopcode 0x0B#8 hop
    exact ⟨rfl, alone_of_length hn⟩
  next hop =>
    obtain rfl := hopcode 0x0C#8 hop
    exact ⟨rfl, pair_of_length hn⟩

/-- Settles O3: a message that is taken has an opcode, and has that opcode's length and operands. -/
theorem decodedRequestIsItsEncoding : Obligations.DecodedRequestIsItsEncoding := by
  intro m i h
  obtain ⟨hne, hn, hi⟩ := decodeRequest_ok_iff.1 h
  cases m with
  | nil => exact absurd rfl hne
  | cons op tl => exact encode_of_requestInstr hn hi

/-- A request message that is taken is taken as one: its opcode is not the byte a frame begins with (R71, R83). -/
theorem decode_of_decodeRequest {m : List Byte} {i : Instr} (h : decodeRequest m = .ok i) : decode m = .ok i := by
  cases m with
  | nil => exact h
  | cons op tl =>
    have hop : op ≠ Config.sync := by
      rintro rfl
      obtain ⟨-, -, hi⟩ := decodeRequest_ok_iff.1 h
      cases hi
    exact (if_neg hop).trans h

/-- A frame that is taken is taken as one (R71). -/
theorem decode_of_decodeFrame {f : List Byte} {i : Instr} (h : decodeFrame f = .ok i) : decode f = .ok i := by
  cases f with
  | nil => cases h
  | cons b tl =>
    obtain ⟨hf, -⟩ := decodeFrame_ok_iff.1 h
    obtain ⟨hframe, -, -⟩ := frameWith_fields hf
    have hb : b = Config.sync := (congrArg (fun bytes => byteAt bytes 0) hframe).symm
    exact (if_pos hb).trans h

/-- Settles O2: a wire row's frame is taken as a frame, and a host request's message as a message. -/
theorem decodeOfEncodeIsIdentity : Obligations.DecodeOfEncodeIsIdentity := by
  intro i h
  cases hw : i.wireFields with
  | some w => exact decode_of_decodeFrame (decodeFrame_encode hw h)
  | none => exact decode_of_decodeRequest (decodeRequest_encode hw h)

/-! ### Every frame sent is well formed (R72, R90, R128) -/

/-- The claim read off the output histories alone; a line that does not exist has sent nothing. -/
theorem State.sentWellFormed_iff (s : State) : s.SentWellFormed ↔ ∀ n, ∀ x ∈ (s.lineAt n).out,
    x.line = n ∧ frameWellFormed x.frame = true ∧ legalId (frameId x.frame) = true := by
  simp only [State.lineAt, List.getD_eq_getElem?_getD]
  constructor
  · intro hs n
    cases hl : s.lines[n]? with
    | none => exact fun _ hx => absurd hx List.not_mem_nil
    | some l => exact hs n l hl
  · intro hs n l hl x hx
    exact hs n x (by rwa [hl])

section
variable {s : State}

/-- A change that leaves the output histories alone keeps the claim. -/
theorem State.SentWellFormed.of_out (hs : s.SentWellFormed) {t : State}
    (h : ∀ n, (t.lineAt n).out = (s.lineAt n).out) : t.SentWellFormed := by
  rw [State.sentWellFormed_iff] at hs ⊢
  intro n
  rw [h n]
  exact hs n

theorem State.SentWellFormed.quiet (hs : s.SentWellFormed) {t : State} (h : s.Quiet t) : t.SentWellFormed :=
  hs.of_out h.out

theorem State.SentWellFormed.lineSend (hs : s.SentWellFormed) (b : BitVec 3) {f : List Byte}
    (hf : frameWellFormed f = true) (hid : legalId (frameId f) = true) : (s.lineSend b f).SentWellFormed := by
  rw [State.sentWellFormed_iff] at hs ⊢
  intro n
  rcases s.lineSend_out b f n with hsame | ⟨-, hnew⟩
  · rw [hsame]
    exact hs n
  · rw [hnew]
    exact List.forall_mem_append.2 ⟨hs n, List.forall_mem_singleton.2 ⟨rfl, hf, hid⟩⟩

/-- What TX sends after its validation, over an intact table, is a well-formed frame to the id it was given (R128). -/
theorem State.SentWellFormed.sendFrame (hs : s.SentWellFormed) (ht : s.eng.table = crcTable) {id : Byte}
    (cmd opt : Byte) {params : List Byte} (hid : legalId id = true) (hn : params.length ≤ Config.maxParams) :
    (s.sendFrame id cmd opt params).SentWellFormed := by
  have hf : frameWellFormed (frameWith s.eng.table id cmd opt params) = true := by
    rw [ht]
    exact frameWith_wellFormed crcTable id cmd opt params hn
  have hprepared := hs.quiet (s.prepareLine_quiet (s.eng.cfgBaudIdx.setWidth 3) s.eng.cfgTimeout)
  exact (hprepared.lineSend _ hf (by rwa [frameWith_id])).quiet (State.succeed_quiet _ _)

theorem State.SentWellFormed.effect (hs : s.SentWellFormed) (ht : s.eng.table = crcTable) {t : State}
    (h : s.Effect t) : t.SentWellFormed := by
  cases h with
  | read payload => exact hs.quiet (s.succeed_quiet payload)
  | fail c => exact hs.quiet (.raiseFail (.refl s) c)
  | baud idx hidx => exact hs.quiet (.succeed (.updLine (.updEngine (.refl s))) [])
  | timeout v => exact hs.quiet (.succeed (.updLine (.updEngine (.refl s))) [])
  | lock held => exact hs.of_out (State.succeed_quiet (s.setLock held) []).out
  | start => exact hs.quiet (.startChunk (.updEngine (.refl s)) _)
  | send id cmd opt params hid hn => exact hs.sendFrame ht cmd opt hid hn
  | accept id cmd opt params hrx => exact hs.of_out (s.acceptFrame_out id cmd opt params)

/-- An engine that starts a request has its own table. -/
theorem State.begun_table {e : Nat} {r : Request} {rest : List Request} (h : s.AboutToStart e r rest) :
    (s.begun e r rest).eng.table = (s.engineAt e).table := by
  obtain ⟨he, -, -⟩ := (s.wired_iff e).1 h.wired
  have heng : (s.begun e r rest).eng = { s.engineAt e with reqq := rest, cur := some r } :=
    (s.elapse.activate e).updEngine_eng _ he
  rw [heng]

theorem State.TablesIntact.engineAt (h : s.TablesIntact) {e : Nat} (hw : s.wired e = true) :
    (s.engineAt e).table = crcTable :=
  h _ (State.engineAt_mem ((s.wired_iff e).1 hw).1)

end

/-- Settles O54: of the steps only a request that is run, or a frame carried at the end of the reads, writes an output
history, and both have an intact table. -/
theorem stepKeepsSentFramesWellFormed : Obligations.StepKeepsSentFramesWellFormed := by
  intro s t htables hs hstep
  cases step_cases hstep with
  | deliver e host m hv => exact hs.quiet (s.elapse_quiet.deliver e host m)
  | arrive l b hv => exact hs.quiet (s.elapse_quiet.arrive l b)
  | expire e hv => exact hs.quiet (s.elapse_quiet.expire e)
  | reset e hv => exact hs
  | absent e hv he => exact hs
  | rest e hv hw hp hn => exact hs
  | wait e hv hw hp hc hq => exact hs
  | illegal e r q ha => exact hs.quiet ((s.begun_quiet e r q).raiseFail _)
  | run e r q i ha hd t hx =>
    obtain ⟨t', ht', heffect⟩ := exec_effect i.carried (s.begun e r q)
    obtain rfl : t = t' := by simpa [hx] using ht'
    exact (hs.quiet (s.begun_quiet e r q)).effect ((State.begun_table ha).trans (htables.engineAt ha.wired)) heffect
  | take e b q hv hw hp hc hq => exact hs.quiet ((s.turn_quiet e).rxTake b q)
  | body e hv hw hp hc ha hl => exact hs.quiet ((s.turn_quiet e).updEngine.startChunk _)
  | again e hv hw hp hc ha hq => exact hs.quiet ((s.turn_quiet e).startChunk _)
  | reject e hv hw hp hr c => exact hs.quiet ((s.finished_quiet e).raiseFail c)
  | accept e hv hw hp hr hf t ht =>
    have htable : (s.finished e).eng.table = crcTable := by
      rw [State.finished_eng hw]
      exact htables.engineAt hw
    have hfinished := hs.quiet (s.finished_quiet e)
    rcases ht with rfl | rfl
    · exact hfinished.of_out (State.acceptFrame_out _ _ _ _ _)
    · exact hfinished.effect htable (State.carryFrame_effect _ _ _ _ _)

end Sys2Proof.Machine
end

section
/-! PROOFS. The CRC family (40_crc.md). A round is linear over GF(2) and loses nothing, so eight rounds are and do; the
low byte of the remainder goes through eight rounds by shifts alone. So an update by the table is eight rounds of the
bit-serial form, and what is claimed of checksums is proved of a fold of updates. -/

namespace Sys2Proof.Machine

/-! ### Rounds (R100) -/

/-- Whether a round subtracts the polynomial is itself linear in the remainder. -/
theorem crcRound_xor (c d : Word16) : crcRound (c ^^^ d) = crcRound c ^^^ crcRound d := by
  unfold crcRound
  rw [BitVec.getLsbD_xor, BitVec.shiftLeft_xor_distrib]
  cases c.getLsbD 15 <;> cases d.getLsbD 15
  · rfl
  · exact BitVec.xor_assoc _ _ _
  · change _ = (c <<< 1 ^^^ Config.crcPoly) ^^^ d <<< 1
    ac_rfl
  · change _ = (c <<< 1 ^^^ Config.crcPoly) ^^^ (d <<< 1 ^^^ Config.crcPoly)
    calc
      _ = (c <<< 1 ^^^ d <<< 1) ^^^ (Config.crcPoly ^^^ Config.crcPoly) := by rw [BitVec.xor_self, BitVec.xor_zero]; rfl
      _ = _ := by ac_rfl

/-- A round shows in bit 0 whether it subtracted the polynomial, and its shift loses bit 15 alone. -/
theorem eq_zero_of_crcRound {c : Word16} (h : crcRound c = 0#16) : c = 0#16 := by
  unfold crcRound at h
  split at h
  next =>
    have hbit := congrArg (fun v => v.getLsbD 0) h
    simp [Config.crcPoly] at hbit
  next htop =>
    apply BitVec.eq_of_getLsbD_eq
    intro i hi
    by_cases hi15 : i = 15
    · rw [hi15, BitVec.getLsbD_zero]
      exact Bool.eq_false_of_not_eq_true htop
    · have hbit := congrArg (fun v => v.getLsbD (i + 1)) h
      simpa [hi, show i + 1 < 16 by omega] using hbit

theorem crcRounds_xor (n : Nat) (c d : Word16) : crcRounds n (c ^^^ d) = crcRounds n c ^^^ crcRounds n d := by
  induction n generalizing c d with
  | zero => rfl
  | succ n ih => simp only [crcRounds, crcRound_xor, ih]

theorem eq_zero_of_crcRounds {n : Nat} {c : Word16} (h : crcRounds n c = 0#16) : c = 0#16 := by
  induction n generalizing c with
  | zero => exact h
  | succ n ih => exact eq_zero_of_crcRound (ih h)

theorem crcRounds_inj {n : Nat} {c d : Word16} (h : crcRounds n c = crcRounds n d) : c = d := by
  refine BitVec.xor_eq_zero_iff.1 (eq_zero_of_crcRounds (n := n) ?_)
  rw [crcRounds_xor, h, BitVec.xor_self]

/-- As long as no 1 reaches bit 15, rounds are shifts. -/
theorem crcRounds_of_top_zero {n : Nat} {c : Word16} (h : ∀ i, 16 ≤ i + n → c.getLsbD i = false) :
    crcRounds n c = c <<< n := by
  induction n generalizing c with
  | zero => exact (BitVec.shiftLeft_zero c).symm
  | succ n ih =>
    have hround : crcRound c = c <<< 1 := by rw [crcRound, h 15 (by omega), if_neg Bool.false_ne_true]
    have hshift : ∀ i, 16 ≤ i + n → (c <<< 1).getLsbD i = false := by
      intro i hi
      rw [BitVec.getLsbD_shiftLeft]
      by_cases h0 : i = 0
      · simp [h0]
      · simp [h (i - 1) (by omega)]
    rw [crcRounds, hround, ih hshift, ← BitVec.shiftLeft_add, Nat.add_comm]

theorem crcRounds_eq_iterate (n : Nat) (c : Word16) : crcRounds n c = crcRound^[n] c := by
  induction n generalizing c with
  | zero => rfl
  | succ n ih => exact ih (crcRound c)

/-! ### The bytes of a remainder (R18) -/

/-- Shifted up by a byte, only the low byte is left. -/
theorem lo8_shiftLeft (c : Word16) : (lo8 c).zeroExtend 16 <<< 8 = c <<< 8 := by
  apply BitVec.eq_of_getLsbD_eq
  intro i hi
  simp [lo8, show i - 8 < 8 by omega, show i - 8 < 16 by omega]

theorem hi8_shiftLeft (c : Word16) : hi8 (c <<< 8) = lo8 c := by
  apply BitVec.eq_of_getLsbD_eq
  intro i hi
  simp [hi8, lo8, hi, show i < 16 by omega, show 8 + i < 16 by omega]

theorem hi8_high_byte (b : Byte) : hi8 (b.zeroExtend 16 <<< 8) = b := by
  apply BitVec.eq_of_getLsbD_eq
  intro i hi
  simp [hi8, hi, show 8 + i < 16 by omega]

/-- A byte added at the top meets the high byte alone. -/
theorem xor_high_byte (c : Word16) (b : Byte) :
    c ^^^ b.zeroExtend 16 <<< 8 = (lo8 c).zeroExtend 16 ^^^ (hi8 c ^^^ b).zeroExtend 16 <<< 8 := by
  apply BitVec.eq_of_getLsbD_eq
  intro i hi
  by_cases h8 : i < 8
  · simp [lo8, h8, hi]
  · simp [lo8, hi8, h8, hi, show i - 8 < 8 by omega, show 8 + (i - 8) = i by omega]

/-! ### The table and the update (R100, R102) -/

theorem tableAt_crcTable (i : Byte) : tableAt crcTable i = tableEntry i := by
  simp [tableAt, crcTable, byteOf, List.getD_eq_getElem?_getD, List.getElem?_range i.isLt]

/-- The update looks the table up at the remainder's high byte, changed by the message byte. -/
theorem crcUpdate_crcTable (c : Word16) (b : Byte) :
    crcUpdate crcTable c b = c <<< 8 ^^^ tableEntry (hi8 c ^^^ b) := by
  have hindex : ((c >>> 8) ^^^ b.zeroExtend 16).setWidth 8 = hi8 c ^^^ b := by
    apply BitVec.eq_of_getLsbD_eq
    intro i hi
    simp [hi8, hi, show i < 16 by omega]
  rw [crcUpdate, hindex, tableAt_crcTable]

/-- An update by the table is eight rounds: the high byte's are in the table, and the low byte's are shifts. -/
theorem crcUpdate_eq_crcRounds (c : Word16) (b : Byte) :
    crcUpdate crcTable c b = crcRounds 8 (c ^^^ b.zeroExtend 16 <<< 8) := by
  have hlow : crcRounds 8 ((lo8 c).zeroExtend 16) = c <<< 8 := by
    rw [crcRounds_of_top_zero fun i hi => by simp [lo8, show ¬ i < 8 by omega], lo8_shiftLeft]
  rw [crcUpdate_crcTable, xor_high_byte, crcRounds_xor, hlow]
  rfl

theorem crcUpdate_xor (c d : Word16) (a b : Byte) :
    crcUpdate crcTable (c ^^^ d) (a ^^^ b) = crcUpdate crcTable c a ^^^ crcUpdate crcTable d b := by
  have hargument : (c ^^^ d) ^^^ (a ^^^ b).zeroExtend 16 <<< 8 =
      (c ^^^ a.zeroExtend 16 <<< 8) ^^^ (d ^^^ b.zeroExtend 16 <<< 8) := by
    rw [BitVec.zeroExtend_eq_setWidth, BitVec.setWidth_xor, BitVec.shiftLeft_xor_distrib]
    ac_rfl
  simp only [crcUpdate_eq_crcRounds, hargument, crcRounds_xor]

/-- Different remainders stay different through one byte. -/
theorem crcUpdate_inj_left {c d : Word16} {b : Byte} (h : crcUpdate crcTable c b = crcUpdate crcTable d b) : c = d := by
  rw [crcUpdate_eq_crcRounds, crcUpdate_eq_crcRounds] at h
  exact (BitVec.xor_left_inj _).1 (crcRounds_inj h)

/-- Different bytes make one remainder different. -/
theorem crcUpdate_inj_right {c : Word16} {a b : Byte} (h : crcUpdate crcTable c a = crcUpdate crcTable c b) :
    a = b := by
  rw [crcUpdate_eq_crcRounds, crcUpdate_eq_crcRounds] at h
  rw [← hi8_high_byte a, ← hi8_high_byte b, (BitVec.xor_right_inj c).1 (crcRounds_inj h)]

/-! ### Checksums (R103) -/

/-- Linearity has to be proved from any two remainders on, since each byte changes both. -/
theorem foldl_crcUpdate_xor {s t : List Byte} (h : s.length = t.length) (c d : Word16) :
    (List.zipWith (fun a b => a ^^^ b) s t).foldl (crcUpdate crcTable) (c ^^^ d) =
      s.foldl (crcUpdate crcTable) c ^^^ t.foldl (crcUpdate crcTable) d := by
  induction s generalizing t c d with
  | nil =>
    obtain rfl := List.length_eq_zero_iff.1 h.symm
    rfl
  | cons a s ih =>
    cases t with
    | nil => cases h
    | cons b t =>
      simp only [List.zipWith_cons_cons, List.foldl_cons, crcUpdate_xor]
      exact ih (Nat.succ.inj h) _ _

theorem foldl_crcUpdate_inj {s : List Byte} {c d : Word16}
    (h : s.foldl (crcUpdate crcTable) c = s.foldl (crcUpdate crcTable) d) : c = d := by
  induction s generalizing c d with
  | nil => exact h
  | cons b s ih => exact crcUpdate_inj_left (ih h)

/-- A change of one byte changes the remainder there, and the bytes after it keep it changed. -/
theorem foldl_crcUpdate_modify_ne {f : Byte → Byte} (hf : ∀ b, f b ≠ b) {s : List Byte} {k : Nat}
    (hk : k < s.length) (c : Word16) :
    (s.modify k f).foldl (crcUpdate crcTable) c ≠ s.foldl (crcUpdate crcTable) c := by
  induction s generalizing k c with
  | nil => exact absurd hk (Nat.not_lt_zero k)
  | cons b s ih =>
    cases k with
    | zero => exact fun h => hf b (crcUpdate_inj_right (foldl_crcUpdate_inj h))
    | succ k => exact ih (Nat.lt_of_succ_lt_succ hk) _

/-- Flipping one of its bits changes a byte. -/
theorem xor_bit_ne (b : Byte) {j : Nat} (hj : j < 8) : b ^^^ 0x01#8 <<< j ≠ b := by
  intro h
  have hbit := congrArg (fun v => v.getLsbD j) h
  simp [hj] at hbit

/-- A remainder fed its own two bytes, high byte first, is used up: each byte cancels the table index. -/
theorem crcUpdate_own_bytes (c : Word16) :
    crcUpdate crcTable (crcUpdate crcTable c (hi8 c)) (lo8 c) = 0#16 := by
  have hentry : tableEntry 0#8 = 0#16 := rfl
  have hfirst : crcUpdate crcTable c (hi8 c) = c <<< 8 := by
    rw [crcUpdate_crcTable, BitVec.xor_self, hentry, BitVec.xor_zero]
  rw [hfirst, crcUpdate_crcTable, hi8_shiftLeft, BitVec.xor_self, hentry, BitVec.xor_zero, ← BitVec.shiftLeft_add]
  exact BitVec.shiftLeft_eq_zero (Nat.le_refl 16)

theorem checksum_eq_bitwiseChecksum (s : List Byte) : checksum s = bitwiseChecksum s := by
  have hupdate : crcUpdate crcTable = fun (c : Word16) (b : Byte) => crcRounds 8 (c ^^^ b.zeroExtend 16 <<< 8) :=
    funext₂ crcUpdate_eq_crcRounds
  rw [checksum, checksumWith, hupdate]
  rfl

/-- Settles O11: an update is eight rounds of the bit-serial form, so the two folds are one; the check value is
computed. -/
theorem checksumEqualsBitSerial : Obligations.ChecksumEqualsBitSerial := by
  refine ⟨checksum_eq_bitwiseChecksum, ?_⟩
  decide

/-- Settles O12: an update is linear, and nothing is lost after the byte that has changed. -/
theorem checksumIsLinearAndSeesOneBit : Obligations.ChecksumIsLinearAndSeesOneBit :=
  ⟨fun _ _ h => foldl_crcUpdate_xor h Config.crcSeed Config.crcSeed,
    fun _ _ _ hk hj => foldl_crcUpdate_modify_ne (fun b => xor_bit_ne b hj) hk Config.crcSeed⟩

/-- Settles O13: the residue is two updates by the checksum's own bytes; on the wire's order it is computed. -/
theorem residueOfAppendedChecksum : Obligations.ResidueOfAppendedChecksum := by
  constructor
  · intro m
    rw [checksum, checksumWith_append]
    exact crcUpdate_own_bytes (checksum m)
  · decide

/-! ### The requests (R104, R105) -/

/-- Settles O14: the message is the encoding, and the meaning answers with the engine's own table. -/
theorem crcAnswersTheChecksum : Obligations.CrcAnswersTheChecksum := by
  constructor
  · intro d hd
    exact decodeRequest_encode (i := .crc d) rfl (decide_eq_true hd)
  · intro s r d h ht
    refine ⟨_, rfl, ?_⟩
    rw [ht]
    exact State.succeed_answers h (bytes16 (checksum d))

/-- Settles O15: every byte is a legal index, and the table holds the construction's entry there. -/
theorem tblrdAnswersTheEntry : Obligations.TblrdAnswersTheEntry := by
  constructor
  · intro i
    exact decodeRequest_encode (i := .tblRd i) rfl rfl
  · intro s r i h ht
    refine ⟨_, rfl, ?_⟩
    rw [ht, tableAt_crcTable]
    exact State.succeed_answers h (bytes16 (tableEntry i))

/-- Settles O10: an entry is eight iterated rounds by construction; the spot checks compute one entry each. -/
theorem tableEntriesFollowTheConstruction : Obligations.TableEntriesFollowTheConstruction := by
  unfold Obligations.TableEntriesFollowTheConstruction
  simp only [tableAt_crcTable]
  refine ⟨by simp [crcTable], fun i => crcRounds_eq_iterate 8 _, ?_⟩
  decide

end Sys2Proof.Machine
end

section
/-! PROOFS. The framer's transmit family (41_framer_tx.md). A TX is the transmission its meaning names, which reads and
writes no lock. A frame TX built is taken byte by byte: `Engine.Reading` says how far an RX is and how many turns of its
engine are left, the engine's own turn takes it one turn further, and no other event of R129 disturbs it. -/

namespace Sys2Proof.Machine

/-! ### TX (R120, R124, R125) -/

theorem exec_tx (id cmd opt : Byte) (params : List Byte) (s : State) :
    exec (.tx id cmd opt params) s = .next (s.transmit id cmd opt params) := rfl

/-- Settles O16: the message is the encoding, the frame is laid out by definition, and a transmission sends or fails by
its id and count. -/
theorem txFollowsItsRule : Obligations.TxFollowsItsRule := by
  refine ⟨fun id cmd opt p hp => ?_, fun _ _ _ _ => rfl, fun s r id cmd opt p h ht => ?_⟩
  · exact decodeRequest_encode (i := .tx id cmd opt p) rfl (decide_eq_true hp)
  · refine ⟨_, exec_tx id cmd opt p s, ?_⟩
    split
    next hlegal =>
      rw [State.transmit_legal cmd opt hlegal.1 hlegal.2]
      exact State.sendFrame_sends h ht id cmd opt p
    next hillegal =>
      rw [State.transmit_illegal cmd opt hillegal]
      exact State.raiseFail_fails h .validation

/-- Settles O17: what a legal TX appends to `OUT` is the built frame, whose fields are its operands (R128). -/
theorem sentFrameGivesItsFieldsBack : Obligations.SentFrameGivesItsFieldsBack := by
  intro s r id cmd opt p h ht hid hn
  have hsends := State.sendFrame_sends h ht id cmd opt p
  have hlength : (frameOf id cmd opt p).length = p.length + 8 := frameWith_length crcTable id cmd opt p
  have hdeclared : (byteAt (frameOf id cmd opt p) 3).toNat = p.length + 8 :=
    frameWith_declaredLength crcTable id cmd opt p hn
  have hparams : ((frameOf id cmd opt p).drop 6).take ((frameOf id cmd opt p).length - 8) = p :=
    frameWith_params crcTable id cmd opt p
  rw [hlength, Nat.add_sub_cancel] at hparams
  refine ⟨_, frameOf id cmd opt p, exec_tx id cmd opt p s, ⟨s.eng.cfgBaudIdx.extractLsb' 0 3, ?_⟩,
    frameWith_wellFormed crcTable id cmd opt p hn, frameWith_id crcTable id cmd opt p, by omega,
    frameWith_cmd crcTable id cmd opt p, frameWith_opt crcTable id cmd opt p, hparams, by omega⟩
  rw [State.transmit_legal cmd opt hid hn, hsends.line]

/-! ### TX and the lock (R127) -/

/-- The state with these locks in place of its own. -/
def State.withLocks (s : State) (locks : List Bool) : State := { s with locks := locks }

theorem State.respond_withLocks (s : State) (locks : List Bool) (m : List Byte) (c : Option Cause) :
    (s.withLocks locks).respond m c = (s.respond m c).withLocks locks := by
  cases hc : s.eng.cur with
  | none => rw [State.respond_of_none s m c hc, State.respond_of_none (s.withLocks locks) m c hc]
  | some r =>
    rw [State.respond_of_cur s m c hc, State.respond_of_cur (s.withLocks locks) m c hc]
    rfl

/-- Before it answers, a frame sent reads its engine and writes its line. -/
theorem State.sendFrame_withLocks (s : State) (locks : List Bool) (id cmd opt : Byte) (params : List Byte) :
    (s.withLocks locks).sendFrame id cmd opt params = (s.sendFrame id cmd opt params).withLocks locks := by
  let prepared := (s.lineApply (s.eng.cfgBaudIdx.setWidth 3) s.eng.cfgTimeout).rxFlush
  exact State.respond_withLocks (prepared.lineSend prepared.line.baudIdx (frameWith s.eng.table id cmd opt params))
    locks _ _

theorem State.transmit_withLocks (s : State) (locks : List Bool) (id cmd opt : Byte) (params : List Byte) :
    (s.withLocks locks).transmit id cmd opt params = (s.transmit id cmd opt params).withLocks locks := by
  unfold State.transmit
  split
  · exact s.respond_withLocks locks _ _
  · split
    · exact s.respond_withLocks locks _ _
    · exact s.sendFrame_withLocks locks id cmd opt params

theorem State.transmit_locks (s : State) (id cmd opt : Byte) (params : List Byte) :
    (s.transmit id cmd opt params).locks = s.locks := by
  rcases s.transmit_quiet_or_sends id cmd opt params with hquiet | hsends
  · exact hquiet.locks
  · rw [hsends, State.sendFrame_locks]

/-- Settles O18: the same transmission under any locks, none of which it writes. -/
theorem txIgnoresTheLock : Obligations.TxIgnoresTheLock := by
  intro s t locks id cmd opt p h
  rw [exec_tx] at h
  cases h
  exact ⟨s.transmit_locks id cmd opt p, congrArg Host.Outcome.next (s.transmit_withLocks locks id cmd opt p)⟩

/-! ### An engine and its line, through writes -/

/-- Engine `e` has its wires and is `x`, and its line is `l`. -/
structure State.Shows (s : State) (e : Nat) (x : Engine) (l : Line) : Prop where
  wired : s.wired e = true
  engine : s.engineAt e = x
  line : s.lineAt (s.lineOf e) = l

section
variable {s t : State} {e k : Nat} {x : Engine} {l : Line}

theorem State.Shows.engine_lt (h : s.Shows e x l) : e < s.engines.length := ((s.wired_iff e).1 h.wired).1

theorem State.Shows.elapse (h : s.Shows e x l) : s.elapse.Shows e x l := ⟨h.wired, h.engine, h.line⟩

theorem State.Shows.activate (h : s.Shows e x l) (k : Nat) : (s.activate k).Shows e x l := ⟨h.wired, h.engine, h.line⟩

theorem State.Shows.turn (h : s.Shows e x l) : (s.elapse.activate e).Shows e x l := h.elapse.activate e

theorem State.Shows.updEngineAt (h : s.Shows e x l) (f : Engine → Engine) : (s.updEngineAt e f).Shows e (f x) l where
  wired := by rw [State.updEngineAt_wired, h.wired]
  engine := by rw [s.updEngineAt_engineAt_same e f h.engine_lt, h.engine]
  line := h.line

theorem State.Shows.updEngineAt_other (h : s.Shows e x l) (f : Engine → Engine) (hk : e ≠ k) :
    (s.updEngineAt k f).Shows e x l where
  wired := by rw [State.updEngineAt_wired, h.wired]
  engine := by rw [s.updEngineAt_engineAt_other k e f hk, h.engine]
  line := h.line

theorem State.Shows.updLineAt (h : s.Shows e x l) (g : Line → Line) :
    (s.updLineAt (s.lineOf e) g).Shows e x (g l) where
  wired := by rw [State.updLineAt_wired, h.wired]
  engine := h.engine
  line := by
    obtain ⟨-, hl, -⟩ := (s.wired_iff e).1 h.wired
    rw [State.updLineAt_lineOf, s.updLineAt_lineAt_same _ g hl, h.line]

theorem State.Shows.updLineAt_other (h : s.Shows e x l) (g : Line → Line) (hk : s.lineOf e ≠ k) :
    (s.updLineAt k g).Shows e x l where
  wired := by rw [State.updLineAt_wired, h.wired]
  engine := h.engine
  line := by rw [State.updLineAt_lineOf, s.updLineAt_lineAt_other k _ g hk, h.line]

theorem State.Shows.eng (h : s.Shows s.active x l) : s.eng = x := h.engine

/-- A success answers the engine's request and ends it (R179). -/
theorem State.Shows.succeed (h : s.Shows s.active x l) {r : Request} (hc : x.cur = some r) (payload : List Byte) :
    (s.succeed payload).Shows s.active { x with cur := none } l ∧
      (s.succeed payload).responses = s.responses ++ [⟨s.active, r.host, successMessage payload, none⟩] := by
  have hended := h.updEngineAt fun e => { e with cur := none }
  rw [State.succeed, State.respond_of_cur s _ none (h.eng ▸ hc)]
  exact ⟨⟨hended.wired, hended.engine, hended.line⟩, rfl⟩

/-- The response of engine `e` that gives the accepted frame of these fields to the host of `r` (R81, R145). -/
def acceptedResponse (e : Nat) (r : Request) (id cmd opt : Byte) (p : List Byte) : Response :=
  ⟨e, r.host, 0x01#8 :: byteOf (8 + p.length) :: frameOf id cmd opt p, none⟩

/-- An acceptance caches the status byte, answers with the frame and leaves the line alone (R145). -/
theorem State.Shows.acceptFrame (h : s.Shows s.active x l) {r : Request} (hc : x.cur = some r)
    (ht : x.table = crcTable) (id cmd opt : Byte) (p : List Byte) :
    (s.acceptFrame id cmd opt p).Shows s.active { x with lastStatus := opt, cur := none } l ∧
      (s.acceptFrame id cmd opt p).responses = s.responses ++ [acceptedResponse s.active r id cmd opt p] := by
  have hcached := h.updEngineAt fun e => { e with lastStatus := opt }
  have hframe : frameWith s.eng.table id cmd opt p = frameOf id cmd opt p := by rw [h.eng, ht, frameOf]
  rw [acceptedResponse, ← successMessage_framePayload, State.acceptFrame, hframe]
  exact State.Shows.succeed (s := s.updEngine fun e => { e with lastStatus := opt }) hcached hc _

end

/-! ### How far an RX is in a frame -/

/-- Engine `x` executes the RX `r` and has taken all of `f` but `left`; after `turns` more of its turns, each of which
finds a byte waiting or a chunk complete, the frame is accepted (R140, R141, R144; log 9). -/
structure Engine.Reading (x : Engine) (r : Request) (f left : List Byte) (turns : Nat) : Prop where
  table : x.table = crcTable
  cur : x.cur = some r
  timer : x.timer = .running
  frame : x.acc ++ left = f
  stage : (x.phase = .rxHdr ∧ x.acc.length + x.want = 6 ∧ turns = left.length + 2) ∨
    (x.phase = .rxBody ∧ 6 ≤ x.acc.length ∧ x.want = left.length ∧ turns = left.length + 1)

section
variable {s : State} {e turns : Nat} {x : Engine} {l : Line} {r : Request} {f left behind : List Byte}

theorem Engine.Reading.phase_ne (h : x.Reading r f left turns) : x.phase ≠ .idle := by
  rcases h.stage with ⟨hp, -⟩ | ⟨hp, -⟩ <;> simp [hp]

/-- No timer has expired, so a chunk has returned when it is complete (R141). -/
theorem Engine.Reading.chunkReturned_iff (h : x.Reading r f left turns) : x.chunkReturned = true ↔ x.want = 0 := by
  simp [Engine.chunkReturned, h.timer]

/-- A chunk never asks for more than is left of a frame of at least 6 bytes. -/
theorem Engine.Reading.want_le (h : x.Reading r f left turns) (hf : 6 ≤ f.length) : x.want ≤ left.length := by
  have hlength := congrArg List.length h.frame
  rw [List.length_append] at hlength
  rcases h.stage with ⟨-, hw, -⟩ | ⟨-, -, hw, -⟩ <;> omega

/-- What is delivered meanwhile changes nothing of it. -/
theorem Engine.Reading.with_reqq (h : x.Reading r f left turns) (q : List Request) :
    { x with reqq := q }.Reading r f left turns :=
  ⟨h.table, h.cur, h.timer, h.frame, h.stage⟩

/-- The engine whose turn it is goes on with its RX. -/
theorem State.Shows.aboutToReceive (h : s.Shows e x l) (hx : x.Reading r f left turns) (hr : r.isRx = true)
    (hv : s.nextEvent = .engine e) : s.AboutToReceive e r where
  event := hv
  wired := h.wired
  phase := h.engine ▸ hx.phase_ne
  cur := h.engine ▸ hx.cur
  isRx := hr

/-- Its turn with a complete chunk is what follows the chunk (R143, R144). -/
theorem step_chunkDone (h : s.Shows e x l) (hx : x.Reading r f left turns) (hr : r.isRx = true)
    (hv : s.nextEvent = .engine e) (hw : x.want = 0) : step s = (s.elapse.activate e).chunkDone.conclude := by
  have hreturned : (s.elapse.activate e).eng.chunkReturned = true := by
    rw [h.turn.eng]
    exact hx.chunkReturned_iff.2 hw
  rw [step_receive (h.aboutToReceive hx hr hv), State.rxAdvance_returned hreturned]

/-- Its turn with an incomplete chunk takes the byte at the head of the queue (R141). -/
theorem step_rxTake (h : s.Shows e x l) (hx : x.Reading r f left turns) (hr : r.isRx = true)
    (hv : s.nextEvent = .engine e) (hw : x.want ≠ 0) {b : Byte} {rest : List Byte} (hq : l.rxq = b :: rest) :
    step s = .next ((s.elapse.activate e).rxTake b rest) := by
  have hopen : (s.elapse.activate e).eng.chunkReturned = false := by
    rw [h.turn.eng, Bool.eq_false_iff, ne_eq, hx.chunkReturned_iff]
    exact hw
  have hqueue : (s.elapse.activate e).line.rxq = b :: rest := by rw [← hq, ← h.line]; rfl
  rw [step_receive (h.aboutToReceive hx hr hv), State.rxAdvance_take hopen hqueue]
  rfl

end

/-! ### The engine's own turns -/

section
variable {s : State} {e turns : Nat} {x : Engine} {l : Line} {r : Request} {f left behind : List Byte}

/-- The first turn starts the RX, with one turn for each byte of the frame and two more left (R140). -/
theorem step_startRx {h : Nat} {rest : List Request} {id cmd opt : Byte} {p : List Byte}
    (ha : s.AboutToStart e ⟨h, [0x03#8]⟩ rest) (ht : (s.engineAt e).table = crcTable)
    (hq : (s.lineAt (s.lineOf e)).rxq = frameOf id cmd opt p ++ behind) :
    ∃ t x, step s = .next t ∧
      t.Shows e x { s.lineAt (s.lineOf e) with rxq := frameOf id cmd opt p ++ behind } ∧ x.reqq = rest ∧
      x.Reading ⟨h, [0x03#8]⟩ (frameOf id cmd opt p) (frameOf id cmd opt p) (p.length + 9 + 1) ∧
      t.responses = s.responses := by
  have hturns : p.length + 9 + 1 = (frameOf id cmd opt p).length + 2 := by rw [frameOf, frameWith_length]
  have hline : s.lineAt (s.lineOf e) = { s.lineAt (s.lineOf e) with rxq := frameOf id cmd opt p ++ behind } := by
    rw [← hq]
  have hshows : s.Shows e (s.engineAt e) _ := ⟨ha.wired, rfl, hline⟩
  have hstarted := ((hshows.turn.updEngineAt fun x => { x with reqq := rest, cur := some ⟨h, [0x03#8]⟩ }).updEngineAt
    fun x => { x with phase := .rxHdr, acc := [] }).updEngineAt
      fun x => { x with want := 6, timer := .running, timerLoad := (s.lineAt (s.lineOf e)).timeout }
  refine ⟨_, _, ?_, hstarted, rfl, ⟨ht, rfl, rfl, rfl, .inl ⟨rfl, rfl, hturns⟩⟩, rfl⟩
  rw [step_start ha, State.dispatch_ok (i := .rx) rfl]
  rfl

/-- An incomplete chunk takes the byte at the head of the queue (R141). -/
theorem step_takeByte (h : s.Shows e x { l with rxq := left ++ behind }) (hx : x.Reading r f left (turns + 1))
    (hr : r.isRx = true) (hf : 6 ≤ f.length) (hv : s.nextEvent = .engine e) (hw : x.want ≠ 0) :
    ∃ t y left', step s = .next t ∧ t.Shows e y { l with rxq := left' ++ behind } ∧ y.reqq = x.reqq ∧
      y.Reading r f left' turns ∧ t.responses = s.responses := by
  have hwant := hx.want_le hf
  match left, hx, h with
  | [], _, _ => exact absurd (Nat.le_zero.1 hwant) hw
  | b :: left', hx, h =>
    have htaken := (h.turn.updEngineAt fun x => { x with acc := x.acc ++ [b], want := x.want - 1 }).updLineAt
      fun l => { l with rxq := left' ++ behind }
    refine ⟨_, _, left', step_rxTake h hx hr hv hw rfl, htaken, rfl, ⟨hx.table, hx.cur, hx.timer, ?_, ?_⟩, rfl⟩
    · rw [← hx.frame, List.append_assoc]
      rfl
    · have hstage := hx.stage
      simp only [List.length_append, List.length_cons, List.length_nil] at hstage ⊢
      rcases hstage with ⟨hp, hw, hn⟩ | ⟨hp, ha, hw, hn⟩
      · exact .inl ⟨hp, by omega, by omega⟩
      · exact .inr ⟨hp, by omega, by omega, by omega⟩

/-- The first 6 bytes of a frame declare its length (R73, R144). -/
theorem declaredLength_of_header {a b : List Byte} (h : 6 ≤ a.length) : declaredLength (a ++ b) = declaredLength a := by
  simp [declaredLength, byteAt, List.getD_eq_getElem?_getD, List.getElem?_append_left (show 3 < a.length by omega)]

/-- The turn after the header starts the remainder (R144). -/
theorem step_startRemainder (h : s.Shows e x { l with rxq := left ++ behind })
    (hx : x.Reading r f left (turns + 1)) (hr : r.isRx = true) (hdeclared : declaredLength f = f.length)
    (hf : 6 < f.length) (hv : s.nextEvent = .engine e) (hp : x.phase = .rxHdr) (hw : x.want = 0) :
    ∃ t y left', step s = .next t ∧ t.Shows e y { l with rxq := left' ++ behind } ∧ y.reqq = x.reqq ∧
      y.Reading r f left' turns ∧ t.responses = s.responses := by
  have hlength := congrArg List.length hx.frame
  rw [List.length_append] at hlength
  obtain ⟨hacc, hturns⟩ : x.acc.length = 6 ∧ turns = left.length + 1 := by
    rcases hx.stage with ⟨-, ha, hn⟩ | ⟨hp', -⟩
    · omega
    · rw [hp] at hp'; cases hp'
  have hdecl : declaredLength x.acc = f.length := by
    rw [← declaredLength_of_header (b := left) (by omega), hx.frame, hdeclared]
  have hstarted := (h.turn.updEngineAt fun x => { x with phase := .rxBody }).updEngineAt
    fun x => { x with want := declaredLength (s.engineAt e).acc - (s.engineAt e).acc.length, timer := .running,
                      timerLoad := (s.lineAt (s.lineOf e)).timeout }
  obtain rfl := h.engine
  refine ⟨_, _, left, ?_, hstarted, rfl, ⟨hx.table, hx.cur, rfl, hx.frame, .inr ⟨rfl, hacc.ge, ?_, hturns⟩⟩, rfl⟩
  · have hlong : 6 < declaredLength (s.engineAt e).acc := hdecl ▸ hf
    rw [step_chunkDone h hx hr hv hw, State.chunkDone_remainder (s := s.elapse.activate e) hp hacc hlong]
    rfl
  · change declaredLength (s.engineAt e).acc - (s.engineAt e).acc.length = left.length
    omega

/-- Every turn but the last takes the RX one turn further. -/
theorem step_reading (h : s.Shows e x { l with rxq := left ++ behind }) (hx : x.Reading r f left (turns + 2))
    (hr : r.isRx = true) (hdeclared : declaredLength f = f.length) (hf : 6 < f.length)
    (hv : s.nextEvent = .engine e) :
    ∃ t y left', step s = .next t ∧ t.Shows e y { l with rxq := left' ++ behind } ∧ y.reqq = x.reqq ∧
      y.Reading r f left' (turns + 1) ∧ t.responses = s.responses := by
  by_cases hw : x.want = 0
  · rcases hx.stage with ⟨hp, -⟩ | ⟨-, -, hleft, hturns⟩
    · exact step_startRemainder h hx hr hdeclared hf hv hp hw
    · omega
  · exact step_takeByte h hx hr hf.le hv hw

/-- The verdict on a frame as TX builds it accepts its fields (R128, R145). -/
theorem State.verdict_of_frame {id cmd opt : Byte} {p : List Byte} (ht : s.eng.table = crcTable)
    (ha : s.eng.acc = frameOf id cmd opt p) (hn : p.length ≤ 247) : s.verdict = .accepted id cmd opt p s := by
  rw [State.verdict_accept (by rw [ht, ha]; exact frameWith_wellFormed crcTable id cmd opt p hn), ha, frameOf,
    frameWith_id, frameWith_cmd, frameWith_opt, frameWith_params]

/-- The last turn finds the frame complete, accepts it and answers with it (R145). -/
theorem step_readingLast {id cmd opt : Byte} {p : List Byte}
    (h : s.Shows e x { l with rxq := left ++ behind }) (hx : x.Reading r (frameOf id cmd opt p) left 1)
    (hr : r.isRx = true) (hn : p.length ≤ 247) (hv : s.nextEvent = .engine e) :
    ∃ t, step s = .next t ∧
      t.Shows e { x with phase := .idle, timer := .stopped, lastStatus := opt, cur := none } { l with rxq := behind } ∧
      t.responses = s.responses ++ [acceptedResponse e r id cmd opt p] := by
  obtain ⟨hp, hwant, rfl⟩ : x.phase = .rxBody ∧ x.want = 0 ∧ left = [] := by
    rcases hx.stage with ⟨-, -, hturns⟩ | ⟨hp, -, hwant, hturns⟩
    · omega
    · exact ⟨hp, by omega, List.length_eq_zero_iff.1 (by omega)⟩
  have hacc : x.acc = frameOf id cmd opt p := by rw [← hx.frame, List.append_nil]
  have hcomplete : x.acc.length = declaredLength x.acc := by
    rw [hacc]
    exact (frameWith_length ..).trans (frameWith_declaredLength _ _ _ _ _ hn).symm
  obtain rfl := h.engine
  have hfinished := h.turn.updEngineAt fun x => { x with phase := .idle, timer := .stopped }
  have heng : (s.finished e).eng = { s.engineAt e with phase := .idle, timer := .stopped } := hfinished.engine
  refine ⟨(s.finished e).acceptFrame id cmd opt p, ?_, hfinished.acceptFrame hx.cur hx.table id cmd opt p⟩
  rw [step_chunkDone h hx hr hv hwant, State.chunkDone_over (s := s.elapse.activate e) hp (.inl hcomplete)]
  change (s.finished e).verdict.conclude = _
  rw [State.verdict_of_frame (by rw [heng]; exact hx.table) (by rw [heng]; exact hacc) hn,
    RxResult.conclude_accepted (by rw [heng]; exact hx.cur) hr]

end

/-! ### The engine alone (R129) -/

theorem State.nextEvent_of_cons {s : State} {ev : Event} {rest : List Event} (h : s.agenda = ev :: rest) :
    s.nextEvent = ev := by
  unfold State.nextEvent; rw [h]

theorem State.lineOf_congr {s t : State} (h : t.platform = s.platform) (e : Nat) : t.lineOf e = s.lineOf e := by
  rw [State.lineOf, State.lineOf, State.wiringOf, State.wiringOf, h]

/-- Engine `x` has ended an RX that accepted a frame with this status byte (R145). -/
structure Engine.Accepted (x : Engine) (opt : Byte) : Prop where
  phase : x.phase = .idle
  timer : x.timer = .stopped
  cur : x.cur = none
  lastStatus : x.lastStatus = opt

section
variable {e h : Nat} {l : Line} {r : Request} {id cmd opt : Byte} {p left behind : List Byte}

/-- A frame as TX builds it declares its length, which is more than a header's (R73). -/
theorem frameOf_declared (id cmd opt : Byte) (hn : p.length ≤ 247) :
    declaredLength (frameOf id cmd opt p) = (frameOf id cmd opt p).length ∧ 6 < (frameOf id cmd opt p).length := by
  have hlength : (frameOf id cmd opt p).length = p.length + 8 := frameWith_length ..
  exact ⟨(frameWith_declaredLength _ _ _ _ _ hn).trans hlength.symm, by omega⟩

/-- As many of its own turns as are left bring the engine to the acceptance, if they come one after another. -/
theorem run_reading {turns : Nat} {s : State} {x : Engine} {agenda : List Event}
    (hs : s.Shows e x { l with rxq := left ++ behind }) (hx : x.Reading r (frameOf id cmd opt p) left (turns + 1))
    (hr : r.isRx = true) (hn : p.length ≤ 247)
    (ha : s.agenda = List.replicate (turns + 1) (.engine e) ++ agenda) :
    ∃ t y, Host.Core.run Sys2Proof.core (turns + 1) s = .next t ∧ t.Shows e y { l with rxq := behind } ∧
      y.Accepted opt ∧ y.reqq = x.reqq ∧ t.responses = s.responses ++ [acceptedResponse e r id cmd opt p] := by
  have hv : s.nextEvent = .engine e := State.nextEvent_of_cons ha
  induction turns generalizing s x left with
  | zero =>
    obtain ⟨t, hstep, ht, hresponses⟩ := step_readingLast hs hx hr hn hv
    exact ⟨t, _, run_succ 0 hstep, ht, ⟨rfl, rfl, rfl, rfl⟩, rfl, hresponses⟩
  | succ turns ih =>
    obtain ⟨hdeclared, hlong⟩ := frameOf_declared id cmd opt hn
    obtain ⟨t, y, left', hstep, ht, hreqq, hy, hresponses⟩ := step_reading hs hx hr hdeclared hlong hv
    have hagenda : t.agenda = List.replicate (turns + 1) (.engine e) ++ agenda := by
      rw [(step_cases hstep).elapsed.1, ha]
      rfl
    obtain ⟨u, z, hrun, hu, hz, hreqq', hresponses'⟩ := ih ht hy hagenda (State.nextEvent_of_cons hagenda)
    exact ⟨u, z, (run_succ _ hstep).trans hrun, hu, hz, hreqq'.trans hreqq, hresponses ▸ hresponses'⟩

end

/-- Settles O29: the first turn starts the RX, and the others are all it has left. -/
theorem rxAcceptsTheFrameTxBuilt : Obligations.RxAcceptsTheFrameTxBuilt := by
  intro s e h rest agenda id cmd opt p more hstart htable hn hq ha
  obtain ⟨t, x, hstep, ht, hreqq, hx, hresponses⟩ := step_startRx hstart htable hq
  have hagenda : t.agenda = List.replicate (p.length + 9 + 1) (.engine e) ++ agenda := by
    rw [(step_cases hstep).elapsed.1, ha]
    rfl
  obtain ⟨u, y, hrun, hu, hy, hreqq', hresponses'⟩ := run_reading ht hx rfl hn hagenda
  have hwhole : Host.Core.run Sys2Proof.core (p.length + 11) s = .next u := (run_succ _ hstep).trans hrun
  obtain ⟨hleft, -, hplatform⟩ := run_elapsed hwhole
  obtain rfl := hu.engine
  refine ⟨u, hwhole, hresponses ▸ hresponses', ?_, hy.lastStatus, hy.phase, hy.cur, hreqq'.trans hreqq, ?_⟩
  · exact State.lineOf_congr hplatform e ▸ hu.line
  · rw [hleft, ha, List.drop_left' List.length_replicate]

/-! ### What an engine's turn leaves alone -/

section
variable {s t u : State}

theorem State.SameElsewhere.trans (h : s.SameElsewhere t) (h' : t.SameElsewhere u) : s.SameElsewhere u where
  platform := h'.platform.trans h.platform
  active := h'.active.trans h.active
  agenda := h'.agenda.trans h.agenda
  tick := h'.tick.trans h.tick
  engines e he := (h'.engines e (h.active ▸ he)).trans (h.engines e he)
  lines l hl := by
    have hlineIx : t.lineIx = s.lineIx := by rw [State.lineIx, h.active, State.lineOf_congr h.platform]; rfl
    exact (h'.lines l (hlineIx ▸ hl)).trans (h.lines l hl)
  locks k hk := by
    have hlockIx : t.lockIx = s.lockIx := by
      rw [State.lockIx, State.lockOf, State.wiringOf, h.active, h.platform]; rfl
    exact (h'.locks k (hlockIx ▸ hk)).trans (h.locks k hk)

/-! Writes to the engine of the step, to its line and to its lock. -/

theorem State.SameElsewhere.updEngine (h : s.SameElsewhere t) {f : Engine → Engine} :
    s.SameElsewhere (t.updEngine f) :=
  h.trans ⟨rfl, rfl, rfl, rfl, fun _ he => t.updEngineAt_engines_other f he, fun _ _ => rfl, fun _ _ => rfl⟩

theorem State.SameElsewhere.updLine (h : s.SameElsewhere t) {g : Line → Line} : s.SameElsewhere (t.updLine g) :=
  h.trans ⟨rfl, rfl, rfl, rfl, fun _ _ => rfl, fun _ hl => t.updLineAt_lines_other g hl, fun _ _ => rfl⟩

theorem State.SameElsewhere.setLock (h : s.SameElsewhere t) (held : Bool) : s.SameElsewhere (t.setLock held) :=
  h.trans ⟨rfl, rfl, rfl, rfl, fun _ _ => rfl, fun _ _ => rfl, fun k hk => by simp [hk.symm]⟩

theorem State.SameElsewhere.respond (h : s.SameElsewhere t) (m : List Byte) (c : Option Cause) :
    s.SameElsewhere (t.respond m c) := by
  cases hc : t.eng.cur with
  | none => rwa [State.respond_of_none t m c hc]
  | some r =>
    rw [State.respond_of_cur t m c hc]
    obtain ⟨hplatform, hactive, hagenda, htick, hengines, hlines, hlocks⟩ :=
      h.updEngine (f := fun e => { e with cur := none })
    exact ⟨hplatform, hactive, hagenda, htick, hengines, hlines, hlocks⟩

/-- Every meaning writes its own engine, line and lock at most. -/
theorem State.Effect.sameElsewhere (h : s.Effect t) : s.SameElsewhere t := by
  have hs := s.sameElsewhere_refl
  cases h with
  | read payload => exact hs.respond _ _
  | fail c => exact hs.respond _ _
  | baud idx hidx => exact hs.updEngine.updLine.respond _ _
  | timeout v => exact hs.updEngine.updLine.respond _ _
  | lock held => exact (hs.setLock held).respond _ _
  | start => exact hs.updEngine.updEngine
  | send id cmd opt params hid hn => exact hs.updLine.updLine.updLine.respond _ _
  | accept id cmd opt params hrx => exact hs.updEngine.respond _ _

/-- The end of the reads answers a next state, whatever the verdict. -/
theorem State.rxFinish_sameElsewhere (s : State) : ∃ t, s.rxFinish.conclude = .next t ∧ s.SameElsewhere t := by
  unfold State.rxFinish
  have hidle := s.sameElsewhere_refl.updEngine (f := fun e => { e with phase := .idle, timer := .stopped })
  generalize s.updEngine _ = idle at hidle ⊢
  rcases idle.verdict_cases with ⟨c, hverdict⟩ | ⟨-, hverdict⟩
  · rw [hverdict]
    exact ⟨_, rfl, hidle.respond _ _⟩
  · rw [hverdict]
    simp only [RxResult.conclude]
    split
    next i _ =>
      obtain ⟨t, hexec, heffect⟩ := exec_effect i idle
      exact ⟨t, hexec, hidle.trans heffect.sameElsewhere⟩
    next => exact ⟨_, rfl, hidle.updEngine.respond _ _⟩

/-- An RX's turn answers a next state. -/
theorem State.rxAdvance_sameElsewhere (s : State) : ∃ t, s.rxAdvance.conclude = .next t ∧ s.SameElsewhere t := by
  have hs := s.sameElsewhere_refl
  rcases s.rxAdvance_cases with ⟨-, h⟩ | ⟨-, b, rest, -, h⟩ | ⟨-, -, h⟩
  · rw [h]
    rcases s.chunkDone_cases with ⟨-, h⟩ | ⟨-, -, -, h⟩ | ⟨-, -, -, h⟩ | ⟨-, h⟩
    · exact ⟨s, by rw [h]; rfl, hs⟩
    · exact ⟨_, by rw [h]; rfl, hs.updEngine.updEngine⟩
    · exact ⟨_, by rw [h]; rfl, hs.updEngine⟩
    · rw [h]
      exact s.rxFinish_sameElsewhere
  · exact ⟨_, by rw [h]; rfl, hs.updEngine.updLine⟩
  · exact ⟨s, by rw [h]; rfl, hs⟩

/-- An engine's move answers a next state and writes its own engine, line and lock at most. -/
theorem State.engineMove_sameElsewhere (s : State) : ∃ t, s.engineMove = .next t ∧ s.SameElsewhere t := by
  have hs := s.sameElsewhere_refl
  rcases s.engineMove_cases with ⟨-, -, h⟩ | ⟨r, rest, -, -, -, h⟩ | ⟨-, h⟩
  · exact ⟨s, h, hs⟩
  · rw [h]
    cases hd : decodeRequest r.message with
    | error x => exact ⟨_, State.dispatch_error hd, hs.updEngine.respond _ _⟩
    | ok i =>
      rw [State.dispatch_ok hd]
      obtain ⟨t, hexec, heffect⟩ := exec_effect i.carried (s.updEngine fun e => { e with reqq := rest, cur := some r })
      exact ⟨t, hexec, hs.updEngine.trans heffect.sameElsewhere⟩
  · rw [h]
    exact s.rxAdvance_sameElsewhere

end

/-! ### Other events between the engine's turns (R129) -/

section
variable {s t : State} {e : Nat} {x : Engine} {l : Line}

/-- A move of another engine, of another line, leaves this engine and its line as they are. -/
theorem State.Shows.sameElsewhere (h : s.Shows e x l) (hst : s.SameElsewhere t) (hn : t.sizes = s.sizes)
    (he : e ≠ s.active) (hl : s.lineOf e ≠ s.lineIx) : t.Shows e x l where
  wired := by rw [State.wired_congr hst.platform hn, h.wired]
  engine := by
    rw [← h.engine, State.engineAt, State.engineAt, List.getD_eq_getElem?_getD, List.getD_eq_getElem?_getD,
      hst.engines e he]
  line := by
    rw [← h.line, State.lineOf_congr hst.platform, State.lineAt, State.lineAt, List.getD_eq_getElem?_getD,
      List.getD_eq_getElem?_getD, hst.lines _ hl]

/-- A turn of an engine of another line answers a next state and leaves this engine and its line as they are. -/
theorem step_otherEngine {k : Nat} (hs : s.Shows e x l) (hw : s.Wired) (hv : s.nextEvent = .engine k) (hk : k ≠ e)
    (hl : s.lineOf k ≠ s.lineOf e) : ∃ t, step s = .next t ∧ t.Shows e x l := by
  by_cases hlt : k < s.engines.length
  · obtain ⟨t, hmove, helsewhere⟩ := (s.elapse.activate k).engineMove_sameElsewhere
    have hstep : step s = .next t := (step_engine hv (hw.wired k hlt)).trans hmove
    exact ⟨t, hstep, (hs.elapse.activate k).sameElsewhere helsewhere (step_cases hstep).sizes hk.symm hl.symm⟩
  · refine ⟨_, ?_, hs.elapse⟩
    rw [step_eq, hv]
    exact if_neg hlt

/-- An arrival on the engine's line stands at the end of its queue, and one on another line does not touch it. -/
theorem State.Shows.arrive (h : s.Shows e x l) (k : Nat) (b : Byte) :
    ∃ arrived, (s.arrive k b).Shows e x { l with rxq := l.rxq ++ arrived } := by
  have hsame : s.Shows e x { l with rxq := l.rxq ++ [] } := by rwa [List.append_nil]
  unfold State.arrive
  split
  · by_cases hk : s.lineOf e = k
    · subst hk
      exact ⟨[b], h.updLineAt _⟩
    · exact ⟨[], hsame.updLineAt_other _ hk⟩
  · exact ⟨[], hsame⟩

/-- A delivery changes the engine's own request queue at most. -/
theorem State.Shows.deliver (h : s.Shows e x l) (k host : Nat) (m : List Byte) :
    ∃ q, (s.deliver k host m).Shows e { x with reqq := q } l := by
  unfold State.deliver
  split
  · by_cases hk : e = k
    · subst hk
      exact ⟨_, h.updEngineAt _⟩
    · exact ⟨x.reqq, h.updEngineAt_other _ hk⟩
  · exact ⟨x.reqq, h⟩

/-- An expiry leaves the engine as it is where its own is not enabled. -/
theorem State.Shows.expire (h : s.Shows e x l) (k : Nat) (hoff : s.expireEnabled e = false) :
    (s.expire k).Shows e x l := by
  unfold State.expire
  split
  next hon =>
    refine h.updEngineAt_other _ ?_
    rintro rfl
    rw [hoff] at hon
    cases hon
  next => exact h

/-- Neither an incomplete chunk with bytes waiting nor a stopped timer lets `Expire` be enabled (R141). -/
theorem State.Shows.expireEnabled (h : s.Shows e x l) (hoff : x.timer = .running → x.want ≠ 0 → l.rxq ≠ []) :
    s.expireEnabled e = false := by
  rw [State.expireEnabled, h.engine, h.line]
  by_contra hon
  simp only [Bool.not_eq_false, Bool.and_eq_true, beq_iff_eq, bne_iff_ne, List.isEmpty_iff] at hon
  obtain ⟨⟨htimer, hwant⟩, hempty⟩ := hon
  exact hoff htimer hwant hempty

/-- An event R129 allows between the engine's turns is, to the engine and its line, at most a delivery and an
arrival. -/
theorem step_between (hs : s.Shows e x l) (hw : s.Wired) (hengine : s.nextEvent ≠ .engine e)
    (hreset : s.nextEvent ≠ .resetEngine e) (hlines : ∀ k, s.nextEvent = .engine k → s.lineOf k ≠ s.lineOf e)
    (hoff : x.timer = .running → x.want ≠ 0 → l.rxq ≠ []) :
    ∃ t q arrived, step s = .next t ∧ t.Shows e { x with reqq := q } { l with rxq := l.rxq ++ arrived } := by
  have hnothing : ∀ {t : State}, t.Shows e x l → t.Shows e { x with reqq := x.reqq } { l with rxq := l.rxq ++ [] } := by
    intro t ht
    rwa [List.append_nil]
  cases hv : s.nextEvent with
  | deliver k host m =>
    obtain ⟨q, ht⟩ := (hnothing hs.elapse).deliver k host m
    exact ⟨_, q, [], step_deliver hv, ht⟩
  | arrive k b =>
    obtain ⟨arrived, ht⟩ := hs.elapse.arrive k b
    exact ⟨_, x.reqq, arrived, step_arrive hv, ht⟩
  | expire k =>
    have ht := hs.elapse.expire k (hs.elapse.expireEnabled hoff)
    exact ⟨_, x.reqq, [], by rw [step_eq, hv]; rfl, hnothing ht⟩
  | engine k =>
    obtain ⟨t, hstep, ht⟩ := step_otherEngine hs hw hv (fun hk => hengine (hk ▸ hv)) (hlines k hv)
    exact ⟨t, x.reqq, [], hstep, hnothing ht⟩
  | resetEngine k =>
    have ht := hs.elapse.updEngineAt_other (k := k) (fun _ => Engine.reset s.elapse.platform k s.elapse.tick)
      fun hk => hreset (hk ▸ hv)
    exact ⟨_, x.reqq, [], by rw [step_eq, hv]; rfl, hnothing ht⟩

end

/-! ### The RX amid other events -/

/-- No step takes a response back. -/
theorem State.response_keptByWrites (a : Response) : State.KeptByWrites fun s => a ∈ s.responses where
  elapse _ hs := hs
  activate _ _ hs := hs
  engine _ _ _ hs _ := hs
  baud _ _ _ hs _ := hs
  reset _ _ hs := hs
  line _ _ _ hs _ := hs
  lock _ _ hs := hs
  respond s m c hs _ := by
    rcases s.respond_responses m c with h | ⟨host, h⟩ <;> rw [h]
    · exact hs
    · exact List.mem_append_left _ hs

/-- Engine `e` is `turns` turns away from accepting the frame of these fields for `r`, or has accepted it and answered;
behind what is left of the frame its line's `RXQ` holds `behind`. -/
inductive State.Receiving (s : State) (e : Nat) (r : Request) (id cmd opt : Byte) (p behind : List Byte) :
    Nat → Prop where
  | reading {x : Engine} {l : Line} {left : List Byte} {turns : Nat}
      (shows : s.Shows e x { l with rxq := left ++ behind })
      (reading : x.Reading r (frameOf id cmd opt p) left (turns + 1)) : s.Receiving e r id cmd opt p behind (turns + 1)
  | accepted {x : Engine} {l : Line} (shows : s.Shows e x { l with rxq := behind }) (accepted : x.Accepted opt)
      (answered : acceptedResponse e r id cmd opt p ∈ s.responses) : s.Receiving e r id cmd opt p behind 0

section
variable {s : State} {e turns : Nat} {r : Request} {id cmd opt : Byte} {p behind : List Byte}

/-- The engine's own turn takes the RX one turn further. -/
theorem State.Receiving.own (h : s.Receiving e r id cmd opt p behind (turns + 1)) (hr : r.isRx = true)
    (hn : p.length ≤ 247) (hv : s.nextEvent = .engine e) :
    ∃ t, step s = .next t ∧ t.Receiving e r id cmd opt p behind turns := by
  cases h with
  | reading hs hx =>
    cases turns with
    | zero =>
      obtain ⟨t, hstep, ht, hresponses⟩ := step_readingLast hs hx hr hn hv
      refine ⟨t, hstep, .accepted ht ⟨rfl, rfl, rfl, rfl⟩ ?_⟩
      rw [hresponses]
      exact List.mem_append_right _ (List.mem_singleton_self _)
    | succ turns =>
      obtain ⟨hdeclared, hlong⟩ := frameOf_declared id cmd opt hn
      obtain ⟨t, y, left', hstep, ht, -, hy, -⟩ := step_reading hs hx hr hdeclared hlong hv
      exact ⟨t, hstep, .reading ht hy⟩

/-- Any other event of R129 leaves the RX where it is, and puts arrivals behind what waits. -/
theorem State.Receiving.between (h : s.Receiving e r id cmd opt p behind turns) (hn : p.length ≤ 247) (hw : s.Wired)
    (hengine : s.nextEvent ≠ .engine e) (hreset : s.nextEvent ≠ .resetEngine e)
    (hlines : ∀ k, s.nextEvent = .engine k → s.lineOf k ≠ s.lineOf e) :
    ∃ t arrived, step s = .next t ∧ t.Receiving e r id cmd opt p (behind ++ arrived) turns := by
  cases h with
  | @reading x l left turns hs hx =>
    have hoff : x.timer = .running → x.want ≠ 0 → left ++ behind ≠ [] := by
      intro _ hwant hempty
      have hle := hx.want_le (frameOf_declared id cmd opt hn).2.le
      rw [(List.append_eq_nil_iff.1 hempty).1] at hle
      exact hwant (Nat.le_zero.1 hle)
    obtain ⟨t, q, arrived, hstep, ht⟩ := step_between hs hw hengine hreset hlines hoff
    rw [List.append_assoc] at ht
    exact ⟨t, arrived, hstep, .reading ht (hx.with_reqq q)⟩
  | @accepted x l hs hx hanswered =>
    have hoff : x.timer = .running → x.want ≠ 0 → behind ≠ [] := by
      intro htimer
      rw [hx.timer] at htimer
      cases htimer
    obtain ⟨t, q, arrived, hstep, ht⟩ := step_between hs hw hengine hreset hlines hoff
    exact ⟨t, arrived, hstep, .accepted ht ⟨hx.phase, hx.timer, hx.cur, hx.lastStatus⟩
      ((State.response_keptByWrites _).stepped (step_cases hstep) hanswered)⟩

/-- Events that give the engine as many turns as are left bring it to the acceptance, in whatever order they come. -/
theorem run_receiving {events agenda : List Event} (hr : r.isRx = true) (hn : p.length ≤ 247) (hw : s.Wired)
    (h : s.Receiving e r id cmd opt p behind (events.count (.engine e))) (ha : s.agenda = events ++ agenda)
    (hlines : ∀ k, Event.engine k ∈ events → k ≠ e → s.lineOf k ≠ s.lineOf e) (hreset : Event.resetEngine e ∉ events) :
    ∃ t arrived, Host.Core.run Sys2Proof.core events.length s = .next t ∧
      t.Receiving e r id cmd opt p (behind ++ arrived) 0 := by
  induction events generalizing s behind with
  | nil => exact ⟨s, [], rfl, by rwa [List.append_nil]⟩
  | cons ev events ih =>
    have hv : s.nextEvent = ev := State.nextEvent_of_cons ha
    have hfirst : ∃ t arrived, step s = .next t ∧
        t.Receiving e r id cmd opt p (behind ++ arrived) (events.count (.engine e)) := by
      by_cases hown : ev = .engine e
      · subst hown
        rw [List.count_cons_self] at h
        obtain ⟨t, hstep, ht⟩ := h.own hr hn hv
        exact ⟨t, [], hstep, by rwa [List.append_nil]⟩
      · rw [List.count_cons_of_ne hown] at h
        obtain rfl := hv
        exact h.between hn hw hown (fun hk => hreset (hk ▸ List.mem_cons_self))
          fun k hk => hlines k (hk ▸ List.mem_cons_self) fun hke => hown (hke ▸ hk)
    obtain ⟨t, arrived, hstep, ht⟩ := hfirst
    obtain ⟨hleft, -, hplatform⟩ := (step_cases hstep).elapsed
    have hagenda : t.agenda = events ++ agenda := by
      rw [hleft, ha]
      rfl
    obtain ⟨u, arrived', hrun, hu⟩ := ih (stepKeepsWires s t hw hstep) ht hagenda
      (fun k hk hke => by
        rw [State.lineOf_congr hplatform, State.lineOf_congr hplatform]
        exact hlines k (List.mem_cons_of_mem _ hk) hke)
      fun hk => hreset (List.mem_cons_of_mem _ hk)
    rw [List.append_assoc] at hu
    exact ⟨u, arrived ++ arrived', (run_succ _ hstep).trans hrun, hu⟩

end

/-- Settles O30: the first turn starts the RX, and the other events hold as many turns as it has left. -/
theorem rxAcceptsTheFrameAmidOtherSteps : Obligations.RxAcceptsTheFrameAmidOtherSteps := by
  intro s e h rest events agenda id cmd opt p more hw hstart htable hn hq ha hcount hlines hreset
  obtain ⟨t, x, hstep, ht, -, hx, -⟩ := step_startRx hstart htable hq
  obtain ⟨hleft, -, hplatform⟩ := (step_cases hstep).elapsed
  have hagenda : t.agenda = events ++ agenda := by
    rw [hleft, ha]
    rfl
  obtain ⟨u, arrived, hrun, hu⟩ := run_receiving rfl hn (stepKeepsWires s t hw hstep)
    (hcount ▸ State.Receiving.reading ht hx) hagenda
    (fun k hk hke => by
      rw [State.lineOf_congr hplatform, State.lineOf_congr hplatform]
      exact hlines k hk hke) hreset
  have hwhole : Host.Core.run Sys2Proof.core (events.length + 1) s = .next u := (run_succ _ hstep).trans hrun
  obtain ⟨hleft', -, hplatform'⟩ := run_elapsed hwhole
  cases hu with
  | accepted hshows haccepted hanswered =>
    obtain rfl := hshows.engine
    refine ⟨u, arrived, hwhole, hanswered, ?_, haccepted.lastStatus, haccepted.phase, haccepted.cur, ?_⟩
    · rw [← State.lineOf_congr hplatform' e, hshows.line]
    · rw [hleft', ha, List.drop_succ_cons, List.drop_left]

end Sys2Proof.Machine
end

section
/-! PROOFS. The receiver family (42_receiver_rx.md). One equation for each turn of an RX and of its timer, and what the
verdict answers, settle the statements about single turns. A flipped bit breaks the trailer (R150). Every RX ends because
`Engine.receiveRank`, the bytes it may still ask for and where its chunk stands, is raised by no step of the machine and
lowered by the turn it awaits, which the schedule gives (R142, R278). -/

namespace Sys2Proof.Machine

/-! ### The turns of an RX, one equation each (R141, R143, R144) -/

section
variable {s t : State} {e : Nat} {r : Request}

theorem State.AboutToReceive.engine_lt (h : s.AboutToReceive e r) : e < s.engines.length :=
  ((s.wired_iff e).1 h.wired).1

theorem step_takes (h : s.AboutToReceive e r) (hc : (s.engineAt e).chunkReturned = false) {b : Byte}
    {rest : List Byte} (hq : (s.lineAt (s.lineOf e)).rxq = b :: rest) :
    step s = .next ((s.elapse.activate e).rxTake b rest) := by
  rw [step_receive h, State.rxAdvance_take (s := s.elapse.activate e) hc hq]
  rfl

theorem step_waits (h : s.AboutToReceive e r) (hc : (s.engineAt e).chunkReturned = false)
    (hq : (s.lineAt (s.lineOf e)).rxq = []) : step s = .next (s.elapse.activate e) := by
  rw [step_receive h, State.rxAdvance_wait (s := s.elapse.activate e) hc hq]
  rfl

theorem step_firstRemainderChunk (h : s.AboutToReceive e r) (hc : (s.engineAt e).chunkReturned = true)
    (hp : (s.engineAt e).phase = .rxHdr) (ha : (s.engineAt e).acc.length = 6)
    (hl : 6 < declaredLength (s.engineAt e).acc) :
    step s = .next (((s.elapse.activate e).updEngine fun x => { x with phase := .rxBody }).startChunk
      (declaredLength (s.engineAt e).acc - (s.engineAt e).acc.length)) := by
  rw [step_receive h, State.rxAdvance_returned (s := s.elapse.activate e) hc,
    State.chunkDone_remainder (s := s.elapse.activate e) hp ha hl]
  rfl

theorem step_nextRemainderChunk (h : s.AboutToReceive e r) (hc : (s.engineAt e).chunkReturned = true)
    (hp : (s.engineAt e).phase = .rxBody) (ha : (s.engineAt e).acc.length ≠ declaredLength (s.engineAt e).acc)
    (hq : (s.lineAt (s.lineOf e)).rxq ≠ []) :
    step s = .next ((s.elapse.activate e).startChunk
      (declaredLength (s.engineAt e).acc - (s.engineAt e).acc.length)) := by
  have hopen : ¬((s.engineAt e).acc.length = declaredLength (s.engineAt e).acc ∨ (s.elapse.activate e).rxAvail = 0) :=
    fun hover => hover.elim ha fun hempty => hq (List.length_eq_zero_iff.1 hempty)
  rw [step_receive h, State.rxAdvance_returned (s := s.elapse.activate e) hc,
    State.chunkDone_again (s := s.elapse.activate e) hp hopen]
  rfl

/-- Its last turn is the verdict (R145, R146). -/
theorem step_verdict (h : s.AboutToReceive e r) (ho : (s.elapse.activate e).readsOver = true) :
    step s = (s.finished e).verdict.conclude := by
  rw [step_receive h, State.rxAdvance_readsOver ho]
  rfl

theorem step_rejects (h : s.AboutToReceive e r) (ho : (s.elapse.activate e).readsOver = true)
    (hf : frameWellFormedWith (s.engineAt e).table (s.engineAt e).acc = false) :
    step s = .next ((s.finished e).raiseFail (rejectCause (s.engineAt e).acc)) := by
  have heng := State.finished_eng h.wired
  rw [step_verdict h ho, State.verdict_reject (by rw [heng]; exact hf), heng]
  rfl

theorem step_accepts (h : s.AboutToReceive e r) (ho : (s.elapse.activate e).readsOver = true)
    (hf : frameWellFormedWith (s.engineAt e).table (s.engineAt e).acc = true) :
    step s = .next ((s.finished e).acceptFrame (frameId (s.engineAt e).acc) (frameCmd (s.engineAt e).acc)
      (frameOpt (s.engineAt e).acc) (frameParams (s.engineAt e).acc)) := by
  have heng := State.finished_eng h.wired
  rw [step_verdict h ho, State.verdict_accept (by rw [heng]; exact hf),
    RxResult.conclude_accepted (by rw [heng]; exact h.cur) h.isRx, heng]

theorem State.finished_executing (h : s.AboutToReceive e r) : (s.finished e).executing r :=
  ⟨by simpa [State.finished] using h.wired, by rw [State.finished_eng h.wired]; exact h.cur⟩

/-! ### What a turn writes -/

/-- The start of a chunk sets the engine's count and timer (R141, R142). -/
theorem State.startChunk_eng (h : s.active < s.engines.length) (n : Nat) :
    (s.startChunk n).eng = { s.eng with want := n, timer := .running, timerLoad := s.line.timeout } :=
  s.updEngine_eng _ h

theorem State.startChunk_sameElsewhere (h : s.SameElsewhere t) (n : Nat) : s.SameElsewhere (t.startChunk n) :=
  h.updEngine

/-- What a request ends as is the same seen from before a write to its engine. -/
theorem State.Ends.of_updEngine {f : Engine → Engine} {m : List Byte} {c : Option Cause} {y : Engine} {l : Line}
    {held : Bool} (h : (s.updEngine f).Ends t r m c y l held) : s.Ends t r m c y l held where
  elsewhere := s.sameElsewhere_refl.updEngine.trans h.elsewhere
  engine := h.engine
  line := h.line
  lock := h.lock
  response := h.response


theorem State.Ends.engineAt {m : List Byte} {c : Option Cause} {x : Engine} {l : Line} {held : Bool}
    (h : s.Ends t r m c x l held) : t.engineAt s.active = { x with cur := none } := by
  rw [← h.elsewhere.active]
  exact h.engine

/-- A failure at the end of the reads (R146). -/
theorem State.finished_raiseFail_ends (h : s.AboutToReceive e r) (c : Cause) :
    (s.elapse.activate e).Ends ((s.finished e).raiseFail c) r failureMessage (some c)
      { s.engineAt e with phase := .idle, timer := .stopped } (s.lineAt (s.lineOf e)) (s.elapse.activate e).lockHeld := by
  have hfails := State.raiseFail_fails (State.finished_executing h) c
  rw [State.Fails, State.finished_eng h.wired] at hfails
  exact hfails.of_updEngine

/-- An acceptance at the end of the reads answers with the very bytes taken (R145). -/
theorem State.finished_acceptFrame_ends (h : s.AboutToReceive e r)
    (hf : frameWellFormedWith (s.engineAt e).table (s.engineAt e).acc = true) :
    (s.elapse.activate e).Ends
      ((s.finished e).acceptFrame (frameId (s.engineAt e).acc) (frameCmd (s.engineAt e).acc)
        (frameOpt (s.engineAt e).acc) (frameParams (s.engineAt e).acc))
      r (0x01#8 :: byteOf (s.engineAt e).acc.length :: (s.engineAt e).acc) none
      { s.engineAt e with phase := .idle, timer := .stopped, lastStatus := byteAt (s.engineAt e).acc 5 }
      (s.lineAt (s.lineOf e)) (s.elapse.activate e).lockHeld := by
  obtain ⟨hframe, -, -⟩ := frameWith_fields hf
  have heng := State.finished_eng h.wired
  have hends := State.ends_of_engine_line (State.finished_executing h)
    (fun x => { x with lastStatus := frameOpt (s.engineAt e).acc }) (fun l => l)
    (successMessage (framePayload (s.engineAt e).acc)) none (by rw [heng]; exact h.cur)
  rw [State.updLine_id, heng] at hends
  rw [State.acceptFrame, heng, hframe]
  exact hends.of_updEngine

/-! ### The timer (R141) -/

theorem State.expireEnabled_iff (s : State) (e : Nat) : s.expireEnabled e = true ↔
    (s.engineAt e).timer = .running ∧ (s.engineAt e).want ≠ 0 ∧ (s.lineAt (s.lineOf e)).rxq = [] := by
  simp [State.expireEnabled, and_assoc]

theorem State.expire_of_enabled (h : s.expireEnabled e = true) :
    s.expire e = s.updEngineAt e fun x => { x with timer := .expired } :=
  if_pos h

theorem State.expire_of_disabled (h : s.expireEnabled e = false) : s.expire e = s :=
  if_neg (by rw [h]; exact Bool.false_ne_true)

theorem step_expire (h : s.nextEvent = .expire e) : step s = .next (s.elapse.expire e) := by
  rw [step_eq, h]; rfl

end

/-! ### The obligations about single turns -/

/-- Settles O23: the start is two writes to the engine of the step. -/
theorem rxStartsItsHeaderChunk : Obligations.RxStartsItsHeaderChunk := by
  refine ⟨rfl, fun s r h => ?_⟩
  obtain ⟨he, -, -⟩ := State.executing_wired h
  refine ⟨_, rfl, State.startChunk_sameElsewhere s.sameElsewhere_refl.updEngine _, ?_, rfl, rfl, rfl⟩
  rw [State.startChunk_eng (by simpa using he), State.updEngine_eng _ _ he]
  rfl

/-- Settles O24, by whether a byte waits. -/
theorem receiverTakesOneByteOrWaits : Obligations.ReceiverTakesOneByteOrWaits := by
  intro s e r h hc
  obtain ⟨he, hl, -⟩ := (s.wired_iff e).1 h.wired
  split
  next hq => exact step_waits h hc hq
  next b rest hq =>
    refine ⟨_, step_takes h hc hq, (State.sameElsewhere_refl _).updEngine.updLine, ?_, ?_, rfl, rfl⟩
    · exact (s.elapse.activate e).updEngine_eng _ he
    · exact State.updLine_line _ _ hl

/-- Settles O25: the expiry is a write to one engine where it is enabled, and nothing where it is not. -/
theorem expireOnlyWhenEnabled : Obligations.ExpireOnlyWhenEnabled := by
  intro s e hv he
  refine ⟨_, step_expire hv, ?_⟩
  split
  next hon =>
    rw [State.expire_of_enabled ((s.elapse.expireEnabled_iff e).2 hon)]
    exact ⟨s.elapse.updEngineAt_restore e _, fun k hk => s.elapse.updEngineAt_engines_other _ hk,
      s.elapse.updEngineAt_engineAt_same e _ he⟩
  next hoff =>
    rw [State.expire_of_disabled (Bool.eq_false_iff.2 fun hon => hoff ((s.elapse.expireEnabled_iff e).1 hon))]
    exact ⟨rfl, fun _ _ => rfl, rfl⟩

/-- Fewer than 8 bytes are no well-formed frame (R90). -/
theorem frameWellFormedWith_of_short (table : List Word16) {f : List Byte} (h : f.length < 8) :
    frameWellFormedWith table f = false := by
  simp [frameWellFormedWith, Config.minFrame, h]

/-- Settles O26: a header that is whole and declares more starts the remainder; any other ends the reads on bytes too few
for a frame. -/
theorem headerDecidesTheRemainder : Obligations.HeaderDecidesTheRemainder := by
  intro s e r h hc hp hacc
  split
  next hwhole =>
    have he : (s.elapse.activate e).active < (s.elapse.activate e).engines.length := h.engine_lt
    refine ⟨_, step_firstRemainderChunk h hc hp hwhole.1 hwhole.2,
      State.startChunk_sameElsewhere (State.sameElsewhere_refl _).updEngine _, ?_, rfl, rfl, rfl⟩
    rw [State.startChunk_eng (by simpa using he), State.updEngine_eng _ _ he, hwhole.1]
    rfl
  next hnot =>
    have hover : (s.elapse.activate e).readsOver = true := by
      refine State.readsOver_of_finish (s := s.elapse.activate e) h.phase hc (fun hwhole => hnot hwhole.2) ?_
      rintro ⟨hbody, -⟩
      exact absurd (hp.symm.trans hbody) (by decide)
    exact ⟨_, step_rejects h hover (frameWellFormedWith_of_short _ (by omega)), _,
      State.finished_raiseFail_ends h _⟩

/-- Settles O27: the next chunk asks for the rest of the frame. -/
theorem remainderReadsOnWhileBytesWait : Obligations.RemainderReadsOnWhileBytesWait := by
  intro s e r h hc hp hacc hq
  exact ⟨_, step_nextRemainderChunk h hc hp hacc hq,
    State.startChunk_sameElsewhere (State.sameElsewhere_refl _) _,
    State.startChunk_eng (s := s.elapse.activate e) h.engine_lt _, rfl, rfl, rfl⟩

/-- Settles O28, by whether the bytes taken are well formed over the engine's table. -/
theorem rxAcceptsExactlyWellFormedFrames : Obligations.RxAcceptsExactlyWellFormedFrames := by
  intro s e r h ho ht
  rw [frameWellFormed, ← ht]
  split
  next hf => exact ⟨_, step_accepts h ho hf, State.finished_acceptFrame_ends h hf⟩
  next hf => exact ⟨_, step_rejects h ho (Bool.eq_false_iff.2 hf), State.finished_raiseFail_ends h _⟩

/-! ### A silent line (R140) -/

section
variable {s : State} {e : Nat}

/-- The turn that starts an RX writes its own engine alone. -/
theorem step_startsHeader {h : Nat} {rest : List Request} (ha : s.AboutToStart e ⟨h, [0x03#8]⟩ rest) :
    ∃ t, step s = .next t ∧
      t.Shows e { s.engineAt e with reqq := rest, cur := some ⟨h, [0x03#8]⟩, phase := .rxHdr, acc := [], want := 6,
                                    timer := .running, timerLoad := (s.lineAt (s.lineOf e)).timeout }
        (s.lineAt (s.lineOf e)) ∧
      t.lines = s.lines ∧ t.locks = s.locks ∧ t.responses = s.responses := by
  have hshows : s.Shows e (s.engineAt e) (s.lineAt (s.lineOf e)) := ⟨ha.wired, rfl, rfl⟩
  have hstarted := ((hshows.turn.updEngineAt fun x => { x with reqq := rest, cur := some ⟨h, [0x03#8]⟩ }).updEngineAt
    fun x => { x with phase := .rxHdr, acc := [] }).updEngineAt
      fun x => { x with want := 6, timer := .running, timerLoad := (s.lineAt (s.lineOf e)).timeout }
  refine ⟨_, ?_, hstarted, rfl, rfl, rfl⟩
  rw [step_start ha, State.dispatch_ok (i := .rx) rfl]
  rfl

/-- The expiry of an enabled timer writes that timer alone. -/
theorem step_expires {x : Engine} {l : Line} (hs : s.Shows e x l) (hv : s.nextEvent = .expire e)
    (htimer : x.timer = .running) (hwant : x.want ≠ 0) (hq : l.rxq = []) :
    ∃ t, step s = .next t ∧ t.Shows e { x with timer := .expired } l ∧
      t.lines = s.lines ∧ t.locks = s.locks ∧ t.responses = s.responses := by
  have henabled : s.elapse.expireEnabled e = true :=
    (s.elapse.expireEnabled_iff e).2 (by rw [hs.elapse.engine, hs.elapse.line]; exact ⟨htimer, hwant, hq⟩)
  have hstep := step_expire hv
  rw [State.expire_of_enabled henabled] at hstep
  exact ⟨_, hstep, hs.elapse.updEngineAt _, rfl, rfl, rfl⟩

end

/-- Settles O31: the RX starts, its first chunk expires, and the reads end with nothing taken. -/
theorem rxOnSilentLineFails : Obligations.RxOnSilentLineFails := by
  intro s e h rest agenda hstart hq ha
  obtain ⟨t, hstart', ht, htlines, htlocks, htresponses⟩ := step_startsHeader hstart
  have htagenda : t.agenda = .expire e :: .engine e :: agenda := by rw [(step_cases hstart').elapsed.1, ha]; rfl
  obtain ⟨u, hexpire, hu, hulines, hulocks, huresponses⟩ :=
    step_expires ht (State.nextEvent_of_cons htagenda) rfl (Nat.succ_ne_zero 5) hq
  have huagenda : u.agenda = .engine e :: agenda := by rw [(step_cases hexpire).elapsed.1, htagenda]; rfl
  have hreceive : u.AboutToReceive e ⟨h, [0x03#8]⟩ :=
    ⟨State.nextEvent_of_cons huagenda, hu.wired, by simp [hu.engine], by rw [hu.engine], rfl⟩
  have hover : (u.elapse.activate e).readsOver = true := by
    rw [State.readsOver, hu.turn.eng]; rfl
  have hreject := step_rejects hreceive hover (by rw [hu.engine]; rfl)
  have hends := State.finished_raiseFail_ends hreceive (rejectCause (u.engineAt e).acc)
  rw [hu.engine] at hreject hends
  have hengine : (((u.finished e).raiseFail _).engineAt e) = _ := hends.engineAt
  refine ⟨_, (run_succ 2 hstart').trans ((run_succ 1 hexpire).trans (run_succ 0 hreject)), ?_, ?_, ?_, ?_⟩
  · rw [hends.response]
    exact congrArg (· ++ _) (huresponses.trans htresponses)
  · exact (State.respond_lines _ _ _).trans (hulines.trans htlines)
  · exact (State.respond_locks _ _ _).trans (hulocks.trans htlocks)
  · rw [hengine]
    exact ⟨rfl, rfl, rfl, rfl⟩

/-! ### A flipped bit (R150) -/

/-- The last two bytes of a well-formed frame are the checksum of those before them (R78, R90). -/
theorem trailer_of_wellFormed {table : List Word16} {f : List Byte} (h : frameWellFormedWith table f = true) :
    f.drop (f.length - 2) = bytes16 (checksumWith table (f.take (f.length - 2))) := by
  simp only [frameWellFormedWith, Config.minFrame, Bool.and_eq_true, decide_eq_true_eq] at h
  obtain ⟨⟨⟨hlength, -⟩, -⟩, htrailer⟩ := h
  rw [← beq_iff_eq.1 htrailer, bytes16_le16]
  have hsplit := append_last_two f (by omega)
  exact List.append_cancel_left ((List.take_append_drop _ f).trans hsplit.symm)

theorem bytes16_inj {v w : Word16} (h : bytes16 v = bytes16 w) : v = w := by
  obtain ⟨hlo, hhi⟩ : lo8 v = lo8 w ∧ hi8 v = hi8 w := by simpa [bytes16] using h
  rw [← le16_lo8_hi8 v, hlo, hhi, le16_lo8_hi8]

/-- A change of one byte before the trailer changes the checksum and not the trailer; one in the trailer changes the
trailer and not the checksum. -/
theorem not_wellFormed_of_modify {f : List Byte} {k : Nat} {g : Byte → Byte} (hf : frameWellFormed f = true)
    (hk : k < f.length) (hg : ∀ b, g b ≠ b) : frameWellFormed (f.modify k g) = false := by
  refine Bool.eq_false_iff.2 fun hmodified => ?_
  have hold := trailer_of_wellFormed hf
  have hnew := trailer_of_wellFormed hmodified
  rw [List.length_modify, List.take_modify] at hnew
  by_cases hhead : k < f.length - 2
  · rw [List.drop_modify_of_lt _ _ _ _ hhead, hold] at hnew
    exact foldl_crcUpdate_modify_ne hg (by simp; omega) Config.crcSeed (bytes16_inj hnew).symm
  · rw [List.modify_eq_self (l := f.take _) (by simp; omega), ← hold] at hnew
    have hsame : f.modify k g = f := by
      rw [← List.take_append_drop (f.length - 2) (f.modify k g), hnew, List.take_modify,
        List.modify_eq_self (by simp; omega), List.take_append_drop]
    have hbyte := congrArg (fun s => s[k]?) hsame
    simp [hk, hg] at hbyte

/-- Settles O34: the flipped byte is another byte. Byte 3 is left out there because a receiver reads as many bytes as it
says (R150); for the bytes themselves it makes no difference. -/
theorem flippedBitIsRejected : Obligations.FlippedBitIsRejected := by
  intro f k j hf hk _ hj
  exact not_wellFormed_of_modify hf hk fun b => xor_bit_ne b hj

/-! ### A wired machine goes on -/

section
variable {s : State} {e k : Nat}

/-- The turn of an engine that does not exist passes. -/
theorem step_absentEngine (hv : s.nextEvent = .engine k) (hk : s.engines.length ≤ k) : step s = .next s.elapse := by
  rw [step_eq, hv]
  exact if_neg (Nat.not_lt.2 hk)

theorem step_resetEngine (hv : s.nextEvent = .resetEngine k) : step s = .next (s.elapse.resetEngine k) := by
  rw [step_eq, hv]; rfl

theorem step_of_wired (hw : s.Wired) : ∃ t, step s = .next t := by
  cases hv : s.nextEvent with
  | deliver k host m => exact ⟨_, step_deliver hv⟩
  | arrive l b => exact ⟨_, step_arrive hv⟩
  | expire k => exact ⟨_, step_expire hv⟩
  | resetEngine k => exact ⟨_, step_resetEngine hv⟩
  | engine k =>
    by_cases hk : k < s.engines.length
    · obtain ⟨t, hmove, -⟩ := (s.elapse.activate k).engineMove_sameElsewhere
      exact ⟨t, (step_engine hv (hw.wired k hk)).trans hmove⟩
    · exact ⟨_, step_absentEngine hv (Nat.not_lt.1 hk)⟩

theorem run_of_wired (n : Nat) (hw : s.Wired) : ∃ t, Host.Core.run Sys2Proof.core n s = .next t ∧ t.Wired := by
  induction n generalizing s with
  | zero => exact ⟨s, rfl, hw⟩
  | succ n ih =>
    obtain ⟨t, hstep⟩ := step_of_wired hw
    obtain ⟨u, hrun, hu⟩ := ih (stepKeepsWires s t hw hstep)
    exact ⟨u, (run_succ n hstep).trans hrun, hu⟩

end

/-- Settles O32: the schedule gives the timer its turn, at which it expires if it is still enabled. -/
theorem enabledExpireComesAbout : Obligations.EnabledExpireComesAbout := by
  intro s e hw he
  obtain ⟨k, -, hturn⟩ := timer_turn s e
  obtain ⟨t, hrun, htw⟩ := run_of_wired k hw
  obtain ⟨-, -, hplatform⟩ := run_elapsed hrun
  have het : e < t.engines.length := by rwa [htw.engines, hplatform, ← hw.engines]
  have hv := hturn t hrun
  refine ⟨k, t, _, hrun, step_expire hv, fun hon => ⟨hv, ?_⟩⟩
  rw [State.expire_of_enabled (s := t.elapse) hon, t.elapse.updEngineAt_engineAt_same e _ het]

/-! ### An engine in an RX, and how far it is from the end -/

/-- Engine `x` executes the RX `r`, its timer is not stopped, and what it has taken and still wants make up the header,
or, after a whole header, the frame: `ReceiverFits` outside the idle phase. -/
structure Engine.InRx (x : Engine) (r : Request) : Prop where
  cur : x.cur = some r
  isRx : r.isRx = true
  timer : x.timer ≠ .stopped
  stage : (x.phase = .rxHdr ∧ x.acc.length + x.want = 6) ∨
    (x.phase = .rxBody ∧ 6 ≤ x.acc.length ∧ x.acc.length + x.want = declaredLength x.acc)

/-- The bytes an RX may still ask for; 255 stands for the remainder a header has yet to declare (R73, R144). -/
def Engine.outstanding (x : Engine) : Nat := x.want + if x.phase = .rxHdr then 255 else 0

/-- Where the chunk stands: a byte waits for it (0), it has returned (1), or it waits for a byte or its timer (2). -/
def Engine.chunkStage (x : Engine) (l : Line) : Nat :=
  if x.chunkReturned then 1 else if l.rxq = [] then 2 else 0

/-- How far an RX is from its end: by the bytes outstanding, then by the stage of its chunk. -/
def Engine.receiveRank (x : Engine) (l : Line) : Nat := 3 * x.outstanding + x.chunkStage l

section
variable {x y : Engine} {l l' : Line} {r : Request}

theorem Engine.ReceiverFits.inRx (h : x.ReceiverFits) (hp : x.phase ≠ .idle) (hc : x.cur = some r) : x.InRx r := by
  unfold Engine.ReceiverFits at h
  cases hphase : x.phase with
  | idle => exact absurd hphase hp
  | rxHdr =>
    rw [hphase] at h
    obtain ⟨⟨r', hcur, hrx⟩, htimer, hcount⟩ := h
    obtain rfl : r = r' := Option.some.inj (hc.symm.trans hcur)
    exact ⟨hc, hrx, htimer, .inl ⟨hphase, hcount⟩⟩
  | rxBody =>
    rw [hphase] at h
    obtain ⟨⟨r', hcur, hrx⟩, htimer, hheader, -, hcount⟩ := h
    obtain rfl : r = r' := Option.some.inj (hc.symm.trans hcur)
    exact ⟨hc, hrx, htimer, .inr ⟨hphase, hheader, hcount⟩⟩

theorem Engine.InRx.phase_ne (h : x.InRx r) : x.phase ≠ .idle := by
  rcases h.stage with ⟨hp, -⟩ | ⟨hp, -⟩ <;> simp [hp]

theorem Engine.chunkStage_le (x : Engine) (l : Line) : x.chunkStage l ≤ 2 := by
  unfold Engine.chunkStage; split_ifs <;> decide

theorem Engine.chunkStage_of_returned (h : x.chunkReturned = true) (l : Line) : x.chunkStage l = 1 := if_pos h

theorem Engine.chunkStage_of_byte (h : x.chunkReturned = false) (hq : l.rxq ≠ []) : x.chunkStage l = 0 := by
  simp [Engine.chunkStage, h, hq]

theorem Engine.chunkStage_eq_two_iff : x.chunkStage l = 2 ↔ x.chunkReturned = false ∧ l.rxq = [] := by
  unfold Engine.chunkStage
  split_ifs <;> simp_all

theorem Engine.receiveRank_mod (x : Engine) (l : Line) : x.receiveRank l % 3 = x.chunkStage l := by
  have := x.chunkStage_le l
  unfold Engine.receiveRank
  omega

theorem Engine.receiveRank_lt_of_outstanding (h : y.outstanding < x.outstanding) :
    y.receiveRank l' < x.receiveRank l := by
  have := y.chunkStage_le l'
  unfold Engine.receiveRank
  omega

theorem Engine.receiveRank_lt_of_stage (h : y.outstanding = x.outstanding) (hstage : y.chunkStage l' < x.chunkStage l) :
    y.receiveRank l' < x.receiveRank l := by
  unfold Engine.receiveRank
  omega

/-- Bytes that arrive never raise the rank. -/
theorem Engine.receiveRank_arrived (x : Engine) (l : Line) (arrived : List Byte) :
    x.receiveRank { l with rxq := l.rxq ++ arrived } ≤ x.receiveRank l := by
  have : x.chunkStage { l with rxq := l.rxq ++ arrived } ≤ x.chunkStage l := by
    unfold Engine.chunkStage
    split_ifs <;> simp_all
  unfold Engine.receiveRank
  omega

/-! What an RX's own turns and its timer do to its engine. -/

theorem Engine.InRx.with_reqq (h : x.InRx r) (q : List Request) : { x with reqq := q }.InRx r :=
  ⟨h.cur, h.isRx, h.timer, h.stage⟩

theorem Engine.InRx.expired (h : x.InRx r) : { x with timer := .expired }.InRx r :=
  ⟨h.cur, h.isRx, by simp, h.stage⟩

/-- A byte taken counts once, and does not change the length a header has declared. -/
theorem Engine.InRx.taken (h : x.InRx r) (b : Byte) (hw : x.want ≠ 0) :
    { x with acc := x.acc ++ [b], want := x.want - 1 }.InRx r where
  cur := h.cur
  isRx := h.isRx
  timer := h.timer
  stage := by
    simp only [List.length_append, List.length_singleton]
    rcases h.stage with ⟨hp, hcount⟩ | ⟨hp, hheader, hcount⟩
    · exact .inl ⟨hp, by omega⟩
    · exact .inr ⟨hp, by omega, by rw [declaredLength_of_header hheader]; omega⟩

/-- A chunk for the rest of the frame fits a whole header. -/
theorem Engine.InRx.remainder (h : x.InRx r) {p : Phase} (hp : p = .rxBody) (v : Word32) (ha : 6 ≤ x.acc.length)
    (hl : x.acc.length ≤ declaredLength x.acc) :
    { x with phase := p, want := declaredLength x.acc - x.acc.length, timer := .running, timerLoad := v }.InRx r :=
  ⟨h.cur, h.isRx, by simp, .inr ⟨hp, ha, Nat.add_sub_cancel' hl⟩⟩

end

/-! ### An RX in the machine -/

/-- Engine `e` is in the RX `r`, at this rank. -/
structure State.InRx (s : State) (e : Nat) (r : Request) (n : Nat) : Prop where
  wired : s.wired e = true
  engine : (s.engineAt e).InRx r
  rank : (s.engineAt e).receiveRank (s.lineAt (s.lineOf e)) = n

/-- The machine is wired and no other engine drives the line of engine `e`. -/
structure State.DrivesAlone (s : State) (e : Nat) : Prop where
  wired : s.Wired
  others : ∀ k, k < s.engines.length → k ≠ e → s.lineOf k ≠ s.lineOf e

/-- The RX `r` of engine `e` comes to its end: its host is answered, or the engine is reset (R278). -/
def State.RxEnds (s : State) (e : Nat) (r : Request) : Prop :=
  ∃ (k : Nat) (t u : State), Host.Core.run Sys2Proof.core k s = .next t ∧ step t = .next u ∧
    (t.engineAt e).cur = some r ∧
    (t.nextEvent = .resetEngine e ∨
      ∃ m c, u.responses = t.responses ++ [⟨e, r.host, m, c⟩] ∧ (u.engineAt e).phase = .idle)

/-- The turn that brings an RX of this rank nearer to its end: its timer's where its chunk waits with nothing to take,
and else its own. -/
def awaitedTurn (e n : Nat) : Event := if n % 3 = 2 then .expire e else .engine e

section
variable {s t : State} {e n : Nat} {r : Request} {x : Engine} {l : Line}

theorem State.Shows.inRx (hs : s.Shows e x l) (hx : x.InRx r) : s.InRx e r (x.receiveRank l) where
  wired := hs.wired
  engine := hs.engine ▸ hx
  rank := by rw [hs.engine, hs.line]

theorem State.InRx.shows (h : s.InRx e r n) : s.Shows e (s.engineAt e) (s.lineAt (s.lineOf e)) := ⟨h.wired, rfl, rfl⟩

theorem State.InRx.aboutToReceive (h : s.InRx e r n) (hv : s.nextEvent = .engine e) : s.AboutToReceive e r :=
  ⟨hv, h.wired, h.engine.phase_ne, h.engine.cur, h.engine.isRx⟩

theorem State.DrivesAlone.stepped (h : s.DrivesAlone e) (hstep : step s = .next t) : t.DrivesAlone e where
  wired := stepKeepsWires s t h.wired hstep
  others k hk hke := by
    obtain ⟨-, -, hplatform⟩ := (step_cases hstep).elapsed
    obtain ⟨hengines, -, -⟩ := (s.sizes_eq_iff t).1 (step_cases hstep).sizes
    rw [State.lineOf_congr hplatform, State.lineOf_congr hplatform]
    exact h.others k (hengines ▸ hk) hke

/-- What ends after a run ends. -/
theorem State.RxEnds.of_run {j : Nat} (hrun : Host.Core.run Sys2Proof.core j s = .next t) (h : t.RxEnds e r) :
    s.RxEnds e r := by
  obtain ⟨k, u, v, hrun', hend⟩ := h
  exact ⟨j + k, u, v, (run_add k hrun).trans hrun', hend⟩

theorem State.RxEnds.of_step (hstep : step s = .next t) (h : t.RxEnds e r) : s.RxEnds e r :=
  h.of_run (run_succ 0 hstep)

/-- A step that answers the RX is its end. -/
theorem State.RxEnds.of_ends {m : List Byte} {c : Option Cause} {held : Bool} (ha : s.AboutToReceive e r)
    (hstep : step s = .next t) (hends : (s.elapse.activate e).Ends t r m c x l held) (hx : x.phase = .idle) :
    s.RxEnds e r :=
  ⟨0, s, t, rfl, hstep, ha.cur, .inr ⟨m, c, hends.response, (congrArg Engine.phase hends.engineAt).trans hx⟩⟩

/-- The verdict answers, whatever it is. -/
theorem State.RxEnds.of_readsOver (ha : s.AboutToReceive e r) (ho : (s.elapse.activate e).readsOver = true) :
    s.RxEnds e r := by
  cases hf : frameWellFormedWith (s.engineAt e).table (s.engineAt e).acc with
  | true => exact .of_ends ha (step_accepts ha ho hf) (State.finished_acceptFrame_ends ha hf) rfl
  | false => exact .of_ends ha (step_rejects ha ho hf) (State.finished_raiseFail_ends ha _) rfl

/-- A reset is an end too. -/
theorem State.RxEnds.of_reset (h : s.InRx e r n) (hv : s.nextEvent = .resetEngine e) : s.RxEnds e r :=
  ⟨0, s, _, rfl, step_resetEngine hv, h.engine.cur, .inl hv⟩

/-! ### No step takes an RX further from its end, and the awaited turn takes it nearer -/

/-- A whole header that declares more leaves less than 255 bytes outstanding. -/
theorem State.InRx.header (h : s.InRx e r n) (hv : s.nextEvent = .engine e) (hc : (s.engineAt e).chunkReturned = true)
    (hp : (s.engineAt e).phase = .rxHdr) (hacc : (s.engineAt e).acc.length = 6)
    (hlong : 6 < declaredLength (s.engineAt e).acc) : ∃ t m, step s = .next t ∧ t.InRx e r m ∧ m < n := by
  have hremainder := (h.shows.turn.updEngineAt fun x => { x with phase := .rxBody }).updEngineAt fun x =>
    { x with want := declaredLength (s.engineAt e).acc - (s.engineAt e).acc.length, timer := .running,
             timerLoad := (s.lineAt (s.lineOf e)).timeout }
  obtain rfl := h.rank
  refine ⟨_, _, step_firstRemainderChunk (h.aboutToReceive hv) hc hp hacc hlong,
    hremainder.inRx (h.engine.remainder rfl _ hacc.ge (by omega)), Engine.receiveRank_lt_of_outstanding ?_⟩
  have hbyte : declaredLength (s.engineAt e).acc < 256 := (byteAt (s.engineAt e).acc 3).isLt
  simp only [Engine.outstanding, hp, reduceCtorEq, if_true, if_false]
  omega

/-- Another chunk of the remainder wants the same bytes, and finds one waiting. -/
theorem State.InRx.again (h : s.InRx e r n) (hv : s.nextEvent = .engine e) (hc : (s.engineAt e).chunkReturned = true)
    (hp : (s.engineAt e).phase = .rxBody) (hacc : (s.engineAt e).acc.length ≠ declaredLength (s.engineAt e).acc)
    (hq : (s.lineAt (s.lineOf e)).rxq ≠ []) : ∃ t m, step s = .next t ∧ t.InRx e r m ∧ m < n := by
  obtain ⟨hheader, hcount⟩ : 6 ≤ (s.engineAt e).acc.length ∧
      (s.engineAt e).acc.length + (s.engineAt e).want = declaredLength (s.engineAt e).acc := by
    rcases h.engine.stage with ⟨hp', -⟩ | ⟨-, hstage⟩
    · rw [hp] at hp'; cases hp'
    · exact hstage
  have hwant : declaredLength (s.engineAt e).acc - (s.engineAt e).acc.length = (s.engineAt e).want := by omega
  have hagain := h.shows.turn.updEngineAt fun x =>
    { x with want := declaredLength (s.engineAt e).acc - (s.engineAt e).acc.length, timer := .running,
             timerLoad := (s.lineAt (s.lineOf e)).timeout }
  obtain rfl := h.rank
  refine ⟨_, _, step_nextRemainderChunk (h.aboutToReceive hv) hc hp hacc hq,
    hagain.inRx (h.engine.remainder hp _ hheader (by omega)),
    Engine.receiveRank_lt_of_stage (congrArg (· + _) hwant) ?_⟩
  rw [Engine.chunkStage_of_returned hc, Engine.chunkStage_of_byte _ hq]
  · exact Nat.one_pos
  · simp [Engine.chunkReturned]
    omega

/-- The engine's own turn with a chunk that has returned: a chunk for the rest of the frame, or the verdict. -/
theorem State.InRx.returned (h : s.InRx e r n) (hv : s.nextEvent = .engine e)
    (hc : (s.engineAt e).chunkReturned = true) :
    s.RxEnds e r ∨ ∃ t m, step s = .next t ∧ t.InRx e r m ∧ m < n := by
  by_cases hheader : (s.engineAt e).phase = .rxHdr ∧ (s.engineAt e).acc.length = 6 ∧
      6 < declaredLength (s.engineAt e).acc
  · obtain ⟨hp, hacc, hlong⟩ := hheader
    exact .inr (h.header hv hc hp hacc hlong)
  by_cases hshort : (s.engineAt e).phase = .rxBody ∧
      (s.engineAt e).acc.length ≠ declaredLength (s.engineAt e).acc ∧ (s.elapse.activate e).rxAvail ≠ 0
  · obtain ⟨hp, hacc, havail⟩ := hshort
    exact .inr (h.again hv hc hp hacc fun hempty => havail (List.length_eq_zero_iff.2 hempty))
  · exact .inl (.of_readsOver (h.aboutToReceive hv)
      (State.readsOver_of_finish (s := s.elapse.activate e) h.engine.phase_ne hc hheader hshort))

/-- The engine's own turn with a chunk that has not returned: it takes a byte, or waits. -/
theorem State.InRx.unreturned (h : s.InRx e r n) (hv : s.nextEvent = .engine e)
    (hc : (s.engineAt e).chunkReturned = false) :
    ∃ t m, step s = .next t ∧ t.InRx e r m ∧ m ≤ n ∧ (n % 3 ≠ 2 → m < n) := by
  have ha := h.aboutToReceive hv
  obtain rfl := h.rank
  cases hq : (s.lineAt (s.lineOf e)).rxq with
  | nil =>
    refine ⟨_, _, step_waits ha hc hq, h.shows.turn.inRx h.engine, le_rfl, fun hstage => absurd ?_ hstage⟩
    rw [Engine.receiveRank_mod, Engine.chunkStage_eq_two_iff]
    exact ⟨hc, hq⟩
  | cons b rest =>
    have hwant : (s.engineAt e).want ≠ 0 := fun hz => by simp [Engine.chunkReturned, hz] at hc
    have htaken := (h.shows.turn.updEngineAt fun x => { x with acc := x.acc ++ [b], want := x.want - 1 }).updLineAt
      fun l => { l with rxq := rest }
    have hlt : Engine.receiveRank { s.engineAt e with acc := (s.engineAt e).acc ++ [b], want := (s.engineAt e).want - 1 }
        { s.lineAt (s.lineOf e) with rxq := rest } < (s.engineAt e).receiveRank (s.lineAt (s.lineOf e)) :=
      Engine.receiveRank_lt_of_outstanding (Nat.add_lt_add_right (Nat.pred_lt hwant) _)
    exact ⟨_, _, step_takes ha hc hq, htaken.inRx (h.engine.taken b hwant), hlt.le, fun _ => hlt⟩

/-- `Expire` is enabled exactly where the timer's turn is awaited. -/
theorem State.InRx.expireEnabled_iff (h : s.InRx e r n) : s.expireEnabled e = true ↔ n % 3 = 2 := by
  obtain ⟨-, hx, rfl⟩ := h
  have htimer := hx.timer
  rw [s.expireEnabled_iff, Engine.receiveRank_mod, Engine.chunkStage_eq_two_iff, Engine.chunkReturned]
  cases hrunning : (s.engineAt e).timer <;> simp_all

/-- The turn of the engine's own timer: a chunk that waits returns. -/
theorem State.InRx.ownExpiry (h : s.InRx e r n) (hv : s.nextEvent = .expire e) :
    ∃ t m, step s = .next t ∧ t.InRx e r m ∧ m ≤ n ∧ (n % 3 = 2 → m < n) := by
  have henabled := h.expireEnabled_iff
  obtain rfl := h.rank
  cases hon : s.expireEnabled e with
  | true =>
    obtain ⟨htimer, hwant, hq⟩ := (s.expireEnabled_iff e).1 hon
    obtain ⟨t, hstep, ht, -⟩ := step_expires h.shows hv htimer hwant hq
    have hwaits := (Engine.receiveRank_mod _ _).symm.trans (henabled.1 hon)
    have hlt : Engine.receiveRank { s.engineAt e with timer := .expired } (s.lineAt (s.lineOf e)) <
        (s.engineAt e).receiveRank (s.lineAt (s.lineOf e)) := by
      refine Engine.receiveRank_lt_of_stage rfl ?_
      rw [Engine.chunkStage_of_returned (by simp [Engine.chunkReturned]), hwaits]
      exact Nat.one_lt_two
    exact ⟨t, _, hstep, ht.inRx h.engine.expired, hlt.le, fun _ => hlt⟩
  | false =>
    refine ⟨_, _, step_expire hv, ?_, le_rfl, fun hstage => ?_⟩
    · rw [State.expire_of_disabled (s := s.elapse) hon]
      exact h.shows.elapse.inRx h.engine
    · rw [henabled.2 hstage] at hon
      cases hon

/-- An expiry of another engine's timer. -/
theorem State.Shows.expire_other {k : Nat} (h : s.Shows e x l) (hk : e ≠ k) : (s.expire k).Shows e x l := by
  unfold State.expire
  split
  · exact h.updEngineAt_other _ hk
  · exact h

/-- Any event that is not the engine's own turn, its timer's turn or its reset. -/
theorem State.InRx.between (h : s.InRx e r n) (ha : s.DrivesAlone e) (hown : s.nextEvent ≠ .engine e)
    (hexpire : s.nextEvent ≠ .expire e) (hreset : s.nextEvent ≠ .resetEngine e) :
    ∃ t m, step s = .next t ∧ t.InRx e r m ∧ m ≤ n := by
  have hs := h.shows.elapse
  have hx := h.engine
  obtain rfl := h.rank
  cases hv : s.nextEvent with
  | deliver k host m =>
    obtain ⟨q, ht⟩ := hs.deliver k host m
    exact ⟨_, _, step_deliver hv, ht.inRx (hx.with_reqq q), le_rfl⟩
  | arrive k b =>
    obtain ⟨arrived, ht⟩ := hs.arrive k b
    exact ⟨_, _, step_arrive hv, ht.inRx hx, Engine.receiveRank_arrived _ _ arrived⟩
  | expire k => exact ⟨_, _, step_expire hv, (hs.expire_other fun hk => hexpire (hk ▸ hv)).inRx hx, le_rfl⟩
  | engine k =>
    have hk : k ≠ e := fun hk => hown (hk ▸ hv)
    by_cases hlt : k < s.engines.length
    · obtain ⟨t, hstep, ht⟩ := step_otherEngine h.shows ha.wired hv hk (ha.others k hlt hk)
      exact ⟨t, _, hstep, ht.inRx hx, le_rfl⟩
    · exact ⟨_, _, step_absentEngine hv (Nat.not_lt.1 hlt), hs.inRx hx, le_rfl⟩
  | resetEngine k =>
    have ht := hs.updEngineAt_other (k := k) (fun _ => Engine.reset s.elapse.platform k s.elapse.tick)
      fun hk => hreset (hk ▸ hv)
    exact ⟨_, _, step_resetEngine hv, ht.inRx hx, le_rfl⟩

/-- A step ends the RX, or takes it no further from its end, and nearer if its turn is the awaited one. -/
theorem State.InRx.stepped (h : s.InRx e r n) (ha : s.DrivesAlone e) :
    s.RxEnds e r ∨ ∃ t m, step s = .next t ∧ t.InRx e r m ∧ m ≤ n ∧ (s.nextEvent = awaitedTurn e n → m < n) := by
  by_cases hreset : s.nextEvent = .resetEngine e
  · exact .inl (.of_reset h hreset)
  by_cases hown : s.nextEvent = .engine e
  · have hawaited : s.nextEvent = awaitedTurn e n → n % 3 ≠ 2 := by
      intro hv hstage
      rw [hown, awaitedTurn, if_pos hstage] at hv
      cases hv
    cases hc : (s.engineAt e).chunkReturned with
    | true =>
      refine (h.returned hown hc).imp_right ?_
      rintro ⟨t, m, hstep, ht, hlt⟩
      exact ⟨t, m, hstep, ht, hlt.le, fun _ => hlt⟩
    | false =>
      obtain ⟨t, m, hstep, ht, hle, hlt⟩ := h.unreturned hown hc
      exact .inr ⟨t, m, hstep, ht, hle, fun hv => hlt (hawaited hv)⟩
  have hawaited : s.nextEvent = awaitedTurn e n → s.nextEvent = .expire e ∧ n % 3 = 2 := by
    intro hv
    unfold awaitedTurn at hv
    split at hv
    next hstage => exact ⟨hv, hstage⟩
    next => exact absurd hv hown
  by_cases hexpire : s.nextEvent = .expire e
  · obtain ⟨t, m, hstep, ht, hle, hlt⟩ := h.ownExpiry hexpire
    exact .inr ⟨t, m, hstep, ht, hle, fun hv => hlt (hawaited hv).2⟩
  · obtain ⟨t, m, hstep, ht, hle⟩ := h.between ha hown hexpire hreset
    exact .inr ⟨t, m, hstep, ht, hle, fun hv => absurd (hawaited hv).1 hexpire⟩

theorem run_inRx (k : Nat) (h : s.InRx e r n) (ha : s.DrivesAlone e) :
    s.RxEnds e r ∨ ∃ t m, Host.Core.run Sys2Proof.core k s = .next t ∧ t.InRx e r m ∧ t.DrivesAlone e ∧ m ≤ n := by
  induction k generalizing s n with
  | zero => exact .inr ⟨s, n, rfl, h, ha, le_rfl⟩
  | succ k ih =>
    rcases h.stepped ha with hend | ⟨t, m, hstep, ht, hm, -⟩
    · exact .inl hend
    · refine (ih ht (ha.stepped hstep)).imp (.of_step hstep) ?_
      rintro ⟨u, m', hrun, hu, hua, hm'⟩
      exact ⟨u, m', (run_succ k hstep).trans hrun, hu, hua, hm'.trans hm⟩

/-- The awaited turn comes (R142, R278). -/
theorem awaitedTurn_comes (s : State) (e n : Nat) :
    ∃ k, ∀ t : State, Host.Core.run Sys2Proof.core k s = .next t → t.nextEvent = awaitedTurn e n := by
  unfold awaitedTurn
  split
  · exact (timer_turn s e).imp fun _ => And.right
  · exact (engine_turn s e).imp fun _ => And.right

/-- By induction on the rank: up to the awaited turn the RX comes no further from its end, and that turn brings it
nearer. -/
theorem State.InRx.ends (h : s.InRx e r n) (ha : s.DrivesAlone e) : s.RxEnds e r := by
  induction n using Nat.strong_induction_on generalizing s with
  | h n ih =>
    obtain ⟨k, hturn⟩ := awaitedTurn_comes s e n
    rcases run_inRx k h ha with hend | ⟨t, m, hrun, ht, hta, hm⟩
    · exact hend
    refine .of_run hrun ?_
    rcases hm.lt_or_eq with hlt | rfl
    · exact ih m hlt ht hta
    rcases ht.stepped hta with hend | ⟨u, m', hstep, hu, -, hlt⟩
    · exact hend
    · exact .of_step hstep (ih m' (hlt (hturn t hrun)) hu (hta.stepped hstep))

end

/-- Settles O33: a receiver that fits and is not idle is in an RX. -/
theorem everyReceiveEnds : Obligations.EveryReceiveEnds := by
  intro s e r hw hfit he hp hc hothers
  have hshows : s.Shows e (s.engineAt e) (s.lineAt (s.lineOf e)) := ⟨hw.wired e he, rfl, rfl⟩
  have hx := (hfit _ (State.engineAt_mem he)).inRx hp hc
  exact (hshows.inRx hx).ends ⟨hw, hothers⟩

end Sys2Proof.Machine
end

section
/-! PROOFS. The control family (43_control.md). A step runs the request it starts, or answers `00` to a message that
decodes to none (R178, R179). Each configuration, status, lock and queue request then ends in one of three ways: it
answers from the state and writes nothing, it fails and writes nothing, or it writes its engine and line, or its lock,
and succeeds. -/

namespace Sys2Proof.Machine

/-! ### The request a step starts (R178, R179) -/

/-- A request's instruction and the row it carries have one meaning (R85; log 14). -/
theorem exec_carried_request {s : State} {r : Request} {i : Instr} (hc : s.eng.cur = some r)
    (hd : decodeRequest r.message = .ok i) : exec i.carried s = exec i s := by
  cases i with
  | tx id cmd opt params => rw [exec_carried_tx hc (Request.isRx_of_tx hd), exec_tx]
  | _ => rfl

/-- Settles O5: the step dispatches the message, and the row it carries means the same as the request. -/
theorem stepRunsDecodedRequest : Obligations.StepRunsDecodedRequest := by
  intro s e r rest i h hd
  obtain ⟨-, hc⟩ := State.begun_executing h
  rw [step_start h, State.dispatch_ok hd]
  exact exec_carried_request hc hd

/-- Opcode `0x00` and those from `0x0D` are reserved (R83). -/
theorem requestLength_reserved {op : Byte} {rest : List Byte} (h : op.toNat = 0 ∨ 13 ≤ op.toNat) :
    requestLength (op :: rest) = none := by
  have hop : (byteAt (op :: rest) 0).toNat = op.toNat := rfl
  unfold requestLength
  split
  case h_13 => rfl
  all_goals omega

/-- A message without the length of its opcode decodes to nothing (R82, R83). -/
theorem decodeRequest_error_of_length {m : List Byte} (h : requestLength m ≠ some m.length) :
    ∃ x, decodeRequest m = .error x := by
  cases hd : decodeRequest m with
  | error x => exact ⟨x, rfl⟩
  | ok i =>
    obtain ⟨-, hn, -⟩ := decodeRequest_ok_iff.1 hd
    exact absurd hn h

/-- Settles O7: a message without its opcode's length does not decode, so its dispatch fails it. -/
theorem illegalRequestAnswersZero : Obligations.IllegalRequestAnswersZero := by
  refine ⟨fun _ _ h => requestLength_reserved h, fun s e r rest h hn => ?_⟩
  obtain ⟨x, hx⟩ := decodeRequest_error_of_length hn
  exact ⟨_, (step_start h).trans (State.dispatch_error hx),
    State.raiseFail_fails (State.begun_executing h) .illegalRequest⟩

/-! ### The configuration (R170 to R173) -/

/-- A success that wrote its engine and its line, of a request that has no result bytes. -/
theorem State.succeed_ends_of_engine_line {s : State} {r : Request} (h : s.executing r) (f : Engine → Engine)
    (g : Line → Line) (hf : (f s.eng).cur = s.eng.cur) :
    s.Ends (((s.updEngine f).updLine g).succeed []) r [0x01#8] none (f s.eng) (g s.line) s.lockHeld :=
  State.ends_of_engine_line h f g [0x01#8] none (hf.trans h.2)

theorem exec_setBaud_of_le {idx : Byte} (h : idx.toNat ≤ 7) (s : State) :
    exec (.setBaud idx) s = .next (((s.updEngine fun e => { e with cfgBaudIdx := idx }).updLine
      fun l => { l with baudIdx := idx.setWidth 3 }).succeed []) := if_pos h

theorem exec_setBaud_of_gt {idx : Byte} (h : ¬ idx.toNat ≤ 7) (s : State) :
    exec (.setBaud idx) s = .next (s.raiseFail .validation) := if_neg h

theorem exec_setTmo (v : Word32) (s : State) :
    exec (.setTmo v) s = .next (((s.updEngine fun e => { e with cfgTimeout := v }).updLine
      fun l => { l with timeout := v }).succeed []) := rfl

theorem exec_getBaud (s : State) : exec .getBaud s = .next (s.succeed [s.eng.cfgBaudIdx]) := rfl

theorem exec_getTmo (s : State) : exec .getTmo s = .next (s.succeed (bytes32 s.eng.cfgTimeout)) := rfl

/-- Settles O36, by whether the index is legal; a line holds the low three bits of a legal one (R28). -/
theorem setbaudFollowsItsRule : Obligations.SetbaudFollowsItsRule := by
  refine ⟨rfl, fun idx => decodeRequest_encode (i := .setBaud idx) rfl rfl, fun s r idx h => ?_⟩
  split
  next hle =>
    refine ⟨_, exec_setBaud_of_le hle s, ?_⟩
    rw [BitVec.setWidth_eq_extractLsb' (by decide)]
    exact State.succeed_ends_of_engine_line h (fun e => { e with cfgBaudIdx := idx })
      (fun l => { l with baudIdx := idx.extractLsb' 0 3 }) rfl
  next hgt => exact ⟨_, exec_setBaud_of_gt hgt s, State.raiseFail_fails h .validation⟩

/-- Settles O37: the value is written to engine and line without a check. -/
theorem settmoFollowsItsRule : Obligations.SettmoFollowsItsRule := by
  refine ⟨fun v => decodeRequest_encode (i := .setTmo v) rfl rfl, fun s r v h => ?_⟩
  exact ⟨_, exec_setTmo v s, State.succeed_ends_of_engine_line h (fun e => { e with cfgTimeout := v })
    (fun l => { l with timeout := v }) rfl⟩

/-- Settles O38: the answer is the engine's copy, one of those `BaudReserved` speaks of. -/
theorem getbaudAnswersTheIndex : Obligations.GetbaudAnswersTheIndex := by
  refine ⟨decodeRequest_encode (i := .getBaud) rfl rfl, fun s r h => ?_⟩
  obtain ⟨he, -, -⟩ := State.executing_wired h
  exact ⟨_, exec_getBaud s, State.succeed_answers h [s.eng.cfgBaudIdx], fun hs => hs s.eng (State.engineAt_mem he)⟩

/-- Settles O39: the answer is the four bytes of the engine's copy. -/
theorem gettmoAnswersTheTimeout : Obligations.GettmoAnswersTheTimeout :=
  ⟨decodeRequest_encode (i := .getTmo) rfl rfl,
    fun s _ h => ⟨_, exec_getTmo s, State.succeed_answers h (bytes32 s.eng.cfgTimeout)⟩⟩

/-! ### The status (R174) -/

theorem exec_getStat (s : State) : exec .getStat s = .next (s.succeed [s.eng.lastStatus]) := rfl

/-- Settles O40: the answer is the byte the last acceptance cached. -/
theorem getstatAnswersTheStatus : Obligations.GetstatAnswersTheStatus :=
  ⟨decodeRequest_encode (i := .getStat) rfl rfl,
    fun s _ h => ⟨_, exec_getStat s, State.succeed_answers h [s.eng.lastStatus]⟩⟩

/-! ### The lock (R175, R176) -/

/-- A success that wrote its lock, of a request that has no result bytes. -/
theorem State.succeed_ends_of_lock {s : State} {r : Request} (h : s.executing r) (held : Bool) :
    s.Ends ((s.setLock held).succeed []) r [0x01#8] none s.eng s.line held := by
  have hends := State.ends_of_writes h (fun e => e) (fun l => l) held [0x01#8] none h.2
  rwa [State.updEngine_id, State.updLine_id] at hends

theorem exec_lockTry_of_held {s : State} (h : s.lockHeld = true) :
    exec .lockTry s = .next (s.raiseFail .lockBusy) := if_pos h

theorem exec_lockTry_of_free {s : State} (h : ¬ s.lockHeld = true) :
    exec .lockTry s = .next ((s.setLock true).succeed []) := if_neg h

theorem exec_unlock_of_held {s : State} (h : s.lockHeld = true) :
    exec .unlock s = .next ((s.setLock false).succeed []) := if_pos h

theorem exec_unlock_of_free {s : State} (h : ¬ s.lockHeld = true) :
    exec .unlock s = .next (s.raiseFail .lockFree) := if_neg h

/-- Settles O41, by whether the lock is held. -/
theorem locktryTakesAFreeLock : Obligations.LocktryTakesAFreeLock := by
  refine ⟨decodeRequest_encode (i := .lockTry) rfl rfl, fun s r h => ?_⟩
  split
  next hheld => exact ⟨_, exec_lockTry_of_held hheld, State.raiseFail_fails h .lockBusy⟩
  next hfree => exact ⟨_, exec_lockTry_of_free hfree, State.succeed_ends_of_lock h true⟩

/-- Settles O42, by whether the lock is held. -/
theorem unlockFreesAHeldLock : Obligations.UnlockFreesAHeldLock := by
  refine ⟨decodeRequest_encode (i := .unlock) rfl rfl, fun s r h => ?_⟩
  split
  next hheld => exact ⟨_, exec_unlock_of_held hheld, State.succeed_ends_of_lock h false⟩
  next hfree => exact ⟨_, exec_unlock_of_free hfree, State.raiseFail_fails h .lockFree⟩

/-! ### The receive queue (R177) -/

theorem exec_rxAvail (s : State) :
    exec .rxAvail s = .next (s.succeed (bytes16 (wordOf (min s.rxAvail 0xFFFF)))) := rfl

/-- Settles O43: the count is saturated before it is cut to its two bytes. -/
theorem rxavailAnswersTheCount : Obligations.RxavailAnswersTheCount := by
  refine ⟨decodeRequest_encode (i := .rxAvail) rfl rfl, fun s r h => ?_⟩
  exact ⟨_, wordOf (min s.rxAvail 0xFFFF), exec_rxAvail s, rfl, State.succeed_answers h _⟩

end Sys2Proof.Machine
end

section
/-! PROOFS. The wire command family (44_wire_commands.md). An acknowledgement code is its request code with 0x80 added
as bytes, and adding 0x80 to a byte flips its top bit, so the formula's three forms are one (R212). -/

namespace Sys2Proof.Machine

/-- R212 over the listed pairs of R211; SystemInit lists none (R210). -/
theorem WireCommand.eq_code_add_of_ack {c : WireCommand} {k : Byte} (h : c.ack = some k) : k = c.code + 0x80#8 := by
  cases c with
  | systemInit => cases h
  | _ => cases h; rfl

/-- 0x80 is its own negative modulo 256. -/
theorem add_topBit_eq_sub (b : Byte) : b + 0x80#8 = b - 0x80#8 := by
  have hneg : -0x80#8 = 0x80#8 := rfl
  rw [BitVec.sub_eq_add_neg, hneg]

/-- The carry out of the top bit is lost; true of every byte, not only of the codes from 0x80 that R212 names. -/
theorem add_topBit_eq_xor : ∀ b : Byte, b + 0x80#8 = b ^^^ 0x80#8 := by decide

/-- Settles O60: the byte sum of each listed pair, read in the formula's three forms. -/
theorem ackCodesFollowTheFormula : Obligations.AckCodesFollowTheFormula := by
  intro c k h
  obtain rfl := WireCommand.eq_code_add_of_ack h
  exact ⟨BitVec.toNat_add c.code 0x80#8, add_topBit_eq_sub c.code, add_topBit_eq_xor c.code⟩

end Sys2Proof.Machine
end

section
/-! PROOFS. The exceptions family (60_exceptions.md). A wired machine goes on (`step_of_wired`), and the turn of an
engine that is idle and has nothing to start passes. -/

namespace Sys2Proof.Machine

/-! ### No step stops (R231, R234) -/

/-- Settles O56: the moves of a wired engine all go on, and no other agent can stop. -/
theorem wiredMachineNeverStops : Obligations.WiredMachineNeverStops := fun _ hw => step_of_wired hw

/-! ### The idle engine (R241) -/

/-- No request waits to be started, and no RX is in progress to go on with. -/
theorem State.engineMove_rest {s : State} (hp : s.eng.phase = .idle) (hq : s.eng.reqq = []) :
    s.engineMove = .next s := by
  rcases s.engineMove_cases with ⟨-, -, hrest⟩ | ⟨r, rest, -, -, hstart, -⟩ | ⟨hrx, -⟩
  · exact hrest
  · exact absurd (hq.symm.trans hstart) (List.cons_ne_nil r rest).symm
  · exact absurd hp hrx

/-- Settles O9: the step is the engine's move in the state of its turn, and that move changes nothing. -/
theorem idleEngineTakesNoStep : Obligations.IdleEngineTakesNoStep := fun _ _ hv hw hp hq =>
  (step_engine hv hw).trans (State.engineMove_rest hp hq)

end Sys2Proof.Machine
end

section
/-! PROOFS. The reset family (70_reset_and_hazards.md): an engine's own reset (R264), and the values after reset of the
whole machine (R260). -/

namespace Sys2Proof.Machine

/-! ### One engine is reset (R264) -/

/-- The engine that is reset holds its reset values, `LAST_STATUS` one the spec leaves free (R25, R260). -/
theorem State.resetEngine_engineAt_same (s : State) {e : Nat} (he : e < s.engines.length) :
    (s.resetEngine e).engineAt e = Engine.reset s.platform e s.tick :=
  s.updEngineAt_engineAt_same e _ he

/-- Settles O46: the reset is a write to one engine, made in the state in which the event happens. -/
theorem engineResetLeavesLineAndLock : Obligations.EngineResetLeavesLineAndLock := by
  intro s e hv he
  refine ⟨s.elapse.resetEngine e, Config.freeStatus e s.elapse.tick, step_resetEngine hv, ?restored, ?others, ?reset⟩
  case restored => exact s.elapse.updEngineAt_restore e _
  case others => exact fun k hk => s.elapse.updEngineAt_engines_other _ hk
  case reset => exact s.elapse.resetEngine_engineAt_same he

/-! ### The whole machine is reset (R260) -/

/-- As many engines as the platform wires. -/
@[simp] theorem State.resetOn_engines_length (p : Platform) : (State.resetOn p).engines.length = p.wiring.length := by
  simp [State.resetOn]

theorem State.eq_reset_of_mem_resetOn_engines {p : Platform} {x : Engine} (hx : x ∈ (State.resetOn p).engines) :
    ∃ number, x = Engine.reset p number 0 := by
  obtain ⟨wire, -, hwire⟩ := List.mem_map.1 hx
  exact ⟨wire.2, hwire.symm⟩

theorem State.eq_reset_of_mem_resetOn_lines {p : Platform} {l : Line} (hl : l ∈ (State.resetOn p).lines) :
    l = Line.reset p :=
  List.eq_of_mem_replicate hl

theorem State.eq_false_of_mem_resetOn_locks {p : Platform} {held : Bool} (hk : held ∈ (State.resetOn p).locks) :
    held = false :=
  List.eq_of_mem_replicate hk

/-- Settles O47: every engine and every line is at its own reset, whose fields are the values of R260, and every lock
is free. -/
theorem resetGivesTheStatedValues : Obligations.ResetGivesTheStatedValues := by
  refine ⟨rfl, fun p => ⟨State.resetOn_engines_length p, ?engines, ?lines, ?locks⟩⟩
  case engines =>
    intro x hx
    obtain ⟨number, rfl⟩ := State.eq_reset_of_mem_resetOn_engines hx
    exact ⟨rfl, rfl, rfl, rfl, rfl, rfl, rfl, rfl, rfl⟩
  case lines =>
    intro l hl
    obtain rfl := State.eq_reset_of_mem_resetOn_lines hl
    exact ⟨rfl, rfl, rfl, rfl⟩
  case locks => exact fun held hk => State.eq_false_of_mem_resetOn_locks hk

end Sys2Proof.Machine
end

section
/-! PROOFS. The statements that join the families. Every request but RX completes where it starts, and an RX that ends
leaves its engine idle; with what an RX's own turns do to its engine, that is the receiver's invariant (R21, R26, R27).
The wire rows each go their own way, written-out words decode because they are encodings, and reset meets the
invariants. -/

namespace Sys2Proof.Machine

/-! ### Requests that complete (R19, R179) -/

/-- Request `r` of `s` has completed in `t`: it is answered, well-formed, and its engine's phase, timer and queue are as
they were. -/
def State.Completes (s t : State) (r : Request) : Prop :=
  ∃ m c x l held, s.Ends t r m c x l held ∧ Response.WellFormed ⟨s.active, r.host, m, c⟩ ∧
    x.phase = s.eng.phase ∧ x.timer = s.eng.timer ∧ x.reqq = s.eng.reqq

section
variable {s : State} {r : Request}

theorem State.succeed_completes (h : s.executing r) (payload : List Byte) : s.Completes (s.succeed payload) r :=
  ⟨_, _, _, _, _, State.succeed_answers h payload, success_wellFormed _ _ _, rfl, rfl, rfl⟩

theorem State.raiseFail_completes (h : s.executing r) (c : Cause) : s.Completes (s.raiseFail c) r :=
  ⟨_, _, _, _, _, State.raiseFail_fails h c, failure_wellFormed _ _ _, rfl, rfl, rfl⟩

/-- A success that wrote its line, and of its engine neither request, phase, timer nor queue. -/
theorem State.succeed_completes_of_engine_line (h : s.executing r) (f : Engine → Engine) (g : Line → Line)
    (payload : List Byte) (hcur : (f s.eng).cur = s.eng.cur) (hphase : (f s.eng).phase = s.eng.phase)
    (htimer : (f s.eng).timer = s.eng.timer) (hreqq : (f s.eng).reqq = s.eng.reqq) :
    s.Completes (((s.updEngine f).updLine g).succeed payload) r :=
  ⟨_, _, _, _, _, State.ends_of_engine_line h f g _ none (hcur.trans h.2), success_wellFormed _ _ _, hphase, htimer,
    hreqq⟩

theorem State.succeed_completes_of_lock (h : s.executing r) (held : Bool) :
    s.Completes ((s.setLock held).succeed []) r :=
  ⟨_, _, _, _, _, State.succeed_ends_of_lock h held, success_wellFormed _ _ [], rfl, rfl, rfl⟩

theorem State.sendFrame_completes (h : s.executing r) (id cmd opt : Byte) (params : List Byte) :
    s.Completes (s.sendFrame id cmd opt params) r := by
  have hsent := State.succeed_completes_of_engine_line h (fun x => x) (fun l =>
    { baudIdx := s.eng.cfgBaudIdx.setWidth 3, timeout := s.eng.cfgTimeout, rxq := [],
      out := l.out ++ [⟨s.lineIx, s.eng.cfgBaudIdx.setWidth 3, frameWith s.eng.table id cmd opt params⟩] })
    (framePayload (frameWith s.eng.table id cmd opt params)) rfl rfl rfl rfl
  rw [State.updEngine_id] at hsent
  rw [State.sendFrame_eq h]
  exact hsent

theorem State.acceptFrame_completes (h : s.executing r) (id cmd opt : Byte) (params : List Byte) :
    s.Completes (s.acceptFrame id cmd opt params) r := by
  have haccepted := State.succeed_completes_of_engine_line h (fun x => { x with lastStatus := opt }) (fun l => l)
    (framePayload (frameWith s.eng.table id cmd opt params)) rfl rfl rfl rfl
  rwa [State.updLine_id] at haccepted

/-- A transmission sends or fails, by its id and count (R120, R124). -/
theorem State.transmit_completes (h : s.executing r) (id cmd opt : Byte) (params : List Byte) :
    s.Completes (s.transmit id cmd opt params) r := by
  by_cases hlegal : (id.toNat ≤ 239 ∨ id = 0xFF#8) ∧ params.length ≤ 247
  · rw [State.transmit_legal cmd opt hlegal.1 hlegal.2]
    exact State.sendFrame_completes h id cmd opt params
  · rw [State.transmit_illegal cmd opt hlegal]
    exact State.raiseFail_completes h .validation

theorem State.carryFrame_completes (h : s.executing r) (id cmd opt : Byte) (params : List Byte) :
    s.Completes (s.carryFrame id cmd opt params) r := by
  cases hr : r.isRx with
  | true =>
    rw [State.carryFrame_rx h.2 hr]
    exact State.acceptFrame_completes h id cmd opt params
  | false =>
    rw [State.carryFrame_tx h.2 hr]
    exact State.transmit_completes h id cmd opt params

/-- Every instruction but RX completes the request it is executed for; the cases left to the end are the wire rows. -/
theorem exec_completes {i : Instr} (h : s.executing r) (hi : i ≠ .rx) :
    ∃ t, exec i s = .next t ∧ s.Completes t r := by
  cases i with
  | rx => exact absurd rfl hi
  | crc data => exact ⟨_, rfl, State.succeed_completes h _⟩
  | tx id cmd opt params => exact ⟨_, exec_tx id cmd opt params s, State.transmit_completes h id cmd opt params⟩
  | setBaud idx =>
    by_cases hidx : idx.toNat ≤ 7
    · exact ⟨_, exec_setBaud_of_le hidx s, State.succeed_completes_of_engine_line h
        (fun x => { x with cfgBaudIdx := idx }) _ [] rfl rfl rfl rfl⟩
    · exact ⟨_, exec_setBaud_of_gt hidx s, State.raiseFail_completes h .validation⟩
  | setTmo v =>
    exact ⟨_, exec_setTmo v s, State.succeed_completes_of_engine_line h
      (fun x => { x with cfgTimeout := v }) _ [] rfl rfl rfl rfl⟩
  | getBaud => exact ⟨_, exec_getBaud s, State.succeed_completes h _⟩
  | getTmo => exact ⟨_, exec_getTmo s, State.succeed_completes h _⟩
  | getStat => exact ⟨_, exec_getStat s, State.succeed_completes h _⟩
  | lockTry =>
    by_cases hheld : s.lockHeld = true
    · exact ⟨_, exec_lockTry_of_held hheld, State.raiseFail_completes h .lockBusy⟩
    · exact ⟨_, exec_lockTry_of_free hheld, State.succeed_completes_of_lock h true⟩
  | unlock =>
    by_cases hheld : s.lockHeld = true
    · exact ⟨_, exec_unlock_of_held hheld, State.succeed_completes_of_lock h false⟩
    · exact ⟨_, exec_unlock_of_free hheld, State.raiseFail_completes h .lockFree⟩
  | rxAvail => exact ⟨_, exec_rxAvail s, State.succeed_completes h _⟩
  | tblRd k => exact ⟨_, rfl, State.succeed_completes h _⟩
  | _ => exact ⟨_, exec_wire rfl s, State.carryFrame_completes h _ _ _ _⟩

end

section
variable {s : State} {e : Nat} {r : Request} {rest : List Request}

/-- The engine that has just started a request. -/
theorem State.begun_eng (h : s.AboutToStart e r rest) :
    (s.begun e r rest).eng = { s.engineAt e with reqq := rest, cur := some r } :=
  (s.elapse.activate e).updEngine_eng _ ((s.wired_iff e).1 h.wired).1

/-- The step that starts any message but that of RX completes it: it fails a message that decodes to nothing, and only
`03` decodes to RX (R81, R178, R179). -/
theorem step_completes (h : s.AboutToStart e r rest) (hm : r.message ≠ [0x03#8]) :
    ∃ t, step s = .next t ∧ (s.begun e r rest).Completes t r := by
  have hx := State.begun_executing h
  cases hd : decodeRequest r.message with
  | error x => exact ⟨_, (step_start h).trans (State.dispatch_error hd), State.raiseFail_completes hx .illegalRequest⟩
  | ok i =>
    have hi : i ≠ .rx := by
      rintro rfl
      exact hm (decodedRequestIsItsEncoding _ _ hd).2.symm
    rw [stepRunsDecodedRequest s e r rest i h hd]
    exact exec_completes hx hi

end

/-- Settles O8: the engine was idle when the request started, and completing it changes neither phase nor queue. -/
theorem otherRequestsCompleteAtOnce : Obligations.OtherRequestsCompleteAtOnce := by
  intro s e r rest h hm
  obtain ⟨t, hstep, m, c, x, l, held, hends, hresponse, hphase, -, hreqq⟩ := step_completes h hm
  rw [State.begun_eng h] at hphase hreqq
  have hengine : t.engineAt e = { x with cur := none } := hends.engineAt
  refine ⟨t, m, c, hstep, hends.response, hresponse, ?_⟩
  rw [hengine]
  exact ⟨hphase.trans h.phase, rfl, hreqq⟩

/-! ### A receiver that fits (R21, R26, R27) -/

section
variable {x : Engine} {r : Request}

/-- An idle engine fits exactly when it executes nothing and its timer is stopped. -/
theorem Engine.receiverFits_iff_of_idle (hp : x.phase = .idle) :
    x.ReceiverFits ↔ x.cur = none ∧ x.timer = .stopped := by
  simp only [Engine.ReceiverFits, hp]

/-- An engine in an RX fits if, in the remainder, its header declares one. -/
theorem Engine.InRx.receiverFits (h : x.InRx r) (hl : x.phase = .rxBody → 6 < declaredLength x.acc) :
    x.ReceiverFits := by
  unfold Engine.ReceiverFits
  rcases h.stage with ⟨hp, hcount⟩ | ⟨hp, hheader, hcount⟩ <;> rw [hp]
  · exact ⟨⟨r, h.cur, h.isRx⟩, h.timer, hcount⟩
  · exact ⟨⟨r, h.cur, h.isRx⟩, h.timer, hheader, hl hp, hcount⟩

/-- An engine that fits and is not idle is in an RX. -/
theorem Engine.ReceiverFits.exists_inRx (h : x.ReceiverFits) (hp : x.phase ≠ .idle) : ∃ r, x.InRx r := by
  have hrx := h.executes_rx hp
  cases hcur : x.cur with
  | none => rw [hcur] at hrx; cases hrx
  | some r => exact ⟨r, h.inRx hp hcur⟩

theorem Engine.ReceiverFits.declares (h : x.ReceiverFits) (hp : x.phase = .rxBody) : 6 < declaredLength x.acc := by
  unfold Engine.ReceiverFits at h
  rw [hp] at h
  obtain ⟨-, -, -, hl, -⟩ := h
  exact hl

theorem Engine.reset_receiverFits (p : Platform) (number tick : Nat) : (Engine.reset p number tick).ReceiverFits :=
  ⟨rfl, rfl⟩

/-- A request that is delivered is no part of it. -/
theorem Engine.ReceiverFits.with_reqq (h : x.ReceiverFits) (q : List Request) : { x with reqq := q }.ReceiverFits := h

/-- Only the timer of an RX runs, and it may expire (R141). -/
theorem Engine.ReceiverFits.expired (h : x.ReceiverFits) (ht : x.timer = .running) :
    { x with timer := .expired }.ReceiverFits := by
  have hp : x.phase ≠ .idle := fun hp =>
    absurd (ht.symm.trans ((Engine.receiverFits_iff_of_idle hp).1 h).2) (by decide)
  obtain ⟨r, hx⟩ := h.exists_inRx hp
  exact hx.expired.receiverFits h.declares

/-- A byte taken into an incomplete chunk leaves the length a header has declared (R141). -/
theorem Engine.ReceiverFits.taken (h : x.ReceiverFits) (hp : x.phase ≠ .idle) (hw : x.want ≠ 0) (b : Byte) :
    { x with acc := x.acc ++ [b], want := x.want - 1 }.ReceiverFits := by
  obtain ⟨r, hx⟩ := h.exists_inRx hp
  refine (hx.taken b hw).receiverFits fun hbody => ?_
  rcases hx.stage with ⟨hheader, -⟩ | ⟨-, hheader, -⟩
  · exact absurd (hheader.symm.trans hbody) (by decide)
  · exact (declaredLength_of_header hheader).symm ▸ h.declares hbody

end

/-! ### The step keeps every receiver fit -/

section
variable {s t : State} {e : Nat} {r : Request} {rest : List Request}

theorem State.ReceiversFit.engineAt (hs : s.ReceiversFit) (hw : s.wired e = true) : (s.engineAt e).ReceiverFits :=
  hs _ (State.engineAt_mem ((s.wired_iff e).1 hw).1)

/-- A write to one engine that makes it fit. -/
theorem State.ReceiversFit.updEngineAt (hs : s.ReceiversFit) (e : Nat) {f : Engine → Engine}
    (hf : (s.engineAt e).ReceiverFits → (f (s.engineAt e)).ReceiverFits) : (s.updEngineAt e f).ReceiversFit :=
  forall_mem_modify e hs fun x hx => by
    obtain rfl : s.engineAt e = x := by simp [State.engineAt, List.getD_eq_getElem?_getD, hx]
    exact hf (hs _ (List.mem_of_getElem? hx))

/-- A turn changes its own engine alone, so it is enough that this one fits. -/
theorem State.ReceiversFit.turn (hs : s.ReceiversFit) (h : (s.elapse.activate e).SameElsewhere t)
    (hx : t.eng.ReceiverFits) : t.ReceiversFit := by
  intro y hy
  obtain ⟨k, hk⟩ := List.mem_iff_getElem?.1 hy
  by_cases hke : k = t.active
  · obtain rfl : t.eng = y := by simp [State.eng, State.engineAt, List.getD_eq_getElem?_getD, ← hke, hk]
    exact hx
  · rw [h.engines k (h.active ▸ hke)] at hk
    exact hs y (List.mem_of_getElem? hk)

/-- A request that ends leaves its engine with none, so idle it fits. -/
theorem State.ReceiversFit.ended (hs : s.ReceiversFit) {m : List Byte} {c : Option Cause} {x : Engine} {l : Line}
    {held : Bool} (hends : (s.elapse.activate e).Ends t r m c x l held) (hp : x.phase = .idle)
    (ht : x.timer = .stopped) : t.ReceiversFit := by
  refine hs.turn hends.elsewhere ?_
  rw [hends.engine]
  exact (Engine.receiverFits_iff_of_idle (x := { x with cur := none }) hp).2 ⟨rfl, ht⟩

/-- A request starts: an RX is then in its header with nothing taken, and any other completes (R140, R179). -/
theorem State.ReceiversFit.started (hs : s.ReceiversFit) (h : s.AboutToStart e r rest) (hstep : step s = .next t) :
    t.ReceiversFit := by
  by_cases hm : r.message = [0x03#8]
  · obtain ⟨hd, hstart⟩ := rxStartsItsHeaderChunk
    obtain ⟨t', hexec, helsewhere, heng, -⟩ := hstart _ r (State.begun_executing h)
    rw [stepRunsDecodedRequest s e r rest .rx h (by rw [hm]; exact hd), hexec] at hstep
    cases hstep
    refine hs.turn ((State.sameElsewhere_refl _).updEngine.trans helsewhere) ?_
    rw [heng, State.begun_eng h]
    exact ⟨⟨r, rfl, beq_iff_eq.2 hm⟩, nofun, rfl⟩
  · obtain ⟨t', hstep', m, c, x, l, held, hends, -, hphase, htimer, -⟩ := step_completes h hm
    rw [hstep'] at hstep
    cases hstep
    rw [State.begun_eng h] at hphase htimer
    exact hs.ended hends.of_updEngine (hphase.trans h.phase)
      (htimer.trans ((Engine.receiverFits_iff_of_idle h.phase).1 (hs.engineAt h.wired)).2)

/-- The reads of an RX end: whatever the verdict, its engine is idle again and its timer stopped (R140). -/
theorem State.ReceiversFit.readsOver (hs : s.ReceiversFit) (h : s.AboutToReceive e r)
    (ho : (s.elapse.activate e).readsOver = true) (hstep : step s = .next t) : t.ReceiversFit := by
  cases hf : frameWellFormedWith (s.engineAt e).table (s.engineAt e).acc with
  | true =>
    rw [step_accepts h ho hf] at hstep
    cases hstep
    exact hs.ended (State.finished_acceptFrame_ends h hf) rfl rfl
  | false =>
    rw [step_rejects h ho hf] at hstep
    cases hstep
    exact hs.ended (State.finished_raiseFail_ends h _) rfl rfl

/-- The turn of an engine that fits and is not idle is that of an RX. -/
theorem State.ReceiversFit.aboutToReceive (hs : s.ReceiversFit) (hv : s.nextEvent = .engine e)
    (hw : s.wired e = true) (hp : (s.engineAt e).phase ≠ .idle) : ∃ r, s.AboutToReceive e r := by
  obtain ⟨r, hx⟩ := (hs.engineAt hw).exists_inRx hp
  exact ⟨r, hv, hw, hp, hx.cur, hx.isRx⟩

/-- An RX takes a byte. -/
theorem State.ReceiversFit.take (hs : s.ReceiversFit) (hp : (s.engineAt e).phase ≠ .idle)
    (hc : (s.engineAt e).chunkReturned = false) (b : Byte) (q : List Byte) :
    ((s.elapse.activate e).rxTake b q).ReceiversFit := by
  have hwant : (s.engineAt e).want ≠ 0 := fun hzero => by simp [Engine.chunkReturned, hzero] at hc
  exact State.ReceiversFit.updEngineAt (s := s.elapse.activate e) hs e fun hx => hx.taken hp hwant b

/-- A whole header that declares more asks for the rest of the frame (R144). -/
theorem State.ReceiversFit.remainder (hs : s.ReceiversFit) (hw : s.wired e = true)
    (hp : (s.engineAt e).phase = .rxHdr) (ha : (s.engineAt e).acc.length = 6)
    (hl : 6 < declaredLength (s.engineAt e).acc) :
    (((s.elapse.activate e).updEngine fun x => { x with phase := .rxBody }).startChunk
      (declaredLength (s.engineAt e).acc - (s.engineAt e).acc.length)).ReceiversFit := by
  have he : (s.elapse.activate e).active < (s.elapse.activate e).engines.length := ((s.wired_iff e).1 hw).1
  obtain ⟨r, hx⟩ := (hs.engineAt hw).exists_inRx (by rw [hp]; decide)
  refine hs.turn (State.sameElsewhere_refl _).updEngine.updEngine ?_
  rw [State.startChunk_eng (by simpa using he), State.updEngine_eng _ _ he]
  exact (hx.remainder rfl _ ha.ge (by omega)).receiverFits fun _ => hl

/-- A frame still incomplete asks for the rest again (R144). -/
theorem State.ReceiversFit.again (hs : s.ReceiversFit) (hw : s.wired e = true)
    (hp : (s.engineAt e).phase = .rxBody) :
    ((s.elapse.activate e).startChunk
      (declaredLength (s.engineAt e).acc - (s.engineAt e).acc.length)).ReceiversFit := by
  have he : (s.elapse.activate e).active < (s.elapse.activate e).engines.length := ((s.wired_iff e).1 hw).1
  have hfits := hs.engineAt hw
  obtain ⟨r, hx⟩ := hfits.exists_inRx (by rw [hp]; decide)
  refine hs.turn (State.sameElsewhere_refl _).updEngine ?_
  rw [State.startChunk_eng he]
  rcases hx.stage with ⟨hheader, -⟩ | ⟨-, hheader, hcount⟩
  · exact absurd (hp.symm.trans hheader) (by decide)
  · exact (hx.remainder hp _ hheader (by omega)).receiverFits fun _ => hfits.declares hp

end

/-- Settles O53: a delivery, an expiry and a reset write one engine; a turn starts a request, goes on with an RX, or
ends it. -/
theorem stepKeepsReceiversFit : Obligations.StepKeepsReceiversFit := by
  intro s t hs hstep
  cases step_cases hstep with
  | deliver e host m hv =>
    unfold State.deliver
    split
    · exact State.ReceiversFit.updEngineAt (s := s.elapse) hs e fun hx => hx.with_reqq _
    · exact hs
  | arrive l b hv =>
    unfold State.arrive
    split <;> exact hs
  | expire e hv =>
    unfold State.expire
    split
    next hon =>
      exact State.ReceiversFit.updEngineAt (s := s.elapse) hs e fun hx =>
        hx.expired ((s.elapse.expireEnabled_iff e).1 hon).1
    next => exact hs
  | reset e hv =>
    exact State.ReceiversFit.updEngineAt (s := s.elapse) hs e fun _ => Engine.reset_receiverFits _ _ _
  | absent e hv he => exact hs
  | rest e hv hw hp hn => exact hs
  | wait e hv hw hp hc hq => exact hs
  | illegal e r q h => exact hs.started h hstep
  | run e r q i h hd t hx => exact hs.started h hstep
  | take e b q hv hw hp hc hq => exact hs.take hp hc b q
  | body e hv hw hp hc ha hl => exact hs.remainder hw hp ha hl
  | again e hv hw hp hc ha hq => exact hs.again hw hp
  | reject e hv hw hp ho c =>
    obtain ⟨r, h⟩ := hs.aboutToReceive hv hw hp
    exact hs.readsOver h ho hstep
  | accept e hv hw hp ho hf t ht =>
    obtain ⟨r, h⟩ := hs.aboutToReceive hv hw hp
    exact hs.readsOver h ho hstep

/-! ### The wire rows (R145, R148; log 14) -/

/-- Settles O20: a request row holds its command's code, and for a request that is no RX any wire row is sent. -/
theorem requestRowsAreSent : Obligations.RequestRowsAreSent := by
  intro c s r id opt p h hr ht hid hn
  exact exec_wire_sends (requestRow_wireFields c id opt p) h hr ht hid hn

/-- Settles O21: an acknowledgement row holds its command's acknowledgement code, and for an RX any wire row is
accepted. -/
theorem ackRowsAreAccepted : Obligations.AckRowsAreAccepted := by
  intro c s r id status p i h hr ht _ hi
  obtain ⟨k, hk, hw⟩ := ackRow_wireFields hi
  obtain ⟨t, hx, haccepts⟩ := exec_wire_accepts hw h hr ht
  exact ⟨t, k, hx, hk, haccepts⟩

/-- Settles O6: bytes that decode to a wire row are a well-formed frame, so the step accepts them, which is what the row
means for an RX. -/
theorem stepRunsDecodedFrame : Obligations.StepRunsDecodedFrame := by
  intro s e r i h ho ht hd
  obtain ⟨hf, hi⟩ := decodeFrame_ok_iff.1 hd
  rw [frameWellFormed, ← ht] at hf
  rw [step_accepts h ho hf]
  exact (exec_wire_of_rx (wireInstr_wireFields hi) (State.finished_executing h).2 h.isRx).symm

/-! ### Bytes written out -/

/-- Settles O1: each word is the encoding of its instruction, which decodes to it. -/
theorem wordsWrittenOutDecode : Obligations.WordsWrittenOutDecode :=
  ⟨decodeOfEncodeIsIdentity (.crc [0x50#8, 0x4D#8, 0x58#8]) rfl,
    decodeOfEncodeIsIdentity (.tx 0x01#8 0xA1#8 0x01#8 [0xF5#8, 0x01#8, 0x01#8]) rfl,
    decodeOfEncodeIsIdentity .rx rfl,
    decodeOfEncodeIsIdentity (.setTmo 50000#32) rfl,
    decodeOfEncodeIsIdentity (.tblRd 0xFE#8) rfl,
    decodeOfEncodeIsIdentity (.memWrite 0x01#8 0x01#8 [0xF5#8, 0x01#8, 0x01#8]) rfl,
    decodeOfEncodeIsIdentity (.memWriteAck 0x01#8 0x04#8 []) rfl⟩

/-- Settles O35: both are frames the framer builds, the second with one parameter fewer, and so well formed. -/
theorem flippedLengthBitCanPass : Obligations.FlippedLengthBitCanPass :=
  ⟨frameWith_wellFormed crcTable 0x01#8 0xA1#8 0x01#8 [0x40#8, 0x19#8, 0xA4#8] (by decide),
    frameWith_wellFormed crcTable 0x01#8 0xA1#8 0x01#8 [0x40#8, 0x19#8] (by decide)⟩

/-! ### Reset meets the invariants (R260) -/

/-- A line or lock that some engine is wired to is numbered below their count (R13; log 6). -/
theorem wire_lt_count {wiring : List Wiring} {w : Wiring} (hw : w ∈ wiring) (number : Wiring → Nat) :
    number w < (wiring.map number).foldr max 0 + 1 :=
  Nat.lt_succ_of_le (List.le_max_of_le' 0 (List.mem_map_of_mem hw) le_rfl)

/-- An index of 3 bits leaves the reserved bits of its byte 0 (R23). -/
theorem extractLsb_high_setWidth (i : BitVec 3) : (i.setWidth 8).extractLsb' 3 5 = 0#5 :=
  (extractLsb_high_eq_zero_iff _).2 (by have := i.isLt; simp only [BitVec.toNat_setWidth]; omega)

theorem State.resetOn_wired {p : Platform} (hdepth : 255 ≤ p.rxqDepth) (hhosts : 1 ≤ p.nHosts) :
    (State.resetOn p).Wired where
  engines := State.resetOn_engines_length p
  wired e he := by
    have hwire : (State.resetOn p).wiringOf e ∈ p.wiring := by
      rw [State.resetOn_engines_length] at he
      change p.wiring.getD e default ∈ p.wiring
      rw [List.getD_eq_getElem _ _ he]
      exact List.getElem_mem he
    refine ((State.resetOn p).wired_iff e).2 ⟨he, ?_, ?_⟩
    · exact (wire_lt_count hwire Wiring.line).trans_eq List.length_replicate.symm
    · exact (wire_lt_count hwire Wiring.lock).trans_eq List.length_replicate.symm
  depth := hdepth
  hosts := hhosts

/-- Settles O48: the wires are by the counts of lines and locks, and the rest reads the reset values of the engines and
lines, of which no line has sent anything. -/
theorem resetMeetsTheInvariants : Obligations.ResetMeetsTheInvariants := by
  refine ⟨⟨Nat.le_add_left _ _, Nat.le_add_left _ _⟩, fun p hdepth hhosts =>
    ⟨State.resetOn_wired hdepth hhosts, ?tables, ?baud, ?queues, ?receivers, ?sent, nofun⟩⟩
  case tables =>
    intro x hx
    obtain ⟨number, rfl⟩ := State.eq_reset_of_mem_resetOn_engines hx
    rfl
  case baud =>
    intro x hx
    obtain ⟨number, rfl⟩ := State.eq_reset_of_mem_resetOn_engines hx
    exact extractLsb_high_setWidth p.resetBaudIdx
  case queues =>
    intro l hl
    obtain rfl := State.eq_reset_of_mem_resetOn_lines hl
    exact Nat.zero_le _
  case receivers =>
    intro x hx
    obtain ⟨number, rfl⟩ := State.eq_reset_of_mem_resetOn_engines hx
    exact Engine.reset_receiverFits p number 0
  case sent =>
    intro n l hl x hx
    obtain rfl := State.eq_reset_of_mem_resetOn_lines (List.mem_of_getElem? hl)
    cases hx

end Sys2Proof.Machine
end
